-- ==== Sys2Proof/Word.lean ====
section
/-! DEFINITION. The word types of LTCMOD (spec/00_scope.md rules R6 to R9). No value is signed (R7). -/

namespace Sys2Proof

/-- One byte: a packet-buffer byte, a payload byte (R8). -/
abbrev Byte := BitVec 8

/-- The register port's 32-bit data word and the command word (R6 `REG_DATA_WIDTH`, R71). -/
abbrev Word := BitVec 32

/-- The 64-bit encoding of an IEEE 754 binary64 value (R6 "sample format", R9). -/
abbrev F64 := BitVec 64

/-- `le32(v)`: the four bytes of a word, least significant first (R8). -/
def le32 (v : Word) : List Byte :=
  [v.extractLsb' 0 8, v.extractLsb' 8 8, v.extractLsb' 16 8, v.extractLsb' 24 8]

end Sys2Proof
end

