-- ==== Sys2Proof/Syntax.lean ====
section
/-! DEFINITION. The commands of LTCMOD: one constructor per row of spec/opcode_table.json
(spec/30_encoding.md rules R73, R74). -/

namespace Sys2Proof

/-- A command, as the host writes it to CMD. Every operand but LEN comes from the registers (R72). -/
inductive Instr where
  /-- `NOP`: nothing; sets DONE (R105). -/
  | nop
  /-- `BUILD_CTRL`: build a control packet in the packet buffer (R89). -/
  | buildCtrl
  /-- `BUILD_DATA`: build and stripe the data packet of block BLOCK (R90). -/
  | buildData
  /-- `MOD_BUF n`: modulate packet-buffer bytes 0 to n − 1 (R96). -/
  | modBuf (len : Nat)
  /-- `MOD_PKT`: modulate packet-buffer bytes 0 to PKT_LEN − 1 (R97). -/
  | modPkt
  /-- `OSC_RESET`: the oscillator registers and SAMPLE_COUNT return to their reset values (R98). -/
  | oscReset
  deriving DecidableEq, Repr

end Sys2Proof
end

