-- ==== Sys2Proof/WellFormed.lean ====
section
/-! DEFINITION. Which command terms have a command word: LEN is a 10-bit unsigned count, 0 to 1023
(spec/30_encoding.md rules R72, R78). A LEN of 513 to 1023 is well formed: it is the command that
raises LEN_RANGE (R75). -/

namespace Sys2Proof

/-- The one operand field there is, LEN, fits its 10 bits (R71, R72). -/
def Instr.wellFormed : Instr → Bool
  | .nop => true
  | .buildCtrl => true
  | .buildData => true
  | .modBuf len => decide (len < 1024)
  | .modPkt => true
  | .oscReset => true

end Sys2Proof
end

