-- ==== Sys2Proof/Decode.lean ====
section
/-! DEFINITION. The command word: its fields, its decoder (total on all 2^32 words, R74), the reasons a
word is illegal (R75), and the encoder (R73, R78). -/

namespace Sys2Proof

/-- OP, bits 7:0 of a command word (R71). -/
def opField (w : Word) : BitVec 8 := w.extractLsb' 0 8

/-- LEN, bits 17:8 of a command word (R71). -/
def lenField (w : Word) : BitVec 10 := w.extractLsb' 8 10

/-- RSVD, bits 31:18 of a command word (R71). -/
def rsvdField (w : Word) : BitVec 14 := w.extractLsb' 18 14

/-- Why a command word is illegal (R75). Every one of them raises ILLEGAL_CMD when the word is accepted
in IDLE; the name only says which of the rule's conditions the word meets first. -/
inductive Illegal where
  /-- OP is 0x06 to 0xFF. -/
  | opcode
  /-- RSVD ≠ 0. -/
  | reserved
  /-- LEN ≠ 0 and OP ≠ 0x03. -/
  | length
  deriving DecidableEq, Repr

/-- The condition of R75 a word that matches no row meets, read in the rule's order. -/
def illegalReason (w : Word) : Illegal :=
  if 6 ≤ (opField w).toNat then .opcode
  else if rsvdField w ≠ 0 then .reserved
  else .length

/-- `w & mask == match` selects the row (R74). -/
def selects (w mask pattern : Word) : Bool := w &&& mask == pattern

/-- The decoder: the first row of R74 that the word selects, else the word is illegal by name. -/
def decode (w : Word) : Except Illegal Instr :=
  if selects w 0xFFFFFFFF 0x00000000 then .ok .nop
  else if selects w 0xFFFFFFFF 0x00000001 then .ok .buildCtrl
  else if selects w 0xFFFFFFFF 0x00000002 then .ok .buildData
  else if selects w 0xFFFC00FF 0x00000003 then .ok (.modBuf (lenField w).toNat)
  else if selects w 0xFFFFFFFF 0x00000004 then .ok .modPkt
  else if selects w 0xFFFFFFFF 0x00000005 then .ok .oscReset
  else .error (illegalReason w)

/-- The command word of a well-formed command: OP of R73, and `(n << 8) | 0x03` for MOD_BUF n (R78). -/
def encode : Instr → Word
  | .nop => 0x00000000
  | .buildCtrl => 0x00000001
  | .buildData => 0x00000002
  | .modBuf len => (BitVec.ofNat 32 len <<< 8) ||| 0x00000003
  | .modPkt => 0x00000004
  | .oscReset => 0x00000005

/-- The command word that a row of spec/opcode_table.json denotes by its bits `w`, numbered as the table
numbers them: a command is one 32-bit word (R77), and every bit above `nbits` is 0. -/
def tableWord (nbits w : Nat) : Word := BitVec.ofNat 32 (w % 2 ^ nbits)

/-- What the decoder reads from the command whose bits are `w` (none where it calls the word illegal). -/
def decodeTableWord (nbits w : Nat) : Option Instr := (decode (tableWord nbits w)).toOption

end Sys2Proof
end

