-- ==== Sys2Proof/Config.lean ====
section
/-! DEFINITION. What an implementation fixes (spec/00_scope.md rule R6, R51) and the model's free values.
Every constant the spec leaves OPEN is opaque, with no body: a theorem about it holds for every value
the spec's constraint admits (spec/93_implementation_defined.md U1 to U4). -/

namespace Sys2Proof.Config

/-- `STOP_LEN_V1 − 1` (R6: 1 ≤ STOP_LEN_V1 ≤ 241; log entry 1). -/
opaque stopIndexV1 : Fin 241

/-- `STOP_LEN_V2 − 1` (R6: 1 ≤ STOP_LEN_V2 ≤ 241; log entry 1). -/
opaque stopIndexV2 : Fin 241

/-- `STOP_LEN_V1`, any integer from 1 to 241 (R6). -/
def stopLenV1 : Nat := stopIndexV1.val + 1

/-- `STOP_LEN_V2`, any integer from 1 to 241 (R6). -/
def stopLenV2 : Nat := stopIndexV2.val + 1

/-- `H32(seed, bytes)`: a total function, otherwise unknown (R6, D21; log entry 2). -/
opaque h32 : Word → List Byte → Word

/-- `D128(bytes)`: a total function to 16-byte strings, otherwise unknown (R6, D22; log entry 2). -/
opaque d128 : List Byte → Vector Byte 16

/-- Any total function of binary64; `Machine.F64.cosine` confines it to the range R6 gives COS (log entry 3). -/
opaque cosRaw : F64 → F64

/-- The sign (bit 51) and the payload (bits 50:0) of a NaN result: IEEE 754 leaves them open, and so does
R9. No run reaches a NaN (R99; log entry 4). -/
opaque nanBits : F64 → F64 → BitVec 52

/-- The free byte of draw `n` at index `i`: a packet-buffer byte after reset (R45, U9), a payload byte read
by a build whose payload the host changed meanwhile (R68, U11) (log entries 5 and 6). -/
opaque freeByte : (n i : Nat) → Byte

/-- The free word of draw `n` at register-port offset `a`: its low ten bits as PKT_LEN, all of it as a window
word, read while STATE = BUILD (R38, R45, U10) (log entry 7). -/
opaque freeWord : (n a : Nat) → Word

/-- `TWO_PI` (R6). -/
def twoPi : F64 := 0x401921FB54442D18

/-- `PKT_BUF_SIZE` (R6). -/
def pktBufSize : Nat := 512

/-- The host's parameter SILENCE_RATE, the samples per millisecond of silence, is this number over
`silenceRateDenominator` (R126, D42; log entry 15). -/
opaque silenceRateNumerator : Nat

/-- `silenceRateDenominator − 1` (log entry 15). -/
opaque silenceRateDenominatorLess1 : Nat

/-- The denominator of SILENCE_RATE: any positive number (log entry 15). -/
def silenceRateDenominator : Nat := silenceRateDenominatorLess1 + 1

/-- Whether `p / q` samples of silence, where that is no whole number, become the next whole number above it
or the one below: the spec gives no rounding (D42, N9; log entry 15). -/
opaque silenceRoundsUp : (p q : Nat) → Bool

/-- The host's parameter HOST_BLOCK_CAP: true for 256, false for NONE (R126, D43; log entry 15). -/
opaque hostBlockCap : Bool

end Sys2Proof.Config
end

