-- ==== Sys2Proof/Machine/F64.lean ====
section
/-! DEFINITION. IEEE 754 binary64 arithmetic on encodings (spec/00_scope.md rule R9): each operation is
computed exactly, then rounded once, to nearest with ties to even. Every finite value is an integer number
of units of 2^-1074, so the exact work is on naturals and integers. -/

namespace Sys2Proof.Machine.F64

/-- The sign bit. -/
def sign (x : F64) : Bool := x.getLsbD 63

/-- The biased exponent, encoding bits 62:52. -/
def expo (x : F64) : Nat := (x.extractLsb' 52 11).toNat

/-- The fraction, encoding bits 51:0. -/
def frac (x : F64) : Nat := (x.extractLsb' 0 52).toNat

def isNaN (x : F64) : Bool := expo x == 2047 && frac x != 0

def isInf (x : F64) : Bool := expo x == 2047 && frac x == 0

def isFinite (x : F64) : Bool := expo x != 2047

/-- The magnitude of a finite value, in units of 2^-1074: exact. -/
def mag (x : F64) : Nat :=
  if expo x = 0 then frac x else (frac x + 2 ^ 52) * 2 ^ (expo x - 1)

/-- A finite value, in units of 2^-1074: exact. -/
def units (x : F64) : Int := if sign x then -(mag x : Int) else mag x

/-- Units of 2^-1074 in 1: 2^1074. -/
def unitsInOne : Nat := 2 ^ 1074

/-- The nearest integer to `p / q`, a tie going to the even one. -/
def nearestEven (p q : Nat) : Nat :=
  let m := p / q
  let r := p % q
  if q < 2 * r || (2 * r == q && m % 2 == 1) then m + 1 else m

/-- The exponent of the last place `p / q` units of 2^-1074 are rounded to: 53 significant bits, or
fewer where the value is subnormal. -/
def lastPlace (p q : Nat) : Nat := (p / q).log2 - 52

/-- The encoding bits 62:0 of infinity. -/
def infBits : Nat := 2047 * 2 ^ 52

/-- The encoding bits 62:0 of `p / q` units of 2^-1074, rounded once to nearest even (R9). Adding the
significand to the exponent field's place makes a carry out of the significand the next exponent, and a
carry out of the largest exponent infinity. -/
@[irreducible] def roundBits (p q : Nat) : Nat :=
  let t := lastPlace p q
  min infBits (t * 2 ^ 52 + nearestEven p (q * 2 ^ t))

/-- An encoding from its sign and its bits 62:0. -/
def pack (s : Bool) (bits : Nat) : F64 := BitVec.ofBool s ++ BitVec.ofNat 63 bits

/-- The exact `n` units of 2^-1074, rounded once; an exact zero takes the sign `zeroSign`. -/
def ofUnits (zeroSign : Bool) (n : Int) : F64 :=
  if n = 0 then pack zeroSign 0 else pack (decide (n < 0)) (roundBits n.natAbs 1)

/-- The NaN an invalid operation or a NaN operand gives: quiet, its sign and payload open (log entry 4). -/
def nan (x y : F64) : F64 :=
  BitVec.ofBool ((Config.nanBits x y).getLsbD 51) ++ (0xFFF#12 : BitVec 12)
    ++ (Config.nanBits x y).extractLsb' 0 51

def inf (s : Bool) : F64 := pack s infBits

/-- `a +f b` (R9). -/
def add (a b : F64) : F64 :=
  if isNaN a || isNaN b then nan a b
  else if isInf a then (if isInf b && sign a != sign b then nan a b else a)
  else if isInf b then b
  else ofUnits (sign a && sign b) (units a + units b)

def neg (x : F64) : F64 := x ^^^ 0x8000000000000000

/-- `a -f b` (R9): the sum of a and −b. -/
def sub (a b : F64) : F64 :=
  if isNaN a || isNaN b then nan a b
  else if isInf a then (if isInf b && sign a == sign b then nan a b else a)
  else if isInf b then neg b
  else ofUnits (sign a && !sign b) (units a - units b)

/-- `a *f b` (R9). -/
def mul (a b : F64) : F64 :=
  let s := sign a != sign b
  if isNaN a || isNaN b then nan a b
  else if isInf a then (if mag b = 0 then nan a b else inf s)
  else if isInf b then (if mag a = 0 then nan a b else inf s)
  else pack s (roundBits (mag a * mag b) unitsInOne)

/-- `a /f b` (R9). -/
def div (a b : F64) : F64 :=
  let s := sign a != sign b
  if isNaN a || isNaN b then nan a b
  else if isInf a then (if isInf b then nan a b else inf s)
  else if isInf b then pack s 0
  else if mag b = 0 then (if mag a = 0 then nan a b else inf s)
  else pack s (roundBits (mag a * unitsInOne) (mag b))

/-- The order of the encodings that are no NaN: a value's place on the real line, infinities at the ends. -/
def key (x : F64) : Int :=
  if sign x then -((x.extractLsb' 0 63).toNat : Int) else (x.extractLsb' 0 63).toNat

/-- `a >f b`: the IEEE ordered greater-than, false when either is a NaN (R9). -/
def gt (a b : F64) : Bool := !isNaN a && !isNaN b && decide (key b < key a)

/-- 1.0. -/
def one : F64 := 0x3FF0000000000000

/-- `f64(n)` (R9): exact for every n < 2^53. -/
def ofNat (n : Nat) : F64 := pack false (roundBits (n * unitsInOne) 1)

/-- The value lies in [−1.0, 1.0] (R6, R99). -/
def inUnitRange (x : F64) : Bool := !isNaN x && !gt x one && !gt (neg one) x

/-- `COS(x)` (R6): any total function of binary64 that lies in [−1.0, 1.0] at every finite argument.
Whatever the hardware's COS is, it is this function for `Config.cosRaw` equal to it (log entry 3). -/
def cosine (x : F64) : F64 :=
  if isFinite x && !inUnitRange (Config.cosRaw x) then 0 else Config.cosRaw x

end Sys2Proof.Machine.F64
end

