-- ==== Sys2Proof/Machine/State.lean ====
section
/-! DEFINITION. The state of LTCMOD and of what acts on it: the registers and hidden values of
spec/10_state.md, the payload memory (outside the block, R50), SINK, and the moves still to come. Plain
data throughout. -/

namespace Sys2Proof.Machine

/-- Why the machine stops with a fault. Neither is raised in a state that a run from reset reaches (R49);
the step checks them because such states are data all the same. -/
inductive Fault where
  /-- Raised by a sample step that would read packet-buffer byte `i` with 512 ≤ `i`: no such byte exists
  (R56). SAFE: the machine stops where R49 says no run comes. -/
  | noSuchPacketByte (i : Nat)
  /-- Raised by a sample step while BITS_LEFT is 0 or above 8: no bit is in progress or no such bit exists
  (R46, R49). SAFE: the machine stops where R49 says no run comes. -/
  | noBitInProgress
  deriving DecidableEq, Repr

/-- Why a command has no meaning. Every command of LTCMOD has one, so nothing answers with this. -/
inductive Refusal where
  /-- Raised by an arm of exec for a command not modelled yet: none is left. SAFE. -/
  | notModelled (mnemonic : String)
  deriving DecidableEq, Repr

/-- The two kinds of packet (R81). -/
inductive PacketKind where
  | control
  | data
  deriving DecidableEq, Repr

/-- STATUS.STATE (R27). BUILD carries which framer command is running: the build step of R89 or of R90
needs it, and no register holds it (DEDUCED, log entry 8). -/
inductive RunState where
  | idle
  | build (kind : PacketKind)
  | mod
  | error
  deriving DecidableEq, Repr

/-- STATUS.ERR_CODE when it is not 0 (R110). Codes 5 to 15 are never produced. -/
inductive ErrorCode where
  | illegalCmd
  | lenRange
  | cfgVersion
  | cfgNumeric
  deriving DecidableEq, Repr

/-- A register-port offset: a 12-bit byte address (R6, R23). -/
abbrev Offset := BitVec 12

/-- One move of the agents of R22, as the order of R66 gives them one after another. Which move comes next
is data of the state (DESIGN CHOICE, log entry 9). -/
inductive Move where
  /-- HOST reads the register port at `a` (R106). -/
  | read (a : Offset)
  /-- HOST writes `w` to the register port at `a` (R107). -/
  | write (a : Offset) (w : Word)
  /-- ENGINE takes its step if one is enabled (R103). -/
  | engine
  /-- HOST writes in the very step in which ENGINE takes an enabled step (R27 "in the same step"). -/
  | writeWithEngine (a : Offset) (w : Word)
  /-- RESET: the reset input is asserted (R123). -/
  | reset
  /-- RESET is asserted in the very step in which HOST writes (R112 "in the same step"). -/
  | resetWithWrite (a : Offset) (w : Word)
  /-- SINK becomes ready to accept samples, or stops being ready (R57, R135). -/
  | sink (ready : Bool)
  /-- HOST writes the payload memory, outside the block (R22, R68). -/
  | payloadWrite (a : BitVec 32) (v : Byte)
  /-- HOST inserts `n` samples of silence into the stream SINK receives (R126). The spec does not say whether
  they wait for SINK: here all `n` go in at once, whatever SINK's readiness and STATE are (DESIGN CHOICE, log
  entry 15). -/
  | silence (n : Nat)
  /-- HOST runs `wait_idle` (R79): reads STATUS until STATE is neither BUILD nor MOD (log entry 17). -/
  | waitIdle
  /-- HOST runs `wait_done` (R79): reads STATUS until DONE = 1, then writes 0x4 to it (log entry 17). -/
  | waitDone
  deriving DecidableEq, Repr

/-- A byte memory: the listed bytes, addresses strictly rising, none equal to what an unlisted address
reads as (`Memory.wf`, `Memory.unlisted` of Machine/Ops.lean). -/
abbrev Memory := List Host.Cell

/-- The state. The first group is the block's (spec/10_state.md); the second is what stands outside it. -/
structure State where
  /-- STATUS.STATE (R27). -/
  runState : RunState
  /-- STATUS.DONE (R27). -/
  done : Bool
  /-- STATUS.DROP (R27). -/
  drop : Bool
  /-- STATUS.ERR_CODE, none for 0 (R27, R110). -/
  errCode : Option ErrorCode
  /-- CTRL.IE_DONE (R26). -/
  ieDone : Bool
  /-- CTRL.IE_ERR (R26). -/
  ieErr : Bool
  /-- ERR_CMD (R29). -/
  errCmd : Word
  /-- VERSION.VER (R30). -/
  ver : Byte
  /-- FLAGS.OS_UPDATE (R31). -/
  osUpdate : Bool
  /-- SAMPLE_RATE (R32). -/
  sampleRate : Word
  /-- BAUD_RATE (R33). -/
  baudRate : Word
  /-- F_LO (R34). -/
  fLo : Word
  /-- F_HI (R35). -/
  fHi : Word
  /-- PAYLOAD_LEN (R36). -/
  payloadLen : Word
  /-- BLOCK.IDX (R37). -/
  block : BitVec 24
  /-- PKT_LEN (R38). -/
  pktLen : BitVec 10
  /-- SAMPLE_COUNT (R39). -/
  sampleCount : Word
  /-- PKT_BUF (R45). -/
  pktBuf : Vector Byte 512
  /-- PHASE (R46). -/
  phase : F64
  /-- BAUD_FRAC (R46). -/
  baudFrac : F64
  /-- CUR_BYTE (R46). -/
  curByte : Byte
  /-- CUR_BIT (R46). -/
  curBit : Bool
  /-- BITS_LEFT (R46). -/
  bitsLeft : BitVec 4
  /-- OMEGA_LO (R47). -/
  omegaLo : F64
  /-- OMEGA_HI (R47). -/
  omegaHi : F64
  /-- BAUD_INC (R47). -/
  baudInc : F64
  /-- MOD_N (R48). -/
  modN : Nat
  /-- POS (R48). -/
  pos : Nat
  /-- PAYLOAD, the payload memory, outside the block (R50, R55). -/
  payload : Memory
  /-- The host wrote payload memory while STATE = BUILD, so the running build reads any value
  (R68, R131; the model's own field, log entry 6). -/
  payloadTorn : Bool
  /-- SINK is ready to accept a sample (R57; the model's own field, log entry 10). -/
  sinkReady : Bool
  /-- The samples SINK has received, the newest first (R57; the model's own field, log entry 10). -/
  samples : List F64
  /-- The word the last register-port read returned to HOST (R78 `rd`; the model's own field, log entry 9). -/
  readData : Word
  /-- The number of free values drawn so far (the model's own field, log entry 5). -/
  draws : Nat
  /-- The moves still to come, the next one first (the model's own field, log entry 9). -/
  agenda : List Move
  deriving DecidableEq, Repr

/-- The three outcomes of a step, over this machine's state and reasons. -/
abbrev Result := Host.Outcome State Fault Refusal

/-- The packet buffer after the reset that takes draw `n`: each byte some value (R45, R52, R123). -/
def freeBuffer (n : Nat) : Vector Byte 512 :=
  ⟨((List.range 512).map (Config.freeByte n)).toArray, by simp⟩

/-- The machine right after reset: every register and hidden value at its value of R52, no move to come. -/
def State.reset : State where
  runState := .idle
  done := false
  drop := false
  errCode := none
  ieDone := false
  ieErr := false
  errCmd := 0
  ver := 0
  osUpdate := false
  sampleRate := 0
  baudRate := 0
  fLo := 0
  fHi := 0
  payloadLen := 0
  block := 0
  pktLen := 0
  sampleCount := 0
  pktBuf := freeBuffer 0
  phase := 0
  baudFrac := 0
  curByte := 0
  curBit := false
  bitsLeft := 0
  omegaLo := 0
  omegaHi := 0
  baudInc := 0
  modN := 0
  pos := 0
  payload := []
  payloadTorn := false
  sinkReady := true
  samples := []
  readData := 0
  draws := 1
  agenda := []

end Sys2Proof.Machine
end

