-- ==== Sys2Proof/Machine/Ops.lean ====
section
/-! DEFINITION. The named operations over memory and registers: the payload memory, the packet buffer,
completion, taking an error and leaving it by reset, the acceptance of a command, and the sample port. -/

namespace Sys2Proof.Machine

/-- What a payload byte that nothing has listed reads as (DESIGN CHOICE, log entry 11). -/
def Memory.unlisted : Byte := 0

/-- One byte of a memory. -/
def Memory.read : Memory → Nat → Byte
  | [], _ => Memory.unlisted
  | (b, v) :: rest, a => if a = b then v else Memory.read rest a

/-- `a` holds `v` from now on; the canonical form is kept. -/
def Memory.write : Memory → Nat → Byte → Memory
  | [], a, v => if v = Memory.unlisted then [] else [(a, v)]
  | (b, u) :: rest, a, v =>
    if a < b then (if v = Memory.unlisted then (b, u) :: rest else (a, v) :: (b, u) :: rest)
    else if a = b then (if v = Memory.unlisted then rest else (a, v) :: rest)
    else (b, u) :: Memory.write rest a v

/-- Addresses strictly rising from `lo` on and below 2^32 (R55), no byte listed that reads as unlisted. -/
def Memory.canonicalFrom (lo : Nat) : Memory → Bool
  | [] => true
  | (a, v) :: rest =>
    decide (lo ≤ a) && decide (a < 2 ^ 32) && decide (v ≠ Memory.unlisted)
      && Memory.canonicalFrom (a + 1) rest

/-- The canonical form of the payload memory. -/
def Memory.wf (m : Memory) : Bool := Memory.canonicalFrom 0 m

/-- `PktRead(i)` (R10, R56): none where the packet buffer has no byte `i`. -/
def State.pktRead (s : State) (i : Nat) : Option Byte := s.pktBuf.toList[i]?

/-- The bytes `p` over the first bytes of `old`. -/
def overlayList : List Byte → List Byte → List Byte
  | b :: p, _ :: old => b :: overlayList p old
  | _, old => old

/-- Writing over bytes changes none of their number. -/
theorem overlayList_length (p old : List Byte) : (overlayList p old).length = old.length := by
  induction old generalizing p with
  | nil => cases p <;> rfl
  | cons o old ih => cases p <;> simp [overlayList, ih]

/-- `for i in 0 .. len(p) - 1: PktWrite(i, p[i])` (R89, R90). -/
def overlay (p : List Byte) (buf : Vector Byte 512) : Vector Byte 512 :=
  ⟨(overlayList p buf.toList).toArray, by simp [overlayList_length]⟩

/-- The four packet-buffer bytes 4k to 4k+3 as one window word, the lowest index in bits 7:0 (R44). -/
def windowRead (buf : Vector Byte 512) (k : Fin 128) : Word :=
  buf[4 * k.val + 3] ++ buf[4 * k.val + 2] ++ buf[4 * k.val + 1] ++ buf[4 * k.val]

/-- `PktWrite(4k+i, w[8i+7:8i])` for i = 0 to 3 (R44, R107). -/
def windowWrite (buf : Vector Byte 512) (k : Fin 128) (w : Word) : Vector Byte 512 :=
  (((buf.set (4 * k.val) (w.extractLsb' 0 8)).set (4 * k.val + 1) (w.extractLsb' 8 8)).set
    (4 * k.val + 2) (w.extractLsb' 16 8)).set (4 * k.val + 3) (w.extractLsb' 24 8)

/-- `complete` (R104). -/
def State.complete (s : State) : State := { s with runState := .idle, done := true }

/-- A word or a write is ignored because STATE is BUILD or MOD: DROP <- 1 (R102, R114). -/
def State.setDrop (s : State) : State := { s with drop := true }

/-- `raise Error(code)` for the command word `w`: the error entry of R111. There is no handler and no saved
program state; the one way back is `State.resetBlock` (R113). -/
def State.raiseError (code : ErrorCode) (w : Word) (s : State) : State :=
  { s with runState := .error, errCode := some code, errCmd := w }

/-- The reset of R123, by the reset input or by CTRL.SRST: every register and hidden value takes its value
of R52, every packet-buffer byte some value (a new draw). What stands outside the block is not touched:
the payload memory, SINK and the samples it has accepted (R124), the host's moves. -/
def State.resetBlock (s : State) : State :=
  { State.reset with
    pktBuf := freeBuffer s.draws
    draws := s.draws + 1
    payload := s.payload
    sinkReady := s.sinkReady
    samples := s.samples
    readData := s.readData
    agenda := s.agenda }

/-- The acceptance of a legal command (R102): `run` is the acceptance part of the command's own rule, taken
in IDLE; in BUILD and MOD the word is dropped, in ERROR it is ignored. -/
def accept (s : State) (run : State → Result) : Result :=
  match s.runState with
  | .idle => run s
  | .build _ => .next s.setDrop
  | .mod => .next s.setDrop
  | .error => .next s

/-- The acceptance of a word that matches no row of R74: ILLEGAL_CMD (R75, R102). -/
def acceptIllegal (w : Word) (s : State) : Result :=
  accept s fun s => .next (s.raiseError .illegalCmd w)

/-- Writes to configuration registers and the packet window are taken in IDLE and ERROR (R23, R44). -/
def State.takesWrites (s : State) : Bool :=
  match s.runState with
  | .idle => true
  | .build _ => false
  | .mod => false
  | .error => true

/-- A configuration or window write (R107): `store` where writes are taken, else DROP <- 1. -/
def State.configWrite (s : State) (store : State → State) : State :=
  if s.takesWrites then store s else s.setDrop

/-- What the sample output port offers: COS(PHASE) while a modulator command runs, else nothing (R57). -/
def State.offered (s : State) : Option F64 :=
  match s.runState with
  | .idle => none
  | .build _ => none
  | .mod => some (F64.cosine s.phase)
  | .error => none

/-- `Emit(v)`, accepted by SINK (R57). -/
def State.emit (v : F64) (s : State) : State := { s with samples := v :: s.samples }

/-- The next move leaves the agenda. -/
def State.withAgenda (s : State) (rest : List Move) : State := { s with agenda := rest }

end Sys2Proof.Machine
end

