-- ==== Sys2Proof/Machine/Operands.lean ====
section
/-! DEFINITION. Where an access or a command finds what it works on: the register map (spec/10_state.md
rule R23), the operands of the framer commands and of the modulator commands (R72). -/

namespace Sys2Proof.Machine

/-- The word slots of the register space (R23). -/
inductive Slot where
  | id
  | caps
  | ctrl
  | status
  | cmd
  | errCmd
  | version
  | flags
  | sampleRate
  | baudRate
  | fLo
  | fHi
  | payloadLen
  | block
  | pktLen
  | sampleCount
  | oscCursor
  | phaseLo
  | phaseHi
  | bfracLo
  | bfracHi
  | pkt (k : Fin 128)
  | reserved
  deriving DecidableEq, Repr

/-- The offset with bits 1:0 cleared, as a word number (R61). -/
def wordNumber (a : Offset) : Nat := a.toNat / 4

/-- The registers of R23 in the order of their offsets: 0x000, 0x004, and so on to 0x050. -/
def lowSlots : List Slot :=
  [.id, .caps, .ctrl, .status,                        -- 0x000 to 0x00C
    .cmd, .errCmd, .version, .flags,                  -- 0x010 to 0x01C
    .sampleRate, .baudRate, .fLo, .fHi,               -- 0x020 to 0x02C
    .payloadLen, .block, .pktLen, .sampleCount,       -- 0x030 to 0x03C
    .oscCursor, .phaseLo, .phaseHi, .bfracLo,         -- 0x040 to 0x04C
    .bfracHi]                                         -- 0x050

/-- The map of R23: the slot an offset reaches, bits 1:0 ignored (R61). The window is at 0x400 to 0x5FC,
every offset that no register and no window word has is reserved (R43). -/
def slotOf (a : Offset) : Slot :=
  if h : 256 ≤ wordNumber a ∧ wordNumber a < 384 then .pkt ⟨wordNumber a - 256, by omega⟩
  else lowSlots.getD (wordNumber a) .reserved

/-- The offset of CMD (R28). -/
def cmdOffset : Offset := 0x010

/-- The offset of STATUS (R27). -/
def statusOffset : Offset := 0x00C

/-- VERSION.VER ∈ {1, 2} (R89, R90, R110). -/
def State.versionLegal (s : State) : Bool := s.ver == 1 || s.ver == 2

/-- `STOP_LEN(v)` (R84). A framer command runs only with v = 1 or v = 2. -/
def stopLen (v : Byte) : Nat := if v = 1 then Config.stopLenV1 else Config.stopLenV2

/-- `PayRead(a)` (R55). Where the host broke the duty of R68 during this build, the byte is a free value
(U11; log entry 6). -/
def State.payRead (s : State) (a : Nat) : Byte :=
  if s.payloadTorn then Config.freeByte s.draws a else s.payload.read a

/-- Payload bytes 0 to PAYLOAD_LEN − 1, in increasing order (R89). -/
def State.payloadBytes (s : State) : List Byte := (List.range s.payloadLen.toNat).map s.payRead

/-- The data body of block BLOCK.IDX (R86): 256 bytes from IDX × 256, padded with 0xFF from PAYLOAD_LEN on. -/
def State.dataBody (s : State) : List Byte :=
  (List.range 256).map fun j =>
    if s.block.toNat * 256 + j < s.payloadLen.toNat then s.payRead (s.block.toNat * 256 + j) else 0xFF

/-- The rates a modulator command rejects, compared as unsigned integers (R93). -/
def State.ratesIllegal (s : State) : Bool :=
  s.sampleRate.toNat == 0 || s.baudRate.toNat == 0 || decide (s.sampleRate.toNat ≤ s.baudRate.toNat)

end Sys2Proof.Machine
end

