-- ==== Sys2Proof/Machine/Control.lean ====
section
/-! DEFINITION. The command of the command engine itself: NOP (spec/42_control.md rule R105). -/

namespace Sys2Proof.Machine

/-- NOP at its acceptance, which is its whole effect: `complete` (R105). -/
def execNop (s : State) : Result := accept s fun s => .next s.complete

end Sys2Proof.Machine
end

