-- ==== Sys2Proof/Machine/Framer.lean ====
section
/-! DEFINITION. The packet framer (spec/40_framer.md): the parts of a packet (R80 to R88), BUILD_CTRL and
BUILD_DATA at their acceptance, and the build step ENGINE takes for them (R89, R90). -/

namespace Sys2Proof.Machine

/-- `PREAMBLE` (R80). -/
def preamble : List Byte := [0x00, 0x00, 0x00, 0x00, 0xAA, 0x55, 0x42]

/-- `TYPE(kind, os)` (R81). -/
def typeByte : PacketKind → Bool → Byte
  | .control, false => 1
  | .data, false => 2
  | .control, true => 3
  | .data, true => 4

/-- `HDR`, the 11 header bytes (R82). -/
def header (v : Byte) (kind : PacketKind) (os : Bool) (h9 h10 : Byte) : List Byte :=
  preamble ++ [v, typeByte kind os, h9, h10]

/-- `FOOT(p)`: the 32-bit hash, seed 0xDEADBEEF, of the bytes of `p` from offset 7 on (R85). -/
def footer (p : List Byte) : List Byte := le32 (Config.h32 0xDEADBEEF (p.drop 7))

/-- A packet from what stands before its footer: the footer (R85), then the stop padding (R84). -/
def closePacket (v : Byte) (p : List Byte) : List Byte :=
  p ++ footer p ++ List.replicate (stopLen v) 0xFF

/-- Exclusive-or of each byte with a mask of its packet offset, the first byte standing at offset `q`. -/
def xorFrom (mask : Nat → Byte) : Nat → List Byte → List Byte
  | _, [] => []
  | q, b :: bs => (b ^^^ mask q) :: xorFrom mask (q + 1) bs

/-- The V1 stripe mask at packet offset `q` (R87): 0x55 and 0xAA by the body index q − 11, and 0 outside
the 256-byte body. -/
def mask1 (q : Nat) : Byte :=
  if 11 ≤ q ∧ q < 267 then
    if (q - 11) % 16 = 3 then 0x55 else if (q - 11) % 16 = 11 then 0xAA else 0
  else 0

/-- The V2 stripe mask at packet offset `q` (R88): `MASK2[(q − 9 + 2) mod 3]` for q = 9 to 266, and 0
outside. The range ends at L − (4 + S) − 1 with L = 271 + S, which is 266 for every S. -/
def mask2 (q : Nat) : Byte :=
  if 9 ≤ q ∧ q < 267 then
    match (q - 9 + 2) % 3 with
    | 0 => 0x35
    | 1 => 0xAC
    | _ => 0x95
  else 0

/-- `STRIPE1(p)` (R87). -/
def stripe1 (p : List Byte) : List Byte := xorFrom mask1 0 p

/-- `STRIPE2(p)` (R88). -/
def stripe2 (p : List Byte) : List Byte := xorFrom mask2 0 p

/-- The striping of version `v` (R90): `if v == 1: STRIPE1(p) else: STRIPE2(p)`. -/
def stripe (v : Byte) (p : List Byte) : List Byte := if v = 1 then stripe1 p else stripe2 p

/-- What stands before the footer of the control packet (R89). -/
def State.controlOpening (s : State) : List Byte :=
  header s.ver .control s.osUpdate 0x00 0x00 ++ le32 s.payloadLen
    ++ le32 (Config.h32 0x32D0BABE s.payloadBytes) ++ (Config.d128 s.payloadBytes).toList

/-- The control packet (R83, R89). It is never striped. -/
def State.controlPacket (s : State) : List Byte := closePacket s.ver s.controlOpening

/-- What stands before the footer of the data packet (R90). Header byte 9 is BLOCK.IDX[7:0] (R82). -/
def State.dataOpening (s : State) : List Byte :=
  header s.ver .data s.osUpdate (s.block.extractLsb' 0 8) 0x00 ++ s.dataBody

/-- The data packet before striping (R83). -/
def State.plainDataPacket (s : State) : List Byte := closePacket s.ver s.dataOpening

/-- The data packet: striped after its footer is computed (R85, R90). -/
def State.dataPacket (s : State) : List Byte := stripe s.ver s.plainDataPacket

/-- The packet a framer command builds. -/
def State.packetOf (s : State) : PacketKind → List Byte
  | .control => s.controlPacket
  | .data => s.dataPacket

/-- The build step (R89, R90): the packet goes to the packet buffer at index 0, PKT_LEN takes its length,
the command completes. Free payload bytes, where the host disturbed the build, are one draw. -/
def buildStep (kind : PacketKind) (s : State) : State :=
  State.complete
    { s with
      pktBuf := overlay (s.packetOf kind) s.pktBuf
      pktLen := BitVec.ofNat 10 (s.packetOf kind).length
      payloadTorn := false
      draws := if s.payloadTorn then s.draws + 1 else s.draws }

/-- The acceptance of a framer command, in IDLE (R89, R90): VERSION is checked, then STATE <- BUILD. -/
def startBuild (kind : PacketKind) (w : Word) (s : State) : Result :=
  if s.versionLegal then .next { s with runState := .build kind }
  else .next (s.raiseError .cfgVersion w)

/-- BUILD_CTRL at its acceptance (R89). -/
def execBuildCtrl (s : State) : Result := accept s (startBuild .control (encode .buildCtrl))

/-- BUILD_DATA at its acceptance (R90). -/
def execBuildData (s : State) : Result := accept s (startBuild .data (encode .buildData))

end Sys2Proof.Machine
end

