-- ==== Sys2Proof/Machine/Modulator.lean ====
section
/-! DEFINITION. The FSK/DDS modulator (spec/41_modulator.md): the increments (R92), the prologue of a
modulator command (R93), the sample step (R94), MOD_BUF, MOD_PKT and OSC_RESET (R96 to R98). -/

namespace Sys2Proof.Machine

/-- An angular increment: `(TWO_PI *f f64(f)) /f f64(sr)` (R92). -/
def omega (f sr : Word) : F64 :=
  F64.div (F64.mul Config.twoPi (F64.ofNat f.toNat)) (F64.ofNat sr.toNat)

/-- The baud increment: `f64(baud) /f f64(sr)` (R92). -/
def baudIncrement (baud sr : Word) : F64 := F64.div (F64.ofNat baud.toNat) (F64.ofNat sr.toNat)

/-- The three increments, computed and held for the command (R47, R92). -/
def State.latchIncrements (s : State) : State :=
  { s with
    omegaLo := omega s.fLo s.sampleRate
    omegaHi := omega s.fHi s.sampleRate
    baudInc := baudIncrement s.baudRate s.sampleRate }

/-- The next byte `b` is loaded: POS moves on, and bit 0 is the bit being sent, LSB first (R59, R93, R94). -/
def State.loadByte (b : Byte) (s : State) : State :=
  { s with curByte := b, pos := s.pos + 1, bitsLeft := 8, curBit := b.getLsbD 0 }

/-- The prologue's part after its check of the rates (R93): the increments, the cursor, the first byte. -/
def beginModulation (n : Nat) (s : State) : State :=
  let t := { s.latchIncrements with modN := n, pos := 0 }
  if t.bitsLeft = 0 then
    if n = 0 then t.complete
    else { t.loadByte t.pktBuf[0] with runState := .mod }
  else { t with runState := .mod }

/-- The prologue of a modulator command with byte count `n` and command word `w`, in IDLE (R93). -/
def prologue (n : Nat) (w : Word) (s : State) : Result :=
  if s.ratesIllegal then .next (s.raiseError .cfgNumeric w) else .next (beginModulation n s)

/-- The first part of the sample step (R94): the sample goes to SINK, SAMPLE_COUNT counts it, PHASE
advances by the increment the frequency-select multiplexer chooses, BAUD_FRAC by BAUD_INC. -/
def State.advance (s : State) : State :=
  { s.emit (F64.cosine s.phase) with
    sampleCount := s.sampleCount + 1
    phase := F64.add s.phase (if s.curBit then s.omegaHi else s.omegaLo)
    baudFrac := F64.add s.baudFrac s.baudInc }

/-- `BAUD_FRAC <- BAUD_FRAC -f 1.0; BITS_LEFT <- BITS_LEFT - 1`: the current bit is done (R94). -/
def State.endBit (s : State) : State :=
  { s with baudFrac := F64.sub s.baudFrac F64.one, bitsLeft := s.bitsLeft - 1 }

/-- After a bit is done (R94, R95): the next bit of the byte, or bit 0 of the next byte, or completion. -/
def nextBit (s : State) : Result :=
  if s.bitsLeft = 0 then
    if s.pos = s.modN then .next s.complete
    else match s.pktRead s.pos with
      | some b => .next (s.loadByte b)
      | none => .fault (.noSuchPacketByte s.pos)
  else .next { s with curBit := s.curByte.getLsbD (8 - s.bitsLeft.toNat) }

/-- The sample step, one joint step of ENGINE and SINK (R94). -/
def sampleStep (s : State) : Result :=
  if s.bitsLeft = 0 ∨ 8 < s.bitsLeft.toNat then .fault .noBitInProgress
  else if F64.gt s.advance.baudFrac F64.one then nextBit s.advance.endBit
  else .next s.advance

/-- MOD_BUF at its acceptance, in IDLE (R96): LEN is checked before the rates (R112). -/
def startModBuf (len : Nat) (w : Word) (s : State) : Result :=
  if Config.pktBufSize < len then .next (s.raiseError .lenRange w) else prologue len w s

/-- MOD_BUF at its acceptance (R96). -/
def execModBuf (len : Nat) (s : State) : Result := accept s (startModBuf len (encode (.modBuf len)))

/-- MOD_PKT at its acceptance (R97): the byte count is PKT_LEN. -/
def execModPkt (s : State) : Result :=
  accept s fun s => prologue s.pktLen.toNat (encode .modPkt) s

/-- The oscillator registers and SAMPLE_COUNT at their reset values (R98). -/
def State.resetOscillator (s : State) : State :=
  { s with
    phase := 0
    baudFrac := 0
    curByte := 0
    curBit := false
    bitsLeft := 0
    sampleCount := 0 }

/-- OSC_RESET at its acceptance, which is its whole effect (R98). -/
def execOscReset (s : State) : Result := accept s fun s => .next s.resetOscillator.complete

end Sys2Proof.Machine
end

