-- ==== Sys2Proof/Machine/Dispatch.lean ====
section
/-! DEFINITION. exec: what the CMD write of a command does, in every state (spec/42_control.md rule R102).
What runs after acceptance is Machine/Engine.lean's (R103). -/

namespace Sys2Proof.Machine

def exec (i : Instr) (s : State) : Host.Outcome State Fault Refusal :=
  match i with
  | .nop => Sys2Proof.Machine.execNop s
  | .buildCtrl => Sys2Proof.Machine.execBuildCtrl s
  | .buildData => Sys2Proof.Machine.execBuildData s
  | .modBuf len => Sys2Proof.Machine.execModBuf len s
  | .modPkt => Sys2Proof.Machine.execModPkt s
  | .oscReset => Sys2Proof.Machine.execOscReset s

end Sys2Proof.Machine
end

