-- ==== Sys2Proof/Machine/Engine.lean ====
section
/-! DEFINITION. ENGINE: the steps a command takes after its acceptance (spec/42_control.md rule R103). -/

namespace Sys2Proof.Machine

/-- ENGINE has an enabled step: always while STATE = BUILD, and while STATE = MOD if SINK is ready (R103). -/
def State.engineEnabled (s : State) : Bool :=
  match s.runState with
  | .idle => false
  | .build _ => true
  | .mod => s.sinkReady
  | .error => false

/-- ENGINE takes its enabled step; where none is enabled it does nothing (R57, R103, R122). -/
def engineStep (s : State) : Result :=
  match s.runState with
  | .idle => .next s
  | .build kind => .next (buildStep kind s)
  | .mod => if s.sinkReady then sampleStep s else .next s
  | .error => .next s

end Sys2Proof.Machine
end

