-- ==== Sys2Proof/Machine/Flags.lean ====
section
/-! DEFINITION. The flags: STATUS and its write-one-to-clear bits, CTRL, the interrupt output
(spec/10_state.md rules R26, R27; spec/60_exceptions.md rules R110, R115). -/

namespace Sys2Proof.Machine

/-- The two bits of STATUS.STATE (R27). -/
def RunState.bits : RunState → BitVec 2
  | .idle => 0
  | .build _ => 1
  | .mod => 2
  | .error => 3

/-- The four bits of STATUS.ERR_CODE (R110). -/
def ErrorCode.bits : ErrorCode → BitVec 4
  | .illegalCmd => 1
  | .lenRange => 2
  | .cfgVersion => 3
  | .cfgNumeric => 4

/-- ERR_CODE as STATUS shows it, 0 for no error (R110). -/
def State.errBits (s : State) : BitVec 4 :=
  match s.errCode with
  | none => 0
  | some code => code.bits

/-- IRQ, the present level of the interrupt output (R115). -/
def State.irq (s : State) : Bool := (s.ieDone && s.done) || (s.ieErr && s.runState == .error)

/-- STATUS as it reads: `IRQ << 8 | ERR_CODE << 4 | DROP << 3 | DONE << 2 | STATE` (R106). -/
def State.statusWord (s : State) : Word :=
  (BitVec.ofBool s.irq ++ s.errBits ++ BitVec.ofBool s.drop ++ BitVec.ofBool s.done
    ++ s.runState.bits).setWidth 32

/-- CTRL as it reads: `IE_ERR << 2 | IE_DONE << 1` (R106). -/
def State.ctrlWord (s : State) : Word :=
  (BitVec.ofBool s.ieErr ++ BitVec.ofBool s.ieDone ++ 0#1).setWidth 32

/-- A STATUS write (R107): a 1 in bit 2 clears DONE, a 1 in bit 3 clears DROP. -/
def State.statusWrite (w : Word) (s : State) : State :=
  { s with done := s.done && !w.getLsbD 2, drop := s.drop && !w.getLsbD 3 }

/-- A CTRL write (R107): the interrupt enables, then, if SRST is 1, the reset of R123 (R109). -/
def State.ctrlWrite (w : Word) (s : State) : State :=
  let t := { s with ieDone := w.getLsbD 1, ieErr := w.getLsbD 2 }
  if w.getLsbD 0 then t.resetBlock else t

/-- OSC_CURSOR as it reads: `BITS_LEFT << 12 | CUR_BIT << 8 | CUR_BYTE` (R106). -/
def State.oscCursorWord (s : State) : Word :=
  (s.bitsLeft ++ 0#3 ++ BitVec.ofBool s.curBit ++ s.curByte).setWidth 32

/-- CAPS (R25): `zext_32(511 << 16 | STOP_LEN_V2 << 8 | STOP_LEN_V1)` (R106). -/
def capsWord : Word :=
  (BitVec.ofNat 10 (Config.pktBufSize - 1) ++ BitVec.ofNat 8 Config.stopLenV2
    ++ BitVec.ofNat 8 Config.stopLenV1).setWidth 32

/-- ID (R24). -/
def idWord : Word := 0x4C54434D

end Sys2Proof.Machine
end

