-- ==== Sys2Proof/Machine/Port.lean ====
section
/-! DEFINITION. The register port (spec/42_control.md rules R106, R107) and the moves of the agents
(spec/10_state.md rule R22). -/

namespace Sys2Proof.Machine

/-- The access reads a value that is any value while STATE = BUILD: PKT_LEN or the packet window
(R38, R45, R106). -/
def State.readIsFree (s : State) (a : Offset) : Bool :=
  match s.runState with
  | .idle => false
  | .mod => false
  | .error => false
  | .build _ =>
    match slotOf a with
    | .pktLen => true
    | .pkt _ => true
    | _ => false

/-- The word of a slot, outside the free reads (R106). -/
def State.slotRead (s : State) : Slot → Word
  | .id => idWord
  | .caps => capsWord
  | .ctrl => s.ctrlWord
  | .status => s.statusWord
  | .cmd => 0
  | .errCmd => s.errCmd
  | .version => s.ver.setWidth 32
  | .flags => (BitVec.ofBool s.osUpdate).setWidth 32
  | .sampleRate => s.sampleRate
  | .baudRate => s.baudRate
  | .fLo => s.fLo
  | .fHi => s.fHi
  | .payloadLen => s.payloadLen
  | .block => s.block.setWidth 32
  | .pktLen => s.pktLen.setWidth 32
  | .sampleCount => s.sampleCount
  | .oscCursor => s.oscCursorWord
  | .phaseLo => s.phase.extractLsb' 0 32
  | .phaseHi => s.phase.extractLsb' 32 32
  | .bfracLo => s.baudFrac.extractLsb' 0 32
  | .bfracHi => s.baudFrac.extractLsb' 32 32
  | .pkt k => windowRead s.pktBuf k
  | .reserved => 0

/-- The word a free read returns, from the next draw (log entry 7): any ten bits for PKT_LEN, whose bits
31:10 read 0 in every state (R38, U19), any 32 bits for a window word (R45). -/
def State.freeRead (s : State) (a : Offset) : Word :=
  let w := Config.freeWord s.draws (4 * wordNumber a)
  match slotOf a with
  | .pktLen => (w.extractLsb' 0 10).setWidth 32
  | _ => w

/-- `MemRead(a, 4)`: the word a register-port read of offset `a` returns (R106). -/
def regRead (a : Offset) (s : State) : Word :=
  if s.readIsFree a then s.freeRead a else s.slotRead (slotOf a)

/-- HOST reads the register port and notes the word. The block is unchanged (R64); a free read uses up its
draw. -/
def hostRead (a : Offset) (s : State) : State :=
  { s with
    readData := regRead a s
    draws := if s.readIsFree a then s.draws + 1 else s.draws }

/-- A CMD write of the word `w` (R102). -/
def cmdWrite (w : Word) (s : State) : Result :=
  match decode w with
  | .ok i => exec i s
  | .error _ => acceptIllegal w s

/-- A write to a slot other than CMD (R107). -/
def slotWrite (w : Word) (s : State) : Slot → State
  | .id => s
  | .caps => s
  | .ctrl => s.ctrlWrite w
  | .status => s.statusWrite w
  | .cmd => s
  | .errCmd => s
  | .version => s.configWrite fun s => { s with ver := w.extractLsb' 0 8 }
  | .flags => s.configWrite fun s => { s with osUpdate := w.getLsbD 0 }
  | .sampleRate => s.configWrite fun s => { s with sampleRate := w }
  | .baudRate => s.configWrite fun s => { s with baudRate := w }
  | .fLo => s.configWrite fun s => { s with fLo := w }
  | .fHi => s.configWrite fun s => { s with fHi := w }
  | .payloadLen => s.configWrite fun s => { s with payloadLen := w }
  | .block => s.configWrite fun s => { s with block := w.extractLsb' 0 24 }
  | .pktLen => s
  | .sampleCount => s
  | .oscCursor => s
  | .phaseLo => s
  | .phaseHi => s
  | .bfracLo => s
  | .bfracHi => s
  | .pkt k => s.configWrite fun s => { s with pktBuf := windowWrite s.pktBuf k w }
  | .reserved => s

/-- `MemWrite(a, 4, w)`: a register-port write (R107). -/
def regWrite (a : Offset) (w : Word) (s : State) : Result :=
  if slotOf a = .cmd then cmdWrite w s else .next (slotWrite w s (slotOf a))

/-- ENGINE's step after another agent's part of the same step. -/
def thenEngine : Result → Result
  | .next s => engineStep s
  | .fault r => .fault r
  | .refused r => .refused r

/-- HOST writes in the step in which ENGINE takes its enabled step. The write clears before the engine sets,
so that a set wins (R27); it meets the STATE of the step's start (R102); a reset leaves ENGINE no step
(R112). -/
def writeWithEngine (a : Offset) (w : Word) (s : State) : Result :=
  if s.engineEnabled then thenEngine (regWrite a w s) else regWrite a w s

/-- HOST writes the payload memory. During a build it breaks the duty of R68 (R131). -/
def payloadWrite (a : BitVec 32) (v : Byte) (s : State) : State :=
  { s with
    payload := s.payload.write a.toNat v
    payloadTorn := match s.runState with
      | .build _ => true
      | .idle => s.payloadTorn
      | .mod => s.payloadTorn
      | .error => s.payloadTorn }

/-- STATE is BUILD or MOD. -/
def State.busy (s : State) : Bool := !s.takesWrites

/-- One round of `wait_idle` (R79): a STATUS read; while STATE is BUILD or MOD, ENGINE goes on (R135) and
the host reads again. R79 does not say which agents act between two reads of the loop: that ENGINE alone
does, the moves behind the loop (SINK's and RESET's among them) waiting until it ends, is the model's choice
(DESIGN CHOICE, log entry 17). -/
def waitIdle (s : State) : Result :=
  let t := hostRead statusOffset s
  if t.busy then engineStep (t.withAgenda (.waitIdle :: t.agenda)) else .next t

/-- One round of `wait_done` (R79): a STATUS read; with DONE = 1 the write of 0x4 comes next, else ENGINE
goes on and the host reads again. That no other agent acts between two reads is the model's choice, as in
`waitIdle`; and so is what may act between the read that sees DONE = 1 and the write, of which R79 says nothing:
here no agent does, the write being the very next move (DESIGN CHOICE, log entry 17). -/
def waitDone (s : State) : Result :=
  let t := hostRead statusOffset s
  if t.done then .next (t.withAgenda (.write statusOffset 0x4 :: t.agenda))
  else engineStep (t.withAgenda (.waitDone :: t.agenda))

/-- What a move does (R22, R66), the move itself gone from the agenda. The samples of a silence do not wait
for SINK (DESIGN CHOICE, log entry 15). -/
def perform (m : Move) (s : State) : Result :=
  match m with
  | .read a => .next (hostRead a s)
  | .write a w => regWrite a w s
  | .engine => engineStep s
  | .writeWithEngine a w => writeWithEngine a w s
  | .reset => .next s.resetBlock
  | .resetWithWrite _ _ => .next s.resetBlock
  | .sink ready => .next { s with sinkReady := ready }
  | .payloadWrite a v => .next (payloadWrite a v s)
  | .silence n => .next { s with samples := List.replicate n 0 ++ s.samples }
  | .waitIdle => waitIdle s
  | .waitDone => waitDone s

end Sys2Proof.Machine
end

