-- ==== Sys2Proof/Machine/Step.lean ====
section
/-! DEFINITION. One step of the machine (spec/20_memory.md rule R66): the next move of the agenda; where
none is left, ENGINE's step (spec/70_reset_and_hazards.md rule R135). -/

namespace Sys2Proof.Machine

/-- One step. -/
def step (s : State) : Host.Outcome State Fault Refusal :=
  match s.agenda with
  | [] => engineStep s
  | m :: rest => perform m (s.withAgenda rest)

/-- `s` with the CMD write of the command whose bits are `w` as its next move (log entry 12). -/
def State.withFetchWord (s : State) (nbits w : Nat) : State :=
  s.withAgenda (.write cmdOffset (tableWord nbits w) :: s.agenda)

end Sys2Proof.Machine
end

