-- ==== Sys2Proof/Machine/HostProcedure.lean ====
section
/-! DEFINITION. Host programs as agendas: the operations and pseudo-operations of spec/30_encoding.md rules
R78, R79, and the host's reference procedure for one transmission (spec/70_reset_and_hazards.md rules R125
to R128). R5 puts that procedure outside the block; the block's own meaning uses nothing of this file. -/

namespace Sys2Proof.Machine

/-- The lowest offset of a slot (R23). -/
def offsetOf : Slot → Offset
  | .id => 0x000
  | .caps => 0x004
  | .ctrl => 0x008
  | .status => 0x00C
  | .cmd => 0x010
  | .errCmd => 0x014
  | .version => 0x018
  | .flags => 0x01C
  | .sampleRate => 0x020
  | .baudRate => 0x024
  | .fLo => 0x028
  | .fHi => 0x02C
  | .payloadLen => 0x030
  | .block => 0x034
  | .pktLen => 0x038
  | .sampleCount => 0x03C
  | .oscCursor => 0x040
  | .phaseLo => 0x044
  | .phaseHi => 0x048
  | .bfracLo => 0x04C
  | .bfracHi => 0x050
  | .pkt k => BitVec.ofNat 12 (0x400 + 4 * k.val)
  | .reserved => 0x054

/-- `wr REG, v` and `wr PKT[k], v` (R78). -/
def wr (r : Slot) (v : Word) : Move := .write (offsetOf r) v

/-- `rd REG` (R78). -/
def rd (r : Slot) : Move := .read (offsetOf r)

/-- `cmd X` (R78, R79). -/
def cmd (i : Instr) : Move := wr .cmd (encode i)

/-- `clr_flags` (R79). -/
def clrFlags : Move := wr .status 0xC

/-- `srst` (R79). -/
def srst : Move := wr .ctrl 0x1

/-- Window word k of a byte string, missing bytes 0 (R79). -/
def packedWord (bs : List Byte) (k : Nat) : Word :=
  bs.getD (4 * k + 3) 0 ++ bs.getD (4 * k + 2) 0 ++ bs.getD (4 * k + 1) 0 ++ bs.getD (4 * k) 0

/-- `ld_pkt b0 b1 ... bn` (R79). R78 bounds k at 127, and neither rule says what a list of more than 512 bytes
does: here it goes on at offset 0x400 + 4k cut to 12 bits (DESIGN CHOICE, log entry 29). -/
def ldPkt (bs : List Byte) : List Move :=
  (List.range ((bs.length + 3) / 4)).map fun k =>
    .write (BitVec.ofNat 12 (0x400 + 4 * k)) (packedWord bs k)

/-- The host's encoding rate (R127). -/
inductive EncodingRate where
  | low
  | mid
  | high
  deriving DecidableEq, Repr

/-- The sample-rate multiplier m (R127). -/
def EncodingRate.multiplier : EncodingRate → Nat
  | .low => 4
  | .mid => 2
  | .high => 1

/-- The silence divisor d (R127). -/
def EncodingRate.divisor : EncodingRate → Nat
  | .low => 4
  | .mid => 2
  | .high => 1

/-- What the host knows of a transmission (R125, R126). -/
structure Transmission where
  version : Byte
  osUpdate : Bool
  outputRate : Word
  baudRate : Word
  fLo : Word
  fHi : Word
  rate : EncodingRate
  payload : List Byte
  deriving DecidableEq, Repr

/-- The payload placed in payload memory from address 0 (R125 step 3); the address of a byte is its number
cut to 32 bits (DESIGN CHOICE, log entry 30). -/
def placePayload (bs : List Byte) : List Move :=
  bs.zipIdx.map fun b => .payloadWrite (BitVec.ofNat 32 b.2) b.1

/-- R125 steps 1 to 3, SAMPLE_RATE by R127 (log entry 27); PAYLOAD_LEN is the length cut to 32 bits (DESIGN
CHOICE, log entry 30). R125 lets the steps come in any order among themselves: the one order here, VERSION,
FLAGS, SAMPLE_RATE, BAUD_RATE, F_LO, F_HI, the payload bytes from address 0 up, PAYLOAD_LEN, is the model's
choice, and so is that the optional steps 4 and 6 are left out (DESIGN CHOICE, log entry 32). -/
def Transmission.configure (c : Transmission) : List Move :=
  [wr .version (c.version.setWidth 32), wr .flags (BitVec.ofBool c.osUpdate |>.setWidth 32),
    wr .sampleRate (c.outputRate * BitVec.ofNat 32 c.rate.multiplier), wr .baudRate c.baudRate,
    wr .fLo c.fLo, wr .fHi c.fHi]
  ++ placePayload c.payload ++ [wr .payloadLen (BitVec.ofNat 32 c.payload.length)]

/-- The number of silence samples for `ms / d` milliseconds: `ms / d` times SILENCE_RATE (R126, R136), a whole
number next to it where that is none (log entry 15). `d` divides the duration (C6). -/
def silenceSamples (ms d : Nat) : Nat :=
  let p := ms * Config.silenceRateNumerator
  let q := d * Config.silenceRateDenominator
  p / q + if p % q = 0 then 0 else (Config.silenceRoundsUp p q).toNat

/-- `silence(t / d)` (R126). -/
def Transmission.silence (c : Transmission) (ms : Nat) : Move :=
  .silence (silenceSamples ms c.rate.divisor)

/-- The pilot: 500 zero bytes, at the Low rate only (R128). -/
def Transmission.pilot (c : Transmission) : List Move :=
  match c.rate with
  | .low => ldPkt (List.replicate 500 0) ++ [cmd (.modBuf 500), .waitIdle]
  | .mid => []
  | .high => []

/-- A framer command, then MOD_PKT, each waited for (R126, R129). -/
def sendPacket (framer : Instr) : List Move := [cmd framer, .waitIdle, cmd .modPkt, .waitIdle]

/-- The number of data blocks, under HOST_BLOCK_CAP (R126). -/
def Transmission.blocks (c : Transmission) : Nat :=
  let n := (c.payload.length + 255) / 256
  if Config.hostBlockCap then min n 256 else n

/-- The reference procedure (R126), HOST's moves alone: a run in which another agent acts between two of them
is an agenda with that agent's moves put in (log entry 31). The number of a block is cut to 32 bits by its write and to 24 by BLOCK
(R37; DESIGN CHOICE, log entry 30). -/
def Transmission.moves (c : Transmission) : List Move :=
  c.configure ++ [cmd .oscReset] ++ c.pilot
  ++ [c.silence 250] ++ sendPacket .buildCtrl
  ++ [c.silence 100] ++ sendPacket .buildCtrl
  ++ [c.silence 500]
  ++ (List.range c.blocks).flatMap (fun b =>
      wr .block (BitVec.ofNat 32 b) :: sendPacket .buildData ++ [c.silence 80])
  ++ [c.silence 500]

/-- The procedure run `repeat_count` times in a row (R126); the pilot comes before each pass (C8). -/
def Transmission.repeated (c : Transmission) (repeatCount : Nat) : List Move :=
  (List.replicate repeatCount c.moves).flatten

end Sys2Proof.Machine
end

