-- ==== Sys2Proof/Safety.lean ====
section
/-! DEFINITION. What claims about LTCMOD are stated in: which state stays as it was, and the invariants the
rules keep (spec/10_state.md rule R49, spec/41_modulator.md rule R99). -/

namespace Sys2Proof.Machine

/-- The configuration registers are the same (R23 "RW (config)"). -/
structure SameConfig (s t : State) : Prop where
  ver : t.ver = s.ver
  osUpdate : t.osUpdate = s.osUpdate
  sampleRate : t.sampleRate = s.sampleRate
  baudRate : t.baudRate = s.baudRate
  fLo : t.fLo = s.fLo
  fHi : t.fHi = s.fHi
  payloadLen : t.payloadLen = s.payloadLen
  block : t.block = s.block

/-- The interrupt enables are the same (R26). -/
structure SameEnables (s t : State) : Prop where
  ieDone : t.ieDone = s.ieDone
  ieErr : t.ieErr = s.ieErr

/-- The oscillator registers and SAMPLE_COUNT are the same (R39, R46). -/
structure SameOscillator (s t : State) : Prop where
  phase : t.phase = s.phase
  baudFrac : t.baudFrac = s.baudFrac
  curByte : t.curByte = s.curByte
  curBit : t.curBit = s.curBit
  bitsLeft : t.bitsLeft = s.bitsLeft
  sampleCount : t.sampleCount = s.sampleCount

/-- The latched increments and the input cursor are the same (R47, R48). -/
structure SameCursor (s t : State) : Prop where
  omegaLo : t.omegaLo = s.omegaLo
  omegaHi : t.omegaHi = s.omegaHi
  baudInc : t.baudInc = s.baudInc
  modN : t.modN = s.modN
  pos : t.pos = s.pos

/-- Every packet-buffer byte reads as before, and PKT_LEN is the same (R38, R45). -/
structure SamePacket (s t : State) : Prop where
  bytes : ∀ i, t.pktRead i = s.pktRead i
  pktLen : t.pktLen = s.pktLen

/-- What stands outside the block is the same: every payload byte, SINK and what it received, HOST's noted
word and moves, the draws. -/
structure SameOutside (s t : State) : Prop where
  payload : ∀ a, t.payload.read a = s.payload.read a
  payloadTorn : t.payloadTorn = s.payloadTorn
  sinkReady : t.sinkReady = s.sinkReady
  samples : t.samples = s.samples
  readData : t.readData = s.readData
  draws : t.draws = s.draws
  agenda : t.agenda = s.agenda

/-- The invariants of R49 on the registers, the cursor and the length; the error registers of R29 and R110;
the canonical form of the payload memory. -/
structure State.Inv (s : State) : Prop where
  quiet : s.runState ≠ .mod → s.bitsLeft = 0
  sending : s.runState = .mod → 1 ≤ s.bitsLeft.toNat ∧ s.bitsLeft.toNat ≤ 8
    ∧ s.curBit = s.curByte.getLsbD (8 - s.bitsLeft.toNat)
  cursor : s.pos ≤ s.modN ∧ s.modN ≤ 512
  length : s.pktLen = 0 ∨ ∃ v : Byte, (v = 1 ∨ v = 2)
    ∧ (s.pktLen.toNat = 39 + stopLen v ∨ s.pktLen.toNat = 271 + stopLen v)
  building : ∀ kind, s.runState = .build kind → s.versionLegal = true
  errorCode : s.errCode = none ↔ s.runState ≠ .error
  errorWord : s.runState ≠ .error → s.errCmd = 0
  memory : s.payload.wf = true
  torn : s.payloadTorn = true → ∃ kind, s.runState = .build kind

/-- The encoding of 2^88, which no PHASE passes: there the largest increment is half a unit in the last
place, and rounds to nothing. -/
def phaseCeiling : Nat := 0x4570000000000000

/-- The encoding of 2^35, which no angular increment reaches: 2π × (2^32 − 1) < 2^35. -/
def omegaCeiling : Nat := 0x4220000000000000

/-- The encoding of 2^-32, below every legal BAUD_INC: 1 / (2^32 − 1) > 2^-32. -/
def baudIncFloor : Nat := 0x3DF0000000000000

/-- The numeric invariants of R49 and R99, said of the encodings: the encodings from +0.0 up to that of a
positive value v are exactly those of the values from +0.0 to v, in order. -/
structure State.NumInv (s : State) : Prop where
  baudFrac : s.baudFrac.toNat ≤ F64.one.toNat
  phase : s.phase.toNat ≤ phaseCeiling
  omegaLo : s.omegaLo.toNat ≤ omegaCeiling
  omegaHi : s.omegaHi.toNat ≤ omegaCeiling
  baudInc : s.baudInc.toNat < F64.one.toNat
  baudIncLow : s.runState = .mod → baudIncFloor ≤ s.baudInc.toNat

/-- `x` is the exact `p / q` units of 2^-1074, negative if `neg`, rounded once (R9). -/
def F64.IsRounding (x : F64) (neg : Bool) (p q : Nat) : Prop :=
  F64.sign x = neg ∧ (x.extractLsb' 0 63).toNat = F64.roundBits p q

/-- The move resets the block: the reset input, or a CTRL write with SRST = 1 (R123). -/
def Move.resets : Move → Bool
  | .read _ => false
  | .write a w => slotOf a == .ctrl && w.getLsbD 0
  | .engine => false
  | .writeWithEngine a w => slotOf a == .ctrl && w.getLsbD 0
  | .reset => true
  | .resetWithWrite _ _ => true
  | .sink _ => false
  | .payloadWrite _ _ => false
  | .silence _ => false
  | .waitIdle => false
  | .waitDone => false

/-- The step about to be taken resets the block. -/
def State.resetsNext (s : State) : Bool :=
  match s.agenda with
  | [] => false
  | m :: _ => m.resets

/-- The write, if any, that HOST makes in the step about to be taken. -/
def State.hostWrites (s : State) (slot : Slot) (w : Word) : Prop :=
  ∃ a rest, slotOf a = slot
    ∧ (s.agenda = .write a w :: rest ∨ s.agenda = .writeWithEngine a w :: rest)

/-- No move is to come and SINK is ready: what follows is ENGINE's alone (R135). -/
def State.engineAlone (s : State) : Bool := s.agenda == [] && s.sinkReady

/-- The bytes a running modulator command still has to send are the packet-buffer bytes `bytes`. -/
def State.toSend (s : State) : List Byte := (s.pktBuf.toList.drop s.pos).take (s.modN - s.pos)

end Sys2Proof.Machine
end

