-- ==== Sys2Proof/Certificates/Slice0/Obligations.lean ====
section
/-! DEFINITION. The statements for the provers. Each cites the rule of spec/ it says something of;
OBLIGATIONS.json lists them. -/

open Sys2Proof Sys2Proof.Machine

section Encoding

/-- Decode and encode agree (R71 to R74): every well-formed command, MOD_BUF with every LEN from 0 to 1023. -/
def Obligations.DecodingAnEncodedCommandGivesItBack : Prop :=
  ∀ i : Instr, i.wellFormed = true → decode (encode i) = .ok i

/-- Every word that decodes is the command word of what it decodes to (R77: one word, one form). -/
def Obligations.EncodingADecodedWordGivesItBack : Prop :=
  ∀ (w : Word) (i : Instr), decode w = .ok i → i.wellFormed = true ∧ encode i = w

/-- The table of R74, row by row; a word matching no row is illegal. -/
def Obligations.DecoderFollowsTheTable : Prop :=
  ∀ w : Word,
    (decode w = .ok .nop ↔ w &&& 0xFFFFFFFF = 0x00000000)
    ∧ (decode w = .ok .buildCtrl ↔ w &&& 0xFFFFFFFF = 0x00000001)
    ∧ (decode w = .ok .buildData ↔ w &&& 0xFFFFFFFF = 0x00000002)
    ∧ (∀ n, decode w = .ok (.modBuf n)
        ↔ w &&& 0xFFFC00FF = 0x00000003 ∧ n = w.toNat / 2 ^ 8 % 2 ^ 10)
    ∧ (decode w = .ok .modPkt ↔ w &&& 0xFFFFFFFF = 0x00000004)
    ∧ (decode w = .ok .oscReset ↔ w &&& 0xFFFFFFFF = 0x00000005)
    ∧ ((∃ e, decode w = .error e) ↔
        w &&& 0xFFFFFFFF ≠ 0x00000000 ∧ w &&& 0xFFFFFFFF ≠ 0x00000001
        ∧ w &&& 0xFFFFFFFF ≠ 0x00000002 ∧ w &&& 0xFFFC00FF ≠ 0x00000003
        ∧ w &&& 0xFFFFFFFF ≠ 0x00000004 ∧ w &&& 0xFFFFFFFF ≠ 0x00000005)

/-- R75: which words are illegal, what an illegal word does in IDLE, and what a legal MOD_BUF with
LEN > 512 does there. Bits 7:0 are OP, bits 17:8 LEN, bits 31:18 RSVD. -/
def Obligations.IllegalWordsAreThoseOfTheRuleAndRaiseIllegalCmd : Prop :=
  ∀ (w : Word) (s : State),
    ((∃ e, decode w = .error e) ↔
      6 ≤ w.toNat % 2 ^ 8 ∨ w.toNat / 2 ^ 18 ≠ 0
      ∨ (w.toNat / 2 ^ 8 % 2 ^ 10 ≠ 0 ∧ w.toNat % 2 ^ 8 ≠ 3))
    ∧ ((∃ e, decode w = .error e) → s.runState = .idle →
        cmdWrite w s = .next { s with
          runState := .error, errCode := some .illegalCmd, errCmd := w })
    ∧ (w.toNat % 2 ^ 8 = 3 → w.toNat / 2 ^ 18 = 0 → 512 < w.toNat / 2 ^ 8 % 2 ^ 10 →
        s.runState = .idle →
        cmdWrite w s = .next { s with
          runState := .error, errCode := some .lenRange, errCmd := w })

/-- Words written out from R73 and R78 decode to the commands they stand for, and words of R75 to none. -/
def Obligations.CommandWordsOfTheSpecDecode : Prop :=
  decode 0x00000000 = .ok .nop
  ∧ decode 0x00000001 = .ok .buildCtrl
  ∧ decode 0x00000002 = .ok .buildData
  ∧ decode 0x00000103 = .ok (.modBuf 1)
  ∧ decode 0x00020003 = .ok (.modBuf 512)
  ∧ decode 0x0003FF03 = .ok (.modBuf 1023)
  ∧ decode 0x00000004 = .ok .modPkt
  ∧ decode 0x00000005 = .ok .oscReset
  ∧ decode 0x00000006 = .error .opcode
  ∧ decode 0x00040003 = .error .reserved
  ∧ decode 0x00000101 = .error .length

end Encoding

section Step

/-- A step runs the decoded command: when the next move writes a word to CMD and the word decodes, the step
is exec of the command, the move gone from the agenda; so it is for a command word placed by withFetchWord.
And every other move that is no read, payload write or reset (those have statements of their own) is
performed: HOST's write is regWrite, ENGINE's move engineStep, a joint move the one and then the other. The
agenda of moves to come, the joint moves, the wait moves, silence and withFetchWord are the model's own (log
entries 9, 10, 12, 15, 16, 17). -/
def Obligations.StepRunsTheDecodedCommand : Prop :=
  (∀ (s : State) (a : Offset) (w : Word) (rest : List Move) (i : Instr),
    s.agenda = .write a w :: rest → slotOf a = .cmd → decode w = .ok i →
    step s = exec i { s with agenda := rest })
  ∧ (∀ (s : State) (i : Instr), i.wellFormed = true →
    step (s.withFetchWord 32 (encode i).toNat) = exec i s)
  ∧ (∀ (s : State) (rest : List Move),
    let u : State := { s with agenda := rest }
    let noted (ms : List Move) : State := { s with readData := regRead 0x00C s, agenda := ms }
    (∀ a w, s.agenda = .write a w :: rest → step s = regWrite a w u)
    ∧ (s.agenda = .engine :: rest → step s = engineStep u)
    ∧ (∀ a w, s.agenda = .writeWithEngine a w :: rest →
        (s.engineEnabled = false → step s = regWrite a w u)
        ∧ (s.engineEnabled = true → ∀ v, regWrite a w u = .next v → step s = engineStep v))
    ∧ (∀ ready, s.agenda = .sink ready :: rest → step s = .next { u with sinkReady := ready })
    ∧ (∀ n, s.agenda = .silence n :: rest →
        step s = .next { u with samples := List.replicate n 0 ++ s.samples })
    ∧ (s.agenda = .waitIdle :: rest →
        ((∃ kind, s.runState = .build kind) ∨ s.runState = .mod →
          step s = engineStep (noted (.waitIdle :: rest)))
        ∧ (s.runState = .idle ∨ s.runState = .error → step s = .next (noted rest)))
    ∧ (s.agenda = .waitDone :: rest →
        (s.done = false → step s = engineStep (noted (.waitDone :: rest)))
        ∧ (s.done = true → step s = .next (noted (.write 0x00C 0x4 :: rest)))))

/-- With no move to come the step is ENGINE's: nothing in IDLE and ERROR, and nothing in MOD while SINK is
not ready (R57, R103, R122). That ENGINE steps when no move is left is the model's choice (log entry 9). -/
def Obligations.WithNoMoveToComeOnlyTheEngineSteps : Prop :=
  ∀ s : State, s.agenda = [] →
    step s = engineStep s
    ∧ (s.runState = .idle ∨ s.runState = .error → step s = .next s)
    ∧ (s.runState = .mod → s.sinkReady = false → step s = .next s)

/-- R102 for BUILD, MOD and ERROR, for every word, legal or not. -/
def Obligations.CmdWritesOutsideIdleAreDroppedOrIgnored : Prop :=
  ∀ (w : Word) (s : State),
    ((∃ kind, s.runState = .build kind) ∨ s.runState = .mod →
      cmdWrite w s = .next { s with drop := true })
    ∧ (s.runState = .error → cmdWrite w s = .next s)

end Step

section Commands

/-- NOP in every state (R105). -/
def Obligations.NopCompletesAtOnce : Prop :=
  encode .nop = 0x00000000
  ∧ ∀ s : State,
    (s.runState = .idle → exec .nop s = .next { s with runState := .idle, done := true })
    ∧ ((∃ kind, s.runState = .build kind) ∨ s.runState = .mod →
        exec .nop s = .next { s with drop := true })
    ∧ (s.runState = .error → exec .nop s = .next s)

/-- OSC_RESET (R98): its command word, and in IDLE its whole effect: the oscillator registers and
SAMPLE_COUNT, DONE, and nothing else. -/
def Obligations.OscResetRestartsTheOscillator : Prop :=
  encode .oscReset = 0x00000005
  ∧ ∀ s : State, s.runState = .idle →
    exec .oscReset s = .next { s with
      phase := 0, baudFrac := 0, curByte := 0, curBit := false, bitsLeft := 0, sampleCount := 0
      runState := .idle, done := true }

/-- A framer command is accepted with VERSION 1 or 2: STATE <- BUILD, nothing else (R89, R90, R103). -/
def Obligations.FramerCommandsStartABuild : Prop :=
  ∀ s : State, s.runState = .idle → s.ver = 1 ∨ s.ver = 2 →
    exec .buildCtrl s = .next { s with runState := .build .control }
    ∧ exec .buildData s = .next { s with runState := .build .data }

/-- A framer command with any other VERSION raises CFG_VERSION and changes nothing else (R89, R90, R111),
whatever the rates are (R112). -/
def Obligations.FramerCommandsRejectAnIllegalVersion : Prop :=
  ∀ s : State, s.runState = .idle → s.ver ≠ 1 → s.ver ≠ 2 →
    exec .buildCtrl s = .next { s with
      runState := .error, errCode := some .cfgVersion, errCmd := 0x00000001 }
    ∧ exec .buildData s = .next { s with
      runState := .error, errCode := some .cfgVersion, errCmd := 0x00000002 }

/-- A modulator command with at least one byte and legal rates, no bit in progress (R49): the increments are
latched, byte 0 is loaded, its bit 0 is the bit being sent, STATE <- MOD; PHASE, BAUD_FRAC, SAMPLE_COUNT and
all else stay (R92, R93, R96, R97). -/
def Obligations.ModulatorCommandsStartSending : Prop :=
  ∀ s : State, s.runState = .idle → s.bitsLeft = 0 →
    0 < s.baudRate.toNat → s.baudRate.toNat < s.sampleRate.toNat →
    let started (n : Nat) : State := { s with
      runState := .mod
      omegaLo := F64.div (F64.mul Config.twoPi (F64.ofNat s.fLo.toNat)) (F64.ofNat s.sampleRate.toNat)
      omegaHi := F64.div (F64.mul Config.twoPi (F64.ofNat s.fHi.toNat)) (F64.ofNat s.sampleRate.toNat)
      baudInc := F64.div (F64.ofNat s.baudRate.toNat) (F64.ofNat s.sampleRate.toNat)
      modN := n, pos := 1
      curByte := s.pktBuf[0], curBit := s.pktBuf[0].getLsbD 0, bitsLeft := 8 }
    (∀ len, 1 ≤ len → len ≤ 512 → exec (.modBuf len) s = .next (started len))
    ∧ (1 ≤ s.pktLen.toNat → exec .modPkt s = .next (started s.pktLen.toNat))

/-- A modulator command with no byte completes at once: no sample, no oscillator register changed; only the
hidden increments and cursor of the command are written (R93, R96, R97). -/
def Obligations.EmptyModulatorCommandsCompleteAtOnce : Prop :=
  ∀ s : State, s.runState = .idle → s.bitsLeft = 0 →
    0 < s.baudRate.toNat → s.baudRate.toNat < s.sampleRate.toNat →
    let finished : State := { s with
      runState := .idle, done := true
      omegaLo := F64.div (F64.mul Config.twoPi (F64.ofNat s.fLo.toNat)) (F64.ofNat s.sampleRate.toNat)
      omegaHi := F64.div (F64.mul Config.twoPi (F64.ofNat s.fHi.toNat)) (F64.ofNat s.sampleRate.toNat)
      baudInc := F64.div (F64.ofNat s.baudRate.toNat) (F64.ofNat s.sampleRate.toNat)
      modN := 0, pos := 0 }
    exec (.modBuf 0) s = .next finished
    ∧ (s.pktLen = 0 → exec .modPkt s = .next finished)

/-- A modulator command with illegal rates raises CFG_NUMERIC and changes nothing else, whatever VERSION is
(R93, R111, R112); MOD_BUF so only with LEN ≤ 512. -/
def Obligations.ModulatorCommandsRejectIllegalRates : Prop :=
  ∀ s : State, s.runState = .idle →
    s.sampleRate = 0 ∨ s.baudRate = 0 ∨ s.sampleRate.toNat ≤ s.baudRate.toNat →
    (∀ len, len ≤ 512 → exec (.modBuf len) s = .next { s with
      runState := .error, errCode := some .cfgNumeric
      errCmd := BitVec.ofNat 32 (len * 256 + 3) })
    ∧ exec .modPkt s = .next { s with
      runState := .error, errCode := some .cfgNumeric, errCmd := 0x00000004 }

/-- MOD_BUF with LEN from 513 to 1023 raises LEN_RANGE and changes nothing else, whatever the rates are
(R96, R111, R112). -/
def Obligations.ModBufRejectsALengthAboveTheBuffer : Prop :=
  ∀ (s : State) (len : Nat), s.runState = .idle → 512 < len → len < 1024 →
    exec (.modBuf len) s = .next { s with
      runState := .error, errCode := some .lenRange
      errCmd := BitVec.ofNat 32 (len * 256 + 3) }

/-- Every command has a meaning in every state: exec always answers a next state (R75, R102). -/
def Obligations.EveryCommandAnswersANextState : Prop :=
  ∀ (i : Instr) (s : State), ∃ t, exec i s = .next t

/-- The frame of all six commands at their acceptance: no configuration register, no interrupt enable, no
packet-buffer byte, not PKT_LEN, nothing outside the block changes. -/
def Obligations.CommandsLeaveConfigurationPacketAndOutsideUnchanged : Prop :=
  ∀ (i : Instr) (s t : State), exec i s = .next t →
    SameConfig s t ∧ SameEnables s t ∧ SamePacket s t ∧ SameOutside s t

/-- The frames of the single commands at their acceptance, on the oscillator, the cursor and the flags. -/
def Obligations.CommandsLeaveTheirOscillatorFrameUnchanged : Prop :=
  ∀ s t : State,
    ((exec .nop s = .next t ∨ exec .buildCtrl s = .next t ∨ exec .buildData s = .next t) →
      SameOscillator s t ∧ SameCursor s t)
    ∧ (exec .oscReset s = .next t → SameCursor s t)
    ∧ (∀ len, exec (.modBuf len) s = .next t ∨ exec .modPkt s = .next t →
        t.phase = s.phase ∧ t.baudFrac = s.baudFrac ∧ t.sampleCount = s.sampleCount)
    ∧ (∀ i, exec i s = .next t → s.runState = .idle → t.drop = s.drop)
    ∧ (∀ i, exec i s = .next t → t.runState = .error → t.done = s.done)

/-- R111, with the codes of R110 in the order of R112: a CMD write, of a legal word or an illegal one, that
puts STATE at ERROR writes STATE, ERR_CODE and ERR_CMD, the last with the word written, and nothing else. -/
def Obligations.ErrorEntryChangesNothingElse : Prop :=
  ∀ (w : Word) (s t : State), s.runState ≠ .error → cmdWrite w s = .next t → t.runState = .error →
    ∃ code : ErrorCode, t = { s with runState := .error, errCode := some code, errCmd := w }
      ∧ ((∃ e, decode w = .error e) → code = .illegalCmd)
      ∧ (∀ n, decode w = .ok (.modBuf n) → code = if 512 < n then .lenRange else .cfgNumeric)
      ∧ (decode w = .ok .buildCtrl ∨ decode w = .ok .buildData → code = .cfgVersion)
      ∧ (decode w = .ok .modPkt → code = .cfgNumeric)
      ∧ decode w ≠ .ok .nop ∧ decode w ≠ .ok .oscReset

end Commands

section Framer

/-- The build step of BUILD_CTRL (R89): the control packet at index 0, the bytes beyond it as they were,
PKT_LEN, completion; the rest of the block and the outside as they were. -/
def Obligations.BuildStepWritesTheControlPacket : Prop :=
  ∀ s : State, s.runState = .build .control →
    ∃ t, engineStep s = .next t
      ∧ t.runState = .idle ∧ t.done = true
      ∧ t.pktLen.toNat = 39 + stopLen s.ver
      ∧ (∀ i, i < 39 + stopLen s.ver → t.pktRead i = s.controlPacket[i]?)
      ∧ (∀ i, 39 + stopLen s.ver ≤ i → t.pktRead i = s.pktRead i)
      ∧ SameConfig s t ∧ SameEnables s t ∧ SameOscillator s t ∧ SameCursor s t
      ∧ t.drop = s.drop ∧ t.errCode = s.errCode ∧ t.errCmd = s.errCmd
      ∧ t.payload = s.payload ∧ t.samples = s.samples ∧ t.agenda = s.agenda

/-- The build step of BUILD_DATA (R90), likewise, with the striped data packet. -/
def Obligations.BuildStepWritesTheDataPacket : Prop :=
  ∀ s : State, s.runState = .build .data →
    ∃ t, engineStep s = .next t
      ∧ t.runState = .idle ∧ t.done = true
      ∧ t.pktLen.toNat = 271 + stopLen s.ver
      ∧ (∀ i, i < 271 + stopLen s.ver →
          t.pktRead i = (if s.ver = 1 then stripe1 s.plainDataPacket else stripe2 s.plainDataPacket)[i]?)
      ∧ (∀ i, 271 + stopLen s.ver ≤ i → t.pktRead i = s.pktRead i)
      ∧ SameConfig s t ∧ SameEnables s t ∧ SameOscillator s t ∧ SameCursor s t
      ∧ t.drop = s.drop ∧ t.errCode = s.errCode ∧ t.errCmd = s.errCmd
      ∧ t.payload = s.payload ∧ t.samples = s.samples ∧ t.agenda = s.agenda

/-- The two tables of R83, range by range, with S = STOP_LEN(v); the data packet before striping. The payload
that is hashed and digested is payload bytes 0 to PAYLOAD_LEN − 1, in increasing order (R89). -/
def Obligations.PacketLayoutsAreThoseOfTheTables : Prop :=
  ∀ s : State,
    let S := if s.ver = 1 then Config.stopLenV1 else Config.stopLenV2
    let ctl := s.controlPacket
    let dat := s.plainDataPacket
    (s.ver = 1 ∨ s.ver = 2 → ctl.length = 39 + S ∧ dat.length = 271 + S
      ∧ ctl.take 7 = [0x00, 0x00, 0x00, 0x00, 0xAA, 0x55, 0x42]
      ∧ ctl[7]? = some s.ver
      ∧ ctl[8]? = some (if s.osUpdate then 3 else 1)
      ∧ ctl[9]? = some 0x00 ∧ ctl[10]? = some 0x00
      ∧ (ctl.drop 11).take 4 = le32 s.payloadLen
      ∧ (ctl.drop 15).take 4 = le32 (Config.h32 0x32D0BABE s.payloadBytes)
      ∧ (ctl.drop 19).take 16 = (Config.d128 s.payloadBytes).toList
      ∧ (ctl.drop 35).take 4 = le32 (Config.h32 0xDEADBEEF ((ctl.drop 7).take 28))
      ∧ ctl.drop 39 = List.replicate S 0xFF
      ∧ dat.take 7 = [0x00, 0x00, 0x00, 0x00, 0xAA, 0x55, 0x42]
      ∧ dat[7]? = some s.ver
      ∧ dat[8]? = some (if s.osUpdate then 4 else 2)
      ∧ dat[9]? = some (BitVec.ofNat 8 (s.block.toNat % 256)) ∧ dat[10]? = some 0x00
      ∧ (dat.drop 11).take 256 = s.dataBody
      ∧ (dat.drop 267).take 4 = le32 (Config.h32 0xDEADBEEF ((dat.drop 7).take 260))
      ∧ dat.drop 271 = List.replicate S 0xFF)
    ∧ s.payloadBytes.length = s.payloadLen.toNat
    ∧ (∀ i, i < s.payloadLen.toNat → s.payloadBytes[i]? = some (s.payRead i))

/-- The data body (R86); while the host keeps the duty of R68, PayRead reads the payload memory (R55). -/
def Obligations.DataBodyIsTheSlicePaddedWithFF : Prop :=
  ∀ s : State,
    s.dataBody.length = 256
    ∧ (∀ j, j < 256 → s.block.toNat * 256 + j < 2 ^ 32
        ∧ s.dataBody[j]? = some (if s.block.toNat * 256 + j < s.payloadLen.toNat
          then s.payRead (s.block.toNat * 256 + j) else 0xFF))
    ∧ (s.payloadTorn = false → ∀ a, s.payRead a = s.payload.read a)

/-- STRIPE1 (R87), on every byte string that holds the whole body: the bytes it changes and by what. -/
def Obligations.Stripe1ActsOnTheBodyOnly : Prop :=
  ∀ (p : List Byte), 267 ≤ p.length →
    (stripe1 p).length = p.length
    ∧ (∀ i, i < 256 → (stripe1 p)[11 + i]? = p[11 + i]?.map fun b =>
        if i % 16 = 3 then b ^^^ 0x55 else if i % 16 = 11 then b ^^^ 0xAA else b)
    ∧ (∀ q, q < 11 ∨ 267 ≤ q → (stripe1 p)[q]? = p[q]?)

/-- STRIPE2 (R88), on a packet of length L = 271 + S, for the range of the rule as it writes it. -/
def Obligations.Stripe2ActsFromByteNineToTheFooter : Prop :=
  ∀ (p : List Byte) (S : Nat), p.length = 271 + S →
    (stripe2 p).length = p.length
    ∧ (∀ q, 9 ≤ q → q < p.length - (4 + S) → (stripe2 p)[q]? = p[q]?.map fun b =>
        b ^^^ ([0x35, 0xAC, 0x95] : List Byte).getD ((q - 9 + 2) % 3) 0)
    ∧ (∀ q, q < 9 ∨ p.length - (4 + S) ≤ q → (stripe2 p)[q]? = p[q]?)

/-- Striping twice is the identity, on every byte string (R91). -/
def Obligations.StripingTwiceIsTheIdentity : Prop :=
  ∀ p : List Byte, stripe1 (stripe1 p) = p ∧ stripe2 (stripe2 p) = p

/-- The footer verifies (R91): in the packet buffer after a build step, the control packet's footer is the
hash of its bytes 7 to 34, and the data packet's footer, as it stands in the buffer, is the hash of bytes 7
to 266 of the packet striped once more. -/
def Obligations.FootersVerifyInThePacketBuffer : Prop :=
  ∀ s t : State,
    (s.runState = .build .control → engineStep s = .next t →
      let p := t.pktBuf.toList.take t.pktLen.toNat
      (p.drop 35).take 4 = le32 (Config.h32 0xDEADBEEF ((p.drop 7).take 28)))
    ∧ (s.runState = .build .data → engineStep s = .next t →
      let p := t.pktBuf.toList.take t.pktLen.toNat
      (p.drop 267).take 4 = le32 (Config.h32 0xDEADBEEF (((stripe s.ver p).drop 7).take 260)))

/-- No framer command reads payload memory at or above PAYLOAD_LEN (R55, R91): the packets of two states
that differ only there are the same. -/
def Obligations.PayloadBeyondItsLengthDoesNotMatter : Prop :=
  ∀ (s : State) (m : Memory) (kind : PacketKind),
    (∀ a, a < s.payloadLen.toNat → m.read a = s.payload.read a) →
    ({ s with payload := m } : State).packetOf kind = s.packetOf kind

end Framer

section Modulator

/-- The sample step (R94, R95): STATE = MOD, SINK ready, a bit in progress. The four ways it ends: the bit
goes on; the next bit of the byte; the next byte; completion. -/
def Obligations.SampleStepFollowsTheRule : Prop :=
  ∀ s : State, s.runState = .mod → s.sinkReady = true →
    1 ≤ s.bitsLeft.toNat → s.bitsLeft.toNat ≤ 8 →
    let frac := F64.add s.baudFrac s.baudInc
    let u : State := { s with
      samples := F64.cosine s.phase :: s.samples
      sampleCount := s.sampleCount + 1
      phase := F64.add s.phase (if s.curBit then s.omegaHi else s.omegaLo)
      baudFrac := frac }
    let v : State := { u with
      baudFrac := F64.sub frac F64.one
      bitsLeft := s.bitsLeft - 1 }
    (F64.gt frac F64.one = false → engineStep s = .next u)
    ∧ (F64.gt frac F64.one = true → s.bitsLeft ≠ 1 →
        engineStep s = .next { v with curBit := s.curByte.getLsbD (8 - (s.bitsLeft.toNat - 1)) })
    ∧ (F64.gt frac F64.one = true → s.bitsLeft = 1 → s.pos ≠ s.modN →
        ∀ b, s.pktRead s.pos = some b →
        engineStep s = .next { v with
          curByte := b, pos := s.pos + 1, bitsLeft := 8, curBit := b.getLsbD 0 })
    ∧ (F64.gt frac F64.one = true → s.bitsLeft = 1 → s.pos = s.modN →
        engineStep s = .next { v with runState := .idle, done := true })

/-- Every step of the machine only adds to what SINK has received (R57, R124): no sample is dropped or
reordered. But for the host's silence (log entry 15), whichever move the step performs, it adds nothing, or in
MOD the one sample COS(PHASE), which lies in [−1.0, 1.0] when PHASE is finite. -/
def Obligations.SamplesAreOnlyAppendedAndInRange : Prop :=
  ∀ s t : State, step s = .next t →
    (∃ new, t.samples = new ++ s.samples)
    ∧ ((∀ n rest, s.agenda ≠ .silence n :: rest) → t.samples = s.samples
        ∨ (s.runState = .mod ∧ t.samples = F64.cosine s.phase :: s.samples
          ∧ (F64.isFinite s.phase = true → F64.inUnitRange (F64.cosine s.phase) = true)))

/-- Phase continuity at a command's end (R100): where a command over A ++ B goes from A's last byte to B's
first, ending the command there and starting MOD_BUF over B (the same rates, B's first byte at index 0 of the
buffer) gives the same oscillator registers, increments and samples; and, where the buffer holds all of B from
index 0, the same bytes left to send, so that by SamplesDependOnlyOnTheOscillatorAndTheBytesLeft the two go on
as one. -/
def Obligations.TwoCommandsContinueAsOne : Prop :=
  ∀ (s : State) (buf : Vector Byte 512) (n : Nat),
    s.runState = .mod → s.sinkReady = true → s.bitsLeft = 1 →
    F64.gt (F64.add s.baudFrac s.baudInc) F64.one = true →
    s.pos ≠ s.modN → s.pktRead s.pos = some buf[0] →
    0 < s.baudRate.toNat → s.baudRate.toNat < s.sampleRate.toNat →
    s.omegaLo = omega s.fLo s.sampleRate → s.omegaHi = omega s.fHi s.sampleRate →
    s.baudInc = baudIncrement s.baudRate s.sampleRate →
    1 ≤ n → n ≤ 512 →
    ∃ whole endA startB,
      engineStep s = .next whole
      ∧ engineStep { s with modN := s.pos } = .next endA ∧ endA.runState = .idle
      ∧ exec (.modBuf n) { endA with pktBuf := buf } = .next startB
      ∧ SameOscillator whole startB ∧ startB.samples = whole.samples
      ∧ startB.runState = .mod ∧ whole.runState = .mod
      ∧ startB.omegaLo = whole.omegaLo ∧ startB.omegaHi = whole.omegaHi
      ∧ startB.baudInc = whole.baudInc
      ∧ (n = s.modN - s.pos → (∀ i, i < n → buf.toList[i]? = s.pktRead (s.pos + i)) →
          startB.toSend = whole.toSend)

/-- What a running modulator command sends depends only on the oscillator, the increments and the bytes
still to send (R100): two runs that agree in these emit the same samples, step by step, and agree for ever,
whatever else their states hold. -/
def Obligations.SamplesDependOnlyOnTheOscillatorAndTheBytesLeft : Prop :=
  ∀ (k : Nat) (s t : State), s.Inv → t.Inv →
    s.runState = .mod → t.runState = .mod →
    s.engineAlone = true → t.engineAlone = true →
    SameOscillator s t → s.omegaLo = t.omegaLo → s.omegaHi = t.omegaHi → s.baudInc = t.baudInc →
    s.toSend = t.toSend →
    ∃ s' t' new,
      Host.Core.run Sys2Proof.core k s = .next s' ∧ Host.Core.run Sys2Proof.core k t = .next t'
      ∧ s'.samples = new ++ s.samples ∧ t'.samples = new ++ t.samples
      ∧ SameOscillator s' t' ∧ s'.runState = t'.runState ∧ s'.toSend = t'.toSend

/-- The increments of legal rates (R99): BAUD_INC lies in (0, 1), at least 2^-32; OMEGA_LO and OMEGA_HI are
finite and ≥ +0.0, at most 2^35. -/
def Obligations.IncrementsOfLegalRatesAreBounded : Prop :=
  ∀ f baud sr : Word, 0 < baud.toNat → baud.toNat < sr.toNat →
    baudIncFloor ≤ (baudIncrement baud sr).toNat ∧ (baudIncrement baud sr).toNat < F64.one.toNat
    ∧ (omega f sr).toNat ≤ omegaCeiling

/-- PHASE is never less than its previous value within a command (R49), in the order of the reals. -/
def Obligations.PhaseNeverDecreasesInACommand : Prop :=
  ∀ s t : State, s.NumInv → s.runState = .mod → engineStep s = .next t →
    F64.isFinite s.phase = true ∧ F64.isFinite t.phase = true ∧ F64.units s.phase ≤ F64.units t.phase

/-- `f64(n)` is exact for every n < 2^53 (R9). -/
def Obligations.NaturalsBelowTwoToThe53AreExact : Prop :=
  ∀ n : Nat, n < 2 ^ 53 →
    F64.isFinite (F64.ofNat n) = true ∧ F64.units (F64.ofNat n) = (n : Int) * 2 ^ 1074

/-- binary64 arithmetic (R9). Rounding is to nearest, ties to even: no finite encoding `b` stands nearer to
`p / q` than the result does, and where another stands as near, the result's encoding is even; the result is
an infinity exactly from half a unit in the last place above the largest finite value on. The sum, difference,
product and quotient of finite operands are the exact ones rounded once. `>f` is the strict order of the
values, and false of a NaN. The signs of a zero result are those of IEEE 754 (log entry 25). -/
def Obligations.RoundingIsToNearestTiesToEven : Prop :=
  (∀ p q b : Nat, 0 < q → F64.roundBits p q < F64.infBits → b < F64.infBits →
    let value (x : Nat) : Int := F64.mag (BitVec.ofNat 64 x)
    let r := F64.roundBits p q
    |(p : Int) - q * value r| ≤ |(p : Int) - q * value b|
    ∧ (b ≠ r → |(p : Int) - q * value r| = |(p : Int) - q * value b| → r % 2 = 0))
  ∧ (∀ p q : Nat, 0 < q → (F64.roundBits p q < F64.infBits ↔ p < q * ((2 ^ 54 - 1) * 2 ^ 2044)))
  ∧ (∀ a b : F64, F64.isFinite a = true → F64.isFinite b = true →
    let sum := F64.units a + F64.units b
    let difference := F64.units a - F64.units b
    let sign := F64.sign a ^^ F64.sign b
    (sum ≠ 0 → F64.IsRounding (F64.add a b) (decide (sum < 0)) sum.natAbs 1)
    ∧ (sum = 0 → F64.IsRounding (F64.add a b) (F64.sign a && F64.sign b) 0 1)
    ∧ (difference ≠ 0 →
        F64.IsRounding (F64.sub a b) (decide (difference < 0)) difference.natAbs 1)
    ∧ (difference = 0 → F64.IsRounding (F64.sub a b) (F64.sign a && !F64.sign b) 0 1)
    ∧ F64.IsRounding (F64.mul a b) sign (F64.mag a * F64.mag b) (2 ^ 1074)
    ∧ (F64.mag b ≠ 0 → F64.IsRounding (F64.div a b) sign (F64.mag a * 2 ^ 1074) (F64.mag b))
    ∧ (F64.gt a b = true ↔ F64.units b < F64.units a))
  ∧ (∀ a b : F64, F64.isNaN a = true ∨ F64.isNaN b = true → F64.gt a b = false)

/-- A modulator command completes when SINK goes on accepting samples (R103, R135): from every state of the
invariants with the command running and ENGINE alone at work, some number of steps ends in IDLE with
DONE = 1. -/
def Obligations.ModulatorCommandsCompleteWhenTheSinkAccepts : Prop :=
  ∀ s : State, s.Inv → s.NumInv → s.runState = .mod → s.engineAlone = true →
    ∃ k t, Host.Core.run Sys2Proof.core k s = .next t ∧ t.runState = .idle ∧ t.done = true

end Modulator

section Port

/-- The table of R106, for every register but PKT_LEN and the packet window in every state, and for those two
in every state but BUILD; bits 31:10 of PKT_LEN read 0 there too (R38). The offsets are those of R23, the
numbers of STATE those of R27, the error codes those of R110. -/
def Obligations.ReadsReturnTheRegistersOfTheTable : Prop :=
  ∀ s : State,
    regRead 0x000 s = 0x4C54434D
    ∧ (regRead 0x004 s).toNat = 511 * 2 ^ 16 + Config.stopLenV2 * 2 ^ 8 + Config.stopLenV1
    ∧ (regRead 0x008 s).toNat = 4 * s.ieErr.toNat + 2 * s.ieDone.toNat
    ∧ (regRead 0x00C s).toNat = 256 * s.irq.toNat + 16 * s.errBits.toNat + 8 * s.drop.toNat
        + 4 * s.done.toNat + s.runState.bits.toNat
    ∧ (s.runState = .idle → (regRead 0x00C s).toNat % 4 = 0)
    ∧ ((∃ kind, s.runState = .build kind) → (regRead 0x00C s).toNat % 4 = 1)
    ∧ (s.runState = .mod → (regRead 0x00C s).toNat % 4 = 2)
    ∧ (s.runState = .error → (regRead 0x00C s).toNat % 4 = 3)
    ∧ (s.errCode = none → (regRead 0x00C s).toNat / 16 % 16 = 0)
    ∧ (s.errCode = some .illegalCmd → (regRead 0x00C s).toNat / 16 % 16 = 1)
    ∧ (s.errCode = some .lenRange → (regRead 0x00C s).toNat / 16 % 16 = 2)
    ∧ (s.errCode = some .cfgVersion → (regRead 0x00C s).toNat / 16 % 16 = 3)
    ∧ (s.errCode = some .cfgNumeric → (regRead 0x00C s).toNat / 16 % 16 = 4)
    ∧ regRead 0x010 s = 0
    ∧ regRead 0x014 s = s.errCmd
    ∧ (regRead 0x018 s).toNat = s.ver.toNat
    ∧ (regRead 0x01C s).toNat = s.osUpdate.toNat
    ∧ regRead 0x020 s = s.sampleRate ∧ regRead 0x024 s = s.baudRate
    ∧ regRead 0x028 s = s.fLo ∧ regRead 0x02C s = s.fHi
    ∧ regRead 0x030 s = s.payloadLen
    ∧ (regRead 0x034 s).toNat = s.block.toNat
    ∧ regRead 0x03C s = s.sampleCount
    ∧ (regRead 0x040 s).toNat = 4096 * s.bitsLeft.toNat + 256 * s.curBit.toNat + s.curByte.toNat
    ∧ regRead 0x048 s ++ regRead 0x044 s = s.phase
    ∧ regRead 0x050 s ++ regRead 0x04C s = s.baudFrac
    ∧ (∀ a : Offset, 0x054 ≤ a.toNat → a.toNat < 0x400 ∨ 0x600 ≤ a.toNat → regRead a s = 0)
    ∧ (regRead 0x038 s).toNat < 2 ^ 10
    ∧ ((∀ kind, s.runState ≠ .build kind) →
        (regRead 0x038 s).toNat = s.pktLen.toNat
        ∧ ∀ k : Fin 128, regRead (BitVec.ofNat 12 (0x400 + 4 * k.val)) s
            = s.pktBuf[4 * k.val + 3] ++ s.pktBuf[4 * k.val + 2] ++ s.pktBuf[4 * k.val + 1]
              ++ s.pktBuf[4 * k.val])

/-- A register-port read leaves the block and what stands outside it as they were (R64): only HOST's noted
word, the count of free values and the agenda change; outside BUILD not even that count. -/
def Obligations.ReadsHaveNoSideEffect : Prop :=
  ∀ (s : State) (a : Offset) (rest : List Move), s.agenda = .read a :: rest →
    ∃ n, step s = .next { s with readData := regRead a s, draws := n, agenda := rest }
      ∧ ((∀ kind, s.runState ≠ .build kind) → n = s.draws)

/-- Address bits 1:0 are ignored, by reads and by writes (R61). -/
def Obligations.AddressBitsOneAndZeroAreIgnored : Prop :=
  ∀ (s : State) (a : Offset) (w : Word),
    regRead a s = regRead (a &&& 0xFFC) s ∧ regWrite a w s = regWrite (a &&& 0xFFC) w s

/-- Configuration writes in IDLE and ERROR store the defined bits and nothing else (R107). -/
def Obligations.ConfigurationWritesStoreTheDefinedBits : Prop :=
  ∀ (s : State) (w : Word), s.runState = .idle ∨ s.runState = .error →
    regWrite 0x018 w s = .next { s with ver := BitVec.ofNat 8 (w.toNat % 2 ^ 8) }
    ∧ regWrite 0x01C w s = .next { s with osUpdate := decide (w.toNat % 2 = 1) }
    ∧ regWrite 0x020 w s = .next { s with sampleRate := w }
    ∧ regWrite 0x024 w s = .next { s with baudRate := w }
    ∧ regWrite 0x028 w s = .next { s with fLo := w }
    ∧ regWrite 0x02C w s = .next { s with fHi := w }
    ∧ regWrite 0x030 w s = .next { s with payloadLen := w }
    ∧ regWrite 0x034 w s = .next { s with block := BitVec.ofNat 24 (w.toNat % 2 ^ 24) }

/-- Configuration and window writes in BUILD and MOD store nothing and set DROP (R107, R114). -/
def Obligations.WritesWhileBusyAreDropped : Prop :=
  ∀ (s : State) (w : Word) (a : Offset),
    (∃ kind, s.runState = .build kind) ∨ s.runState = .mod →
    (0x018 ≤ a.toNat ∧ a.toNat < 0x038) ∨ (0x400 ≤ a.toNat ∧ a.toNat < 0x600) →
    regWrite a w s = .next { s with drop := true }

/-- The packet window (R44). A write in IDLE and ERROR writes its four bytes, little-endian, and reads back;
every other packet-buffer byte and all other state stay. A write in BUILD and MOD is dropped. A read, outside
BUILD (R45), returns the four bytes. -/
def Obligations.WindowWritesStoreFourBytesLittleEndian : Prop :=
  ∀ (s : State) (w : Word) (k : Fin 128),
    let a := BitVec.ofNat 12 (0x400 + 4 * k.val)
    (s.runState = .idle ∨ s.runState = .error →
      ∃ t, regWrite a w s = .next t
        ∧ t = { s with pktBuf := t.pktBuf }
        ∧ (∀ j, j < 4 → t.pktRead (4 * k.val + j)
            = some (BitVec.ofNat 8 (w.toNat / 2 ^ (8 * j) % 2 ^ 8)))
        ∧ (∀ i, i < 4 * k.val ∨ 4 * k.val + 4 ≤ i → t.pktRead i = s.pktRead i)
        ∧ regRead a t = w)
    ∧ ((∃ kind, s.runState = .build kind) ∨ s.runState = .mod →
      regWrite a w s = .next { s with drop := true })
    ∧ ((∀ kind, s.runState ≠ .build kind) → ∀ j, j < 4 →
      s.pktRead (4 * k.val + j) = some (BitVec.ofNat 8 ((regRead a s).toNat / 2 ^ (8 * j) % 2 ^ 8)))

/-- STATUS and CTRL writes, in every state (R107): write-one-to-clear of DONE and DROP; the interrupt
enables; a CTRL write with SRST = 1 is the reset of R123. -/
def Obligations.StatusAndCtrlWritesAreTakenInEveryState : Prop :=
  ∀ (s : State) (w : Word),
    regWrite 0x00C w s = .next { s with
      done := if w.toNat / 4 % 2 = 1 then false else s.done
      drop := if w.toNat / 8 % 2 = 1 then false else s.drop }
    ∧ (w.toNat % 2 = 0 → regWrite 0x008 w s = .next { s with
        ieDone := decide (w.toNat / 2 % 2 = 1), ieErr := decide (w.toNat / 4 % 2 = 1) })
    ∧ (w.toNat % 2 = 1 → regWrite 0x008 w s = .next s.resetBlock)

/-- Reserved offsets read 0 and ignore writes, in every state (R43); writes to read-only registers have no
effect (R64, R107): ID, CAPS, ERR_CMD, and PKT_LEN to BFRAC_HI. -/
def Obligations.ReadOnlyAndReservedWritesHaveNoEffect : Prop :=
  ∀ (s : State) (w : Word) (a : Offset),
    ((0x054 ≤ a.toNat ∧ a.toNat < 0x400) ∨ 0x600 ≤ a.toNat →
      regRead a s = 0 ∧ regWrite a w s = .next s)
    ∧ (a.toNat < 0x008 ∨ (0x014 ≤ a.toNat ∧ a.toNat < 0x018) ∨ (0x038 ≤ a.toNat ∧ a.toNat < 0x054) →
      regWrite a w s = .next s)

/-- The interrupt output (R115), and STATUS.IRQ reads it back. -/
def Obligations.InterruptFollowsDoneAndError : Prop :=
  ∀ s : State,
    (s.irq = true ↔ (s.ieDone = true ∧ s.done = true) ∨ (s.ieErr = true ∧ s.runState = .error))
    ∧ (regRead 0x00C s).toNat / 2 ^ 8 % 2 = s.irq.toNat

/-- The table of R52: at reset, and after a reset from any state. -/
def Obligations.ResetLeavesTheValuesOfTheTable : Prop :=
  ∀ s t : State, t = State.reset ∨ t = s.resetBlock →
    regRead 0x000 t = 0x4C54434D
    ∧ (regRead 0x004 t).toNat = 511 * 2 ^ 16 + Config.stopLenV2 * 2 ^ 8 + Config.stopLenV1
    ∧ t.ieDone = false ∧ t.ieErr = false ∧ regRead 0x008 t = 0
    ∧ t.runState = .idle ∧ t.done = false ∧ t.drop = false ∧ t.errCode = none ∧ regRead 0x00C t = 0
    ∧ t.errCmd = 0 ∧ t.ver = 0 ∧ t.osUpdate = false ∧ t.sampleRate = 0 ∧ t.baudRate = 0
    ∧ t.fLo = 0 ∧ t.fHi = 0 ∧ t.payloadLen = 0 ∧ t.block = 0 ∧ t.pktLen = 0 ∧ t.sampleCount = 0
    ∧ t.phase = 0 ∧ t.baudFrac = 0 ∧ t.curByte = 0 ∧ t.curBit = false ∧ t.bitsLeft = 0
    ∧ t.omegaLo = 0 ∧ t.omegaHi = 0 ∧ t.baudInc = 0 ∧ t.modN = 0 ∧ t.pos = 0
    ∧ (∀ i, i < 512 → ∃ v, t.pktRead i = some v)
    ∧ t.irq = false ∧ t.offered = none

/-- The reset input and CTRL.SRST have the same effect, in every state, and the reset input takes precedence
over a write in the same step, a CMD write among them (R109, R112, R123). The joint moves that show the case
are the model's own (log entry 16). -/
def Obligations.ResetInputAndSoftResetAreTheSame : Prop :=
  ∀ (s : State) (a : Offset) (w v : Word) (rest : List Move), w.getLsbD 0 = true →
    step { s with agenda := .reset :: rest } = .next ({ s with agenda := rest } : State).resetBlock
    ∧ step { s with agenda := .write 0x008 w :: rest } = step { s with agenda := .reset :: rest }
    ∧ step { s with agenda := .writeWithEngine 0x008 w :: rest }
        = step { s with agenda := .reset :: rest }
    ∧ step { s with agenda := .resetWithWrite a v :: rest } = step { s with agenda := .reset :: rest }

/-- Where HOST clears DONE in the very step in which ENGINE completes a command, the set wins (R27, D45).
The joint move of HOST and ENGINE that shows the case is the model's own (log entry 16). -/
def Obligations.ASetInTheSameStepWinsOverTheClear : Prop :=
  ∀ (s t : State) (w : Word) (rest : List Move), s.engineEnabled = true →
    step { s with agenda := .writeWithEngine 0x00C w :: rest } = .next t → t.runState = .idle →
    t.done = true

end Port

section PayloadMemory

/-- A host write of payload memory (R22, R55) stores its byte, leaves every other byte, and keeps the
canonical form of the memory; of the rest of the state it changes at most whether the running build is
disturbed (R68). That memory stands in the state, and the note of a disturbed build, are the model's (log
entries 6, 11). -/
def Obligations.PayloadWritesStoreOneByte : Prop :=
  ∀ (s : State) (a : BitVec 32) (v : Byte) (rest : List Move),
    s.payload.wf = true → s.agenda = .payloadWrite a v :: rest →
    ∃ t, step s = .next t
      ∧ t.payload.read a.toNat = v
      ∧ (∀ b, b ≠ a.toNat → t.payload.read b = s.payload.read b)
      ∧ t.payload.wf = true
      ∧ t = { s with payload := t.payload, payloadTorn := t.payloadTorn, agenda := rest }
      ∧ (t.payloadTorn = true ↔ (∃ kind, s.runState = .build kind) ∨ s.payloadTorn = true)

end PayloadMemory

section Invariants

/-- The invariants hold at reset (R49, R52). -/
def Obligations.ResetMeetsTheInvariants : Prop :=
  State.reset.Inv ∧ State.reset.NumInv

/-- Every step keeps the invariants of R49 on the registers, the cursor, the length and the errors, and the
canonical form of the payload memory (the model's own, log entry 11). -/
def Obligations.EveryStepKeepsTheInvariant : Prop :=
  ∀ s t : State, s.Inv → step s = .next t → t.Inv

/-- Every step keeps the numeric invariants of R49 and R99: +0.0 ≤ BAUD_FRAC ≤ 1.0, PHASE finite and not
negative, the increments bounded. The ceiling on PHASE, 2^88, which makes the invariant one that every step
keeps, is the model's deduction from the arithmetic (log entry 24). -/
def Obligations.EveryStepKeepsTheNumericInvariant : Prop :=
  ∀ s t : State, s.NumInv → step s = .next t → t.NumInv

/-- No step of a state of the invariant faults or is refused (R49, R56): the machine runs on for ever. -/
def Obligations.NoStepFaultsUnderTheInvariant : Prop :=
  ∀ s : State, s.Inv → ∃ t, step s = .next t

/-- Only a reset leaves ERROR, and until then ERR_CODE and ERR_CMD stand (R113). -/
def Obligations.OnlyAResetLeavesError : Prop :=
  ∀ s t : State, s.runState = .error → step s = .next t → s.resetsNext = false →
    t.runState = .error ∧ t.errCode = s.errCode ∧ t.errCmd = s.errCmd

/-- Only its own completion or a reset ends a running command (R95, R124): otherwise STATE stays, and a
running command never ends in ERROR. -/
def Obligations.OnlyCompletionOrResetEndsACommand : Prop :=
  ∀ s t : State, (∃ kind, s.runState = .build kind) ∨ s.runState = .mod → step s = .next t →
    s.resetsNext = false → t.runState = s.runState ∨ (t.runState = .idle ∧ t.done = true)

/-- Outside a build step and a reset PKT_LEN stands (R38), and then only a window write changes a
packet-buffer byte, one of its own four (R45, R107). A build step completes, so a step that starts in BUILD
is none exactly when it leaves STATE at BUILD: the moves of HOST and SINK during a build are covered. -/
def Obligations.OnlyFramerWindowAndResetWriteThePacketBuffer : Prop :=
  ∀ s t : State, step s = .next t → s.resetsNext = false →
    (∀ kind, s.runState = .build kind → t.runState = .build kind) →
    t.pktLen = s.pktLen
    ∧ ∀ i, t.pktRead i = s.pktRead i ∨ ∃ k w, s.hostWrites (.pkt k) w ∧ i / 4 = k.val

/-- DROP, once set, is cleared only by a STATUS write with bit 3 = 1 or by a reset (R114). -/
def Obligations.DropStaysUntilClearedByTheHost : Prop :=
  ∀ s t : State, s.drop = true → step s = .next t → s.resetsNext = false →
    t.drop = true ∨ ∃ w, s.hostWrites .status w ∧ w.getLsbD 3 = true

/-- The block never writes payload memory (R50, R55): only the host's own writes change it. -/
def Obligations.OnlyTheHostWritesPayloadMemory : Prop :=
  ∀ s t : State, step s = .next t → (∀ a v rest, s.agenda ≠ .payloadWrite a v :: rest) →
    t.payload = s.payload

end Invariants
end

