-- ==== Sys2Proof/Laws/Encoding.lean ====
section
/-! SUPPORT. The command word and its fields: which words each row of R74 selects, said of the fields. -/

namespace Sys2Proof

/-- A word is its fields RSVD, LEN and OP (R71). -/
theorem word_of_fields (w : Word) : rsvdField w ++ lenField w ++ opField w = w := by
  unfold rsvdField lenField opField
  rw [BitVec.extractLsb'_append_extractLsb'_eq_extractLsb' (by rfl),
    BitVec.extractLsb'_append_extractLsb'_eq_extractLsb' (by rfl)]
  simp

theorem opField_toNat (w : Word) : (opField w).toNat = w.toNat % 2 ^ 8 := by
  simp [opField]

theorem lenField_toNat (w : Word) : (lenField w).toNat = w.toNat / 2 ^ 8 % 2 ^ 10 := by
  simp [lenField, Nat.shiftRight_eq_div_pow]

theorem rsvdField_toNat (w : Word) : (rsvdField w).toNat = w.toNat / 2 ^ 18 := by
  have := w.isLt
  simp [rsvdField, Nat.shiftRight_eq_div_pow]
  omega

/-- A row with every bit in its mask selects its own pattern only. -/
theorem selects_all (w p : Word) : selects w 0xFFFFFFFF p = true ↔ w = p := by
  have : w &&& 0xFFFFFFFF = w := by
    rw [show (0xFFFFFFFF : Word) = BitVec.allOnes 32 from rfl, BitVec.and_allOnes]
  simp only [selects, this, beq_iff_eq]

/-- The row of MOD_BUF selects the words with OP = 0x03 and RSVD = 0, whatever LEN is. -/
theorem selects_modBuf (w : Word) :
    selects w 0xFFFC00FF 0x00000003 = true ↔ opField w = 3 ∧ rsvdField w = 0 := by
  simp only [selects, beq_iff_eq]
  constructor
  · intro h
    constructor
    · apply BitVec.eq_of_getLsbD_eq
      intro i hi
      have e := congrArg (BitVec.getLsbD · i) h
      simp only [opField, BitVec.getLsbD_extractLsb', BitVec.getLsbD_and] at e ⊢
      interval_cases i <;> simpa using e
    · apply BitVec.eq_of_getLsbD_eq
      intro i hi
      have e := congrArg (BitVec.getLsbD · (18 + i)) h
      simp only [rsvdField, BitVec.getLsbD_extractLsb', BitVec.getLsbD_and] at e ⊢
      interval_cases i <;> simpa using e
  · rintro ⟨h1, h2⟩
    apply BitVec.eq_of_getLsbD_eq
    intro i hi
    rw [BitVec.getLsbD_and]
    rcases Nat.lt_or_ge i 8 with h | h
    · have e := congrArg (BitVec.getLsbD · i) h1
      simp only [opField, BitVec.getLsbD_extractLsb'] at e
      interval_cases i <;> simpa using e
    · rcases Nat.lt_or_ge i 18 with h' | h'
      · interval_cases i <;> simp
      · have e := congrArg (BitVec.getLsbD · (i - 18)) h2
        simp only [rsvdField, BitVec.getLsbD_extractLsb'] at e
        interval_cases i <;> simpa using e

/-- The bits of MOD_BUF's word: LEN above OP. -/
theorem encode_modBuf_toNat {len : Nat} (h : len < 1024) : (encode (.modBuf len)).toNat = len * 256 + 3 := by
  have hs : (BitVec.ofNat 32 len <<< 8).toNat = len <<< 8 := by
    simp only [BitVec.toNat_shiftLeft, BitVec.toNat_ofNat, Nat.shiftLeft_eq]; omega
  simp only [encode, BitVec.toNat_or, hs]
  rw [show (3 : BitVec 32).toNat = 3 from rfl, ← Nat.shiftLeft_add_eq_or_of_lt (by decide), Nat.shiftLeft_eq]

/-- The command word of `cmd MOD_BUF n` (R78) as a number. -/
theorem encode_modBuf {len : Nat} (h : len < 1024) :
    encode (.modBuf len) = BitVec.ofNat 32 (len * 256 + 3) := by
  apply BitVec.eq_of_toNat_eq
  rw [encode_modBuf_toNat h, BitVec.toNat_ofNat]
  omega

end Sys2Proof
end

