-- ==== Sys2Proof/Laws/Memory.lean ====
section
/-! SUPPORT. The payload memory and the packet buffer: what a read gives after a write, and that every
write keeps the canonical form. -/

namespace Sys2Proof.Machine

theorem Memory.read_of_lt {m : Memory} {lo a : Nat} (h : m.canonicalFrom lo = true) (ha : a < lo) :
    m.read a = Memory.unlisted := by
  induction m generalizing lo with
  | nil => rfl
  | cons c rest ih =>
    obtain ⟨b, v⟩ := c
    simp only [canonicalFrom, Bool.and_eq_true, decide_eq_true_eq] at h
    simp only [read, if_neg (show a ≠ b by omega)]
    exact ih h.2 (by omega)

/-- The byte written is the byte read; every other byte reads as before (canonical memories). -/
theorem Memory.read_write {m : Memory} {lo : Nat} (h : m.canonicalFrom lo = true) (a b : Nat) (v : Byte) :
    (m.write a v).read b = if b = a then v else m.read b := by
  induction m generalizing lo with
  | nil => by_cases hv : v = unlisted <;> simp [write, read, hv]
  | cons c rest ih =>
    obtain ⟨k, u⟩ := c
    simp only [canonicalFrom, Bool.and_eq_true, decide_eq_true_eq] at h
    obtain ⟨⟨⟨h1, h2⟩, h3⟩, h4⟩ := h
    simp only [write]
    split
    · have hr : Memory.read ((k, u) :: rest) a = unlisted := by
        simp only [read, if_neg (show a ≠ k by omega)]
        exact Memory.read_of_lt h4 (by omega)
      split
      · rename_i hv
        by_cases hb : b = a
        · subst hb; simp [hr, hv]
        · simp [hb]
      · by_cases hb : b = a
        · simp [read, hb]
        · simp only [if_neg hb]; conv_lhs => rw [read, if_neg hb]
    · split
      · rename_i hne heq
        subst heq
        split
        · rename_i hv
          by_cases hb : b = a
          · subst hb; rw [if_pos rfl, hv]; exact Memory.read_of_lt h4 (by omega)
          · simp [read, hb]
        · by_cases hb : b = a <;> simp [read, hb]
      · by_cases hk : b = k
        · subst hk
          rw [if_neg (by omega : ¬ b = a)]
          simp [read]
        · simp only [read, if_neg hk]
          exact ih h4

theorem Memory.canonicalFrom_write {m : Memory} {lo a : Nat} (h : m.canonicalFrom lo = true)
    (hlo : lo ≤ a) (ha : a < 2 ^ 32) (v : Byte) : (m.write a v).canonicalFrom lo = true := by
  induction m generalizing lo with
  | nil => by_cases hv : v = unlisted <;> simp [write, canonicalFrom, hv, hlo]; exact ha
  | cons c rest ih =>
    obtain ⟨k, u⟩ := c
    have h' := h
    simp only [canonicalFrom, Bool.and_eq_true, decide_eq_true_eq] at h
    obtain ⟨⟨⟨h1, h2⟩, h3⟩, h4⟩ := h
    have weaken : ∀ {lo lo' : Nat} {m : Memory}, lo' ≤ lo → m.canonicalFrom lo = true →
        m.canonicalFrom lo' = true := by
      intro lo lo' m hle hm
      cases m with
      | nil => rfl
      | cons c r =>
        simp only [canonicalFrom, Bool.and_eq_true, decide_eq_true_eq] at hm ⊢
        exact ⟨⟨⟨by omega, hm.1.1.2⟩, hm.1.2⟩, hm.2⟩
    simp only [write]
    split
    · split
      · exact h'
      · rename_i hlt hv
        simp only [canonicalFrom, Bool.and_eq_true, decide_eq_true_eq]
        exact ⟨⟨⟨hlo, ha⟩, hv⟩, ⟨⟨by omega, h2⟩, h3⟩, h4⟩
    · split
      · split
        · exact weaken (by omega) h4
        · rename_i hlt heq hv
          subst heq
          simp only [canonicalFrom, Bool.and_eq_true, decide_eq_true_eq]
          exact ⟨⟨⟨h1, h2⟩, hv⟩, h4⟩
      · simp only [canonicalFrom, Bool.and_eq_true, decide_eq_true_eq]
        exact ⟨⟨⟨h1, h2⟩, h3⟩, ih h4 (by omega)⟩

/-- Every write of a 32-bit address keeps the canonical form. -/
theorem Memory.wf_write {m : Memory} (h : m.wf = true) (a : BitVec 32) (v : Byte) :
    (m.write a.toNat v).wf = true :=
  Memory.canonicalFrom_write h (Nat.zero_le _) a.isLt v

theorem overlayList_getElem? (p old : List Byte) (i : Nat) :
    (overlayList p old)[i]? = if i < p.length ∧ i < old.length then p[i]? else old[i]? := by
  induction old generalizing p i with
  | nil => cases p <;> simp [overlayList]
  | cons o old ih =>
    cases p with
    | nil => simp [overlayList]
    | cons b p =>
      cases i with
      | zero => simp [overlayList]
      | succ i => simp [overlayList, ih]

theorem overlay_toList (p : List Byte) (buf : Vector Byte 512) :
    (overlay p buf).toList = overlayList p buf.toList := by
  simp [overlay, Vector.toList]

/-- After a packet is written, its bytes read back and the bytes beyond it read as before (R45). -/
theorem overlay_getElem? (p : List Byte) (buf : Vector Byte 512) (i : Nat) :
    (overlay p buf).toList[i]? = if i < p.length ∧ i < 512 then p[i]? else buf.toList[i]? := by
  rw [overlay_toList, overlayList_getElem?]
  simp

/-- A word is its four bytes, the last one in bits 7:0 (R44). -/
theorem word_of_bytes (w : Word) :
    w.extractLsb' 24 8 ++ w.extractLsb' 16 8 ++ w.extractLsb' 8 8 ++ w.extractLsb' 0 8 = w := by
  rw [BitVec.extractLsb'_append_extractLsb'_eq_extractLsb' (by rfl),
    BitVec.extractLsb'_append_extractLsb'_eq_extractLsb' (by rfl),
    BitVec.extractLsb'_append_extractLsb'_eq_extractLsb' (by rfl)]
  simp

/-- The window word written reads back (R44). -/
theorem windowRead_windowWrite (buf : Vector Byte 512) (k : Fin 128) (w : Word) :
    windowRead (windowWrite buf k w) k = w := by
  simpa [windowRead, windowWrite] using word_of_bytes w

/-- The four bytes of a window word take the word's bytes, every other byte reads as before (R44, R107). -/
theorem windowWrite_getElem? (buf : Vector Byte 512) (k : Fin 128) (w : Word) (i : Nat) :
    (windowWrite buf k w).toList[i]?
      = if i / 4 = k.val then some (w.extractLsb' (8 * (i % 4)) 8) else buf.toList[i]? := by
  have hk := k.isLt
  simp only [windowWrite, Vector.toList_set, List.getElem?_set, List.length_set, Vector.length_toList]
  by_cases hi : i / 4 = k.val
  · have h4 : i % 4 = 0 ∨ i % 4 = 1 ∨ i % 4 = 2 ∨ i % 4 = 3 := by omega
    rw [if_pos hi]
    rcases h4 with h | h | h | h <;> rw [h] <;> (repeat' split) <;> first | rfl | omega
  · rw [if_neg hi]
    (repeat' split) <;> first | rfl | omega

end Sys2Proof.Machine
end

