-- ==== Sys2Proof/Laws/State.lean ====
section
/-! SUPPORT. What each named update of the state leaves in each field: one lemma per field per update. -/

namespace Sys2Proof.Machine

variable (s : State)

@[simp] theorem State.complete_runState : (s.complete).runState = .idle := rfl
@[simp] theorem State.complete_done : (s.complete).done = true := rfl
@[simp] theorem State.complete_drop : (s.complete).drop = s.drop := rfl
@[simp] theorem State.complete_errCode : (s.complete).errCode = s.errCode := rfl
@[simp] theorem State.complete_ieDone : (s.complete).ieDone = s.ieDone := rfl
@[simp] theorem State.complete_ieErr : (s.complete).ieErr = s.ieErr := rfl
@[simp] theorem State.complete_errCmd : (s.complete).errCmd = s.errCmd := rfl
@[simp] theorem State.complete_ver : (s.complete).ver = s.ver := rfl
@[simp] theorem State.complete_osUpdate : (s.complete).osUpdate = s.osUpdate := rfl
@[simp] theorem State.complete_sampleRate : (s.complete).sampleRate = s.sampleRate := rfl
@[simp] theorem State.complete_baudRate : (s.complete).baudRate = s.baudRate := rfl
@[simp] theorem State.complete_fLo : (s.complete).fLo = s.fLo := rfl
@[simp] theorem State.complete_fHi : (s.complete).fHi = s.fHi := rfl
@[simp] theorem State.complete_payloadLen : (s.complete).payloadLen = s.payloadLen := rfl
@[simp] theorem State.complete_block : (s.complete).block = s.block := rfl
@[simp] theorem State.complete_pktLen : (s.complete).pktLen = s.pktLen := rfl
@[simp] theorem State.complete_sampleCount : (s.complete).sampleCount = s.sampleCount := rfl
@[simp] theorem State.complete_pktBuf : (s.complete).pktBuf = s.pktBuf := rfl
@[simp] theorem State.complete_phase : (s.complete).phase = s.phase := rfl
@[simp] theorem State.complete_baudFrac : (s.complete).baudFrac = s.baudFrac := rfl
@[simp] theorem State.complete_curByte : (s.complete).curByte = s.curByte := rfl
@[simp] theorem State.complete_curBit : (s.complete).curBit = s.curBit := rfl
@[simp] theorem State.complete_bitsLeft : (s.complete).bitsLeft = s.bitsLeft := rfl
@[simp] theorem State.complete_omegaLo : (s.complete).omegaLo = s.omegaLo := rfl
@[simp] theorem State.complete_omegaHi : (s.complete).omegaHi = s.omegaHi := rfl
@[simp] theorem State.complete_baudInc : (s.complete).baudInc = s.baudInc := rfl
@[simp] theorem State.complete_modN : (s.complete).modN = s.modN := rfl
@[simp] theorem State.complete_pos : (s.complete).pos = s.pos := rfl
@[simp] theorem State.complete_payload : (s.complete).payload = s.payload := rfl
@[simp] theorem State.complete_payloadTorn : (s.complete).payloadTorn = s.payloadTorn := rfl
@[simp] theorem State.complete_sinkReady : (s.complete).sinkReady = s.sinkReady := rfl
@[simp] theorem State.complete_samples : (s.complete).samples = s.samples := rfl
@[simp] theorem State.complete_readData : (s.complete).readData = s.readData := rfl
@[simp] theorem State.complete_draws : (s.complete).draws = s.draws := rfl
@[simp] theorem State.complete_agenda : (s.complete).agenda = s.agenda := rfl

@[simp] theorem State.setDrop_runState : (s.setDrop).runState = s.runState := rfl
@[simp] theorem State.setDrop_done : (s.setDrop).done = s.done := rfl
@[simp] theorem State.setDrop_drop : (s.setDrop).drop = true := rfl
@[simp] theorem State.setDrop_errCode : (s.setDrop).errCode = s.errCode := rfl
@[simp] theorem State.setDrop_ieDone : (s.setDrop).ieDone = s.ieDone := rfl
@[simp] theorem State.setDrop_ieErr : (s.setDrop).ieErr = s.ieErr := rfl
@[simp] theorem State.setDrop_errCmd : (s.setDrop).errCmd = s.errCmd := rfl
@[simp] theorem State.setDrop_ver : (s.setDrop).ver = s.ver := rfl
@[simp] theorem State.setDrop_osUpdate : (s.setDrop).osUpdate = s.osUpdate := rfl
@[simp] theorem State.setDrop_sampleRate : (s.setDrop).sampleRate = s.sampleRate := rfl
@[simp] theorem State.setDrop_baudRate : (s.setDrop).baudRate = s.baudRate := rfl
@[simp] theorem State.setDrop_fLo : (s.setDrop).fLo = s.fLo := rfl
@[simp] theorem State.setDrop_fHi : (s.setDrop).fHi = s.fHi := rfl
@[simp] theorem State.setDrop_payloadLen : (s.setDrop).payloadLen = s.payloadLen := rfl
@[simp] theorem State.setDrop_block : (s.setDrop).block = s.block := rfl
@[simp] theorem State.setDrop_pktLen : (s.setDrop).pktLen = s.pktLen := rfl
@[simp] theorem State.setDrop_sampleCount : (s.setDrop).sampleCount = s.sampleCount := rfl
@[simp] theorem State.setDrop_pktBuf : (s.setDrop).pktBuf = s.pktBuf := rfl
@[simp] theorem State.setDrop_phase : (s.setDrop).phase = s.phase := rfl
@[simp] theorem State.setDrop_baudFrac : (s.setDrop).baudFrac = s.baudFrac := rfl
@[simp] theorem State.setDrop_curByte : (s.setDrop).curByte = s.curByte := rfl
@[simp] theorem State.setDrop_curBit : (s.setDrop).curBit = s.curBit := rfl
@[simp] theorem State.setDrop_bitsLeft : (s.setDrop).bitsLeft = s.bitsLeft := rfl
@[simp] theorem State.setDrop_omegaLo : (s.setDrop).omegaLo = s.omegaLo := rfl
@[simp] theorem State.setDrop_omegaHi : (s.setDrop).omegaHi = s.omegaHi := rfl
@[simp] theorem State.setDrop_baudInc : (s.setDrop).baudInc = s.baudInc := rfl
@[simp] theorem State.setDrop_modN : (s.setDrop).modN = s.modN := rfl
@[simp] theorem State.setDrop_pos : (s.setDrop).pos = s.pos := rfl
@[simp] theorem State.setDrop_payload : (s.setDrop).payload = s.payload := rfl
@[simp] theorem State.setDrop_payloadTorn : (s.setDrop).payloadTorn = s.payloadTorn := rfl
@[simp] theorem State.setDrop_sinkReady : (s.setDrop).sinkReady = s.sinkReady := rfl
@[simp] theorem State.setDrop_samples : (s.setDrop).samples = s.samples := rfl
@[simp] theorem State.setDrop_readData : (s.setDrop).readData = s.readData := rfl
@[simp] theorem State.setDrop_draws : (s.setDrop).draws = s.draws := rfl
@[simp] theorem State.setDrop_agenda : (s.setDrop).agenda = s.agenda := rfl

@[simp] theorem State.raiseError_runState (code : ErrorCode) (w : Word) : (s.raiseError code w).runState = .error := rfl
@[simp] theorem State.raiseError_done (code : ErrorCode) (w : Word) : (s.raiseError code w).done = s.done := rfl
@[simp] theorem State.raiseError_drop (code : ErrorCode) (w : Word) : (s.raiseError code w).drop = s.drop := rfl
@[simp] theorem State.raiseError_errCode (code : ErrorCode) (w : Word) : (s.raiseError code w).errCode = some code := rfl
@[simp] theorem State.raiseError_ieDone (code : ErrorCode) (w : Word) : (s.raiseError code w).ieDone = s.ieDone := rfl
@[simp] theorem State.raiseError_ieErr (code : ErrorCode) (w : Word) : (s.raiseError code w).ieErr = s.ieErr := rfl
@[simp] theorem State.raiseError_errCmd (code : ErrorCode) (w : Word) : (s.raiseError code w).errCmd = w := rfl
@[simp] theorem State.raiseError_ver (code : ErrorCode) (w : Word) : (s.raiseError code w).ver = s.ver := rfl
@[simp] theorem State.raiseError_osUpdate (code : ErrorCode) (w : Word) : (s.raiseError code w).osUpdate = s.osUpdate := rfl
@[simp] theorem State.raiseError_sampleRate (code : ErrorCode) (w : Word) : (s.raiseError code w).sampleRate = s.sampleRate := rfl
@[simp] theorem State.raiseError_baudRate (code : ErrorCode) (w : Word) : (s.raiseError code w).baudRate = s.baudRate := rfl
@[simp] theorem State.raiseError_fLo (code : ErrorCode) (w : Word) : (s.raiseError code w).fLo = s.fLo := rfl
@[simp] theorem State.raiseError_fHi (code : ErrorCode) (w : Word) : (s.raiseError code w).fHi = s.fHi := rfl
@[simp] theorem State.raiseError_payloadLen (code : ErrorCode) (w : Word) : (s.raiseError code w).payloadLen = s.payloadLen := rfl
@[simp] theorem State.raiseError_block (code : ErrorCode) (w : Word) : (s.raiseError code w).block = s.block := rfl
@[simp] theorem State.raiseError_pktLen (code : ErrorCode) (w : Word) : (s.raiseError code w).pktLen = s.pktLen := rfl
@[simp] theorem State.raiseError_sampleCount (code : ErrorCode) (w : Word) : (s.raiseError code w).sampleCount = s.sampleCount := rfl
@[simp] theorem State.raiseError_pktBuf (code : ErrorCode) (w : Word) : (s.raiseError code w).pktBuf = s.pktBuf := rfl
@[simp] theorem State.raiseError_phase (code : ErrorCode) (w : Word) : (s.raiseError code w).phase = s.phase := rfl
@[simp] theorem State.raiseError_baudFrac (code : ErrorCode) (w : Word) : (s.raiseError code w).baudFrac = s.baudFrac := rfl
@[simp] theorem State.raiseError_curByte (code : ErrorCode) (w : Word) : (s.raiseError code w).curByte = s.curByte := rfl
@[simp] theorem State.raiseError_curBit (code : ErrorCode) (w : Word) : (s.raiseError code w).curBit = s.curBit := rfl
@[simp] theorem State.raiseError_bitsLeft (code : ErrorCode) (w : Word) : (s.raiseError code w).bitsLeft = s.bitsLeft := rfl
@[simp] theorem State.raiseError_omegaLo (code : ErrorCode) (w : Word) : (s.raiseError code w).omegaLo = s.omegaLo := rfl
@[simp] theorem State.raiseError_omegaHi (code : ErrorCode) (w : Word) : (s.raiseError code w).omegaHi = s.omegaHi := rfl
@[simp] theorem State.raiseError_baudInc (code : ErrorCode) (w : Word) : (s.raiseError code w).baudInc = s.baudInc := rfl
@[simp] theorem State.raiseError_modN (code : ErrorCode) (w : Word) : (s.raiseError code w).modN = s.modN := rfl
@[simp] theorem State.raiseError_pos (code : ErrorCode) (w : Word) : (s.raiseError code w).pos = s.pos := rfl
@[simp] theorem State.raiseError_payload (code : ErrorCode) (w : Word) : (s.raiseError code w).payload = s.payload := rfl
@[simp] theorem State.raiseError_payloadTorn (code : ErrorCode) (w : Word) : (s.raiseError code w).payloadTorn = s.payloadTorn := rfl
@[simp] theorem State.raiseError_sinkReady (code : ErrorCode) (w : Word) : (s.raiseError code w).sinkReady = s.sinkReady := rfl
@[simp] theorem State.raiseError_samples (code : ErrorCode) (w : Word) : (s.raiseError code w).samples = s.samples := rfl
@[simp] theorem State.raiseError_readData (code : ErrorCode) (w : Word) : (s.raiseError code w).readData = s.readData := rfl
@[simp] theorem State.raiseError_draws (code : ErrorCode) (w : Word) : (s.raiseError code w).draws = s.draws := rfl
@[simp] theorem State.raiseError_agenda (code : ErrorCode) (w : Word) : (s.raiseError code w).agenda = s.agenda := rfl

@[simp] theorem State.withAgenda_runState (rest : List Move) : (s.withAgenda rest).runState = s.runState := rfl
@[simp] theorem State.withAgenda_done (rest : List Move) : (s.withAgenda rest).done = s.done := rfl
@[simp] theorem State.withAgenda_drop (rest : List Move) : (s.withAgenda rest).drop = s.drop := rfl
@[simp] theorem State.withAgenda_errCode (rest : List Move) : (s.withAgenda rest).errCode = s.errCode := rfl
@[simp] theorem State.withAgenda_ieDone (rest : List Move) : (s.withAgenda rest).ieDone = s.ieDone := rfl
@[simp] theorem State.withAgenda_ieErr (rest : List Move) : (s.withAgenda rest).ieErr = s.ieErr := rfl
@[simp] theorem State.withAgenda_errCmd (rest : List Move) : (s.withAgenda rest).errCmd = s.errCmd := rfl
@[simp] theorem State.withAgenda_ver (rest : List Move) : (s.withAgenda rest).ver = s.ver := rfl
@[simp] theorem State.withAgenda_osUpdate (rest : List Move) : (s.withAgenda rest).osUpdate = s.osUpdate := rfl
@[simp] theorem State.withAgenda_sampleRate (rest : List Move) : (s.withAgenda rest).sampleRate = s.sampleRate := rfl
@[simp] theorem State.withAgenda_baudRate (rest : List Move) : (s.withAgenda rest).baudRate = s.baudRate := rfl
@[simp] theorem State.withAgenda_fLo (rest : List Move) : (s.withAgenda rest).fLo = s.fLo := rfl
@[simp] theorem State.withAgenda_fHi (rest : List Move) : (s.withAgenda rest).fHi = s.fHi := rfl
@[simp] theorem State.withAgenda_payloadLen (rest : List Move) : (s.withAgenda rest).payloadLen = s.payloadLen := rfl
@[simp] theorem State.withAgenda_block (rest : List Move) : (s.withAgenda rest).block = s.block := rfl
@[simp] theorem State.withAgenda_pktLen (rest : List Move) : (s.withAgenda rest).pktLen = s.pktLen := rfl
@[simp] theorem State.withAgenda_sampleCount (rest : List Move) : (s.withAgenda rest).sampleCount = s.sampleCount := rfl
@[simp] theorem State.withAgenda_pktBuf (rest : List Move) : (s.withAgenda rest).pktBuf = s.pktBuf := rfl
@[simp] theorem State.withAgenda_phase (rest : List Move) : (s.withAgenda rest).phase = s.phase := rfl
@[simp] theorem State.withAgenda_baudFrac (rest : List Move) : (s.withAgenda rest).baudFrac = s.baudFrac := rfl
@[simp] theorem State.withAgenda_curByte (rest : List Move) : (s.withAgenda rest).curByte = s.curByte := rfl
@[simp] theorem State.withAgenda_curBit (rest : List Move) : (s.withAgenda rest).curBit = s.curBit := rfl
@[simp] theorem State.withAgenda_bitsLeft (rest : List Move) : (s.withAgenda rest).bitsLeft = s.bitsLeft := rfl
@[simp] theorem State.withAgenda_omegaLo (rest : List Move) : (s.withAgenda rest).omegaLo = s.omegaLo := rfl
@[simp] theorem State.withAgenda_omegaHi (rest : List Move) : (s.withAgenda rest).omegaHi = s.omegaHi := rfl
@[simp] theorem State.withAgenda_baudInc (rest : List Move) : (s.withAgenda rest).baudInc = s.baudInc := rfl
@[simp] theorem State.withAgenda_modN (rest : List Move) : (s.withAgenda rest).modN = s.modN := rfl
@[simp] theorem State.withAgenda_pos (rest : List Move) : (s.withAgenda rest).pos = s.pos := rfl
@[simp] theorem State.withAgenda_payload (rest : List Move) : (s.withAgenda rest).payload = s.payload := rfl
@[simp] theorem State.withAgenda_payloadTorn (rest : List Move) : (s.withAgenda rest).payloadTorn = s.payloadTorn := rfl
@[simp] theorem State.withAgenda_sinkReady (rest : List Move) : (s.withAgenda rest).sinkReady = s.sinkReady := rfl
@[simp] theorem State.withAgenda_samples (rest : List Move) : (s.withAgenda rest).samples = s.samples := rfl
@[simp] theorem State.withAgenda_readData (rest : List Move) : (s.withAgenda rest).readData = s.readData := rfl
@[simp] theorem State.withAgenda_draws (rest : List Move) : (s.withAgenda rest).draws = s.draws := rfl
@[simp] theorem State.withAgenda_agenda (rest : List Move) : (s.withAgenda rest).agenda = rest := rfl

@[simp] theorem State.latchIncrements_runState : (s.latchIncrements).runState = s.runState := by cases s; rfl
@[simp] theorem State.latchIncrements_done : (s.latchIncrements).done = s.done := by cases s; rfl
@[simp] theorem State.latchIncrements_drop : (s.latchIncrements).drop = s.drop := by cases s; rfl
@[simp] theorem State.latchIncrements_errCode : (s.latchIncrements).errCode = s.errCode := by cases s; rfl
@[simp] theorem State.latchIncrements_ieDone : (s.latchIncrements).ieDone = s.ieDone := by cases s; rfl
@[simp] theorem State.latchIncrements_ieErr : (s.latchIncrements).ieErr = s.ieErr := by cases s; rfl
@[simp] theorem State.latchIncrements_errCmd : (s.latchIncrements).errCmd = s.errCmd := by cases s; rfl
@[simp] theorem State.latchIncrements_ver : (s.latchIncrements).ver = s.ver := by cases s; rfl
@[simp] theorem State.latchIncrements_osUpdate : (s.latchIncrements).osUpdate = s.osUpdate := by cases s; rfl
@[simp] theorem State.latchIncrements_sampleRate : (s.latchIncrements).sampleRate = s.sampleRate := by cases s; rfl
@[simp] theorem State.latchIncrements_baudRate : (s.latchIncrements).baudRate = s.baudRate := by cases s; rfl
@[simp] theorem State.latchIncrements_fLo : (s.latchIncrements).fLo = s.fLo := by cases s; rfl
@[simp] theorem State.latchIncrements_fHi : (s.latchIncrements).fHi = s.fHi := by cases s; rfl
@[simp] theorem State.latchIncrements_payloadLen : (s.latchIncrements).payloadLen = s.payloadLen := by cases s; rfl
@[simp] theorem State.latchIncrements_block : (s.latchIncrements).block = s.block := by cases s; rfl
@[simp] theorem State.latchIncrements_pktLen : (s.latchIncrements).pktLen = s.pktLen := by cases s; rfl
@[simp] theorem State.latchIncrements_sampleCount : (s.latchIncrements).sampleCount = s.sampleCount := by cases s; rfl
@[simp] theorem State.latchIncrements_pktBuf : (s.latchIncrements).pktBuf = s.pktBuf := by cases s; rfl
@[simp] theorem State.latchIncrements_phase : (s.latchIncrements).phase = s.phase := by cases s; rfl
@[simp] theorem State.latchIncrements_baudFrac : (s.latchIncrements).baudFrac = s.baudFrac := by cases s; rfl
@[simp] theorem State.latchIncrements_curByte : (s.latchIncrements).curByte = s.curByte := by cases s; rfl
@[simp] theorem State.latchIncrements_curBit : (s.latchIncrements).curBit = s.curBit := by cases s; rfl
@[simp] theorem State.latchIncrements_bitsLeft : (s.latchIncrements).bitsLeft = s.bitsLeft := by cases s; rfl
@[simp] theorem State.latchIncrements_omegaLo : (s.latchIncrements).omegaLo = omega s.fLo s.sampleRate := by cases s; rfl
@[simp] theorem State.latchIncrements_omegaHi : (s.latchIncrements).omegaHi = omega s.fHi s.sampleRate := by cases s; rfl
@[simp] theorem State.latchIncrements_baudInc : (s.latchIncrements).baudInc = baudIncrement s.baudRate s.sampleRate := by cases s; rfl
@[simp] theorem State.latchIncrements_modN : (s.latchIncrements).modN = s.modN := by cases s; rfl
@[simp] theorem State.latchIncrements_pos : (s.latchIncrements).pos = s.pos := by cases s; rfl
@[simp] theorem State.latchIncrements_payload : (s.latchIncrements).payload = s.payload := by cases s; rfl
@[simp] theorem State.latchIncrements_payloadTorn : (s.latchIncrements).payloadTorn = s.payloadTorn := by cases s; rfl
@[simp] theorem State.latchIncrements_sinkReady : (s.latchIncrements).sinkReady = s.sinkReady := by cases s; rfl
@[simp] theorem State.latchIncrements_samples : (s.latchIncrements).samples = s.samples := by cases s; rfl
@[simp] theorem State.latchIncrements_readData : (s.latchIncrements).readData = s.readData := by cases s; rfl
@[simp] theorem State.latchIncrements_draws : (s.latchIncrements).draws = s.draws := by cases s; rfl
@[simp] theorem State.latchIncrements_agenda : (s.latchIncrements).agenda = s.agenda := by cases s; rfl

@[simp] theorem State.loadByte_runState (b : Byte) : (s.loadByte b).runState = s.runState := rfl
@[simp] theorem State.loadByte_done (b : Byte) : (s.loadByte b).done = s.done := rfl
@[simp] theorem State.loadByte_drop (b : Byte) : (s.loadByte b).drop = s.drop := rfl
@[simp] theorem State.loadByte_errCode (b : Byte) : (s.loadByte b).errCode = s.errCode := rfl
@[simp] theorem State.loadByte_ieDone (b : Byte) : (s.loadByte b).ieDone = s.ieDone := rfl
@[simp] theorem State.loadByte_ieErr (b : Byte) : (s.loadByte b).ieErr = s.ieErr := rfl
@[simp] theorem State.loadByte_errCmd (b : Byte) : (s.loadByte b).errCmd = s.errCmd := rfl
@[simp] theorem State.loadByte_ver (b : Byte) : (s.loadByte b).ver = s.ver := rfl
@[simp] theorem State.loadByte_osUpdate (b : Byte) : (s.loadByte b).osUpdate = s.osUpdate := rfl
@[simp] theorem State.loadByte_sampleRate (b : Byte) : (s.loadByte b).sampleRate = s.sampleRate := rfl
@[simp] theorem State.loadByte_baudRate (b : Byte) : (s.loadByte b).baudRate = s.baudRate := rfl
@[simp] theorem State.loadByte_fLo (b : Byte) : (s.loadByte b).fLo = s.fLo := rfl
@[simp] theorem State.loadByte_fHi (b : Byte) : (s.loadByte b).fHi = s.fHi := rfl
@[simp] theorem State.loadByte_payloadLen (b : Byte) : (s.loadByte b).payloadLen = s.payloadLen := rfl
@[simp] theorem State.loadByte_block (b : Byte) : (s.loadByte b).block = s.block := rfl
@[simp] theorem State.loadByte_pktLen (b : Byte) : (s.loadByte b).pktLen = s.pktLen := rfl
@[simp] theorem State.loadByte_sampleCount (b : Byte) : (s.loadByte b).sampleCount = s.sampleCount := rfl
@[simp] theorem State.loadByte_pktBuf (b : Byte) : (s.loadByte b).pktBuf = s.pktBuf := rfl
@[simp] theorem State.loadByte_phase (b : Byte) : (s.loadByte b).phase = s.phase := rfl
@[simp] theorem State.loadByte_baudFrac (b : Byte) : (s.loadByte b).baudFrac = s.baudFrac := rfl
@[simp] theorem State.loadByte_curByte (b : Byte) : (s.loadByte b).curByte = b := rfl
@[simp] theorem State.loadByte_curBit (b : Byte) : (s.loadByte b).curBit = b.getLsbD 0 := rfl
@[simp] theorem State.loadByte_bitsLeft (b : Byte) : (s.loadByte b).bitsLeft = 8 := rfl
@[simp] theorem State.loadByte_omegaLo (b : Byte) : (s.loadByte b).omegaLo = s.omegaLo := rfl
@[simp] theorem State.loadByte_omegaHi (b : Byte) : (s.loadByte b).omegaHi = s.omegaHi := rfl
@[simp] theorem State.loadByte_baudInc (b : Byte) : (s.loadByte b).baudInc = s.baudInc := rfl
@[simp] theorem State.loadByte_modN (b : Byte) : (s.loadByte b).modN = s.modN := rfl
@[simp] theorem State.loadByte_pos (b : Byte) : (s.loadByte b).pos = s.pos + 1 := rfl
@[simp] theorem State.loadByte_payload (b : Byte) : (s.loadByte b).payload = s.payload := rfl
@[simp] theorem State.loadByte_payloadTorn (b : Byte) : (s.loadByte b).payloadTorn = s.payloadTorn := rfl
@[simp] theorem State.loadByte_sinkReady (b : Byte) : (s.loadByte b).sinkReady = s.sinkReady := rfl
@[simp] theorem State.loadByte_samples (b : Byte) : (s.loadByte b).samples = s.samples := rfl
@[simp] theorem State.loadByte_readData (b : Byte) : (s.loadByte b).readData = s.readData := rfl
@[simp] theorem State.loadByte_draws (b : Byte) : (s.loadByte b).draws = s.draws := rfl
@[simp] theorem State.loadByte_agenda (b : Byte) : (s.loadByte b).agenda = s.agenda := rfl

@[simp] theorem State.advance_runState : (s.advance).runState = s.runState := by cases s; rfl
@[simp] theorem State.advance_done : (s.advance).done = s.done := by cases s; rfl
@[simp] theorem State.advance_drop : (s.advance).drop = s.drop := by cases s; rfl
@[simp] theorem State.advance_errCode : (s.advance).errCode = s.errCode := by cases s; rfl
@[simp] theorem State.advance_ieDone : (s.advance).ieDone = s.ieDone := by cases s; rfl
@[simp] theorem State.advance_ieErr : (s.advance).ieErr = s.ieErr := by cases s; rfl
@[simp] theorem State.advance_errCmd : (s.advance).errCmd = s.errCmd := by cases s; rfl
@[simp] theorem State.advance_ver : (s.advance).ver = s.ver := by cases s; rfl
@[simp] theorem State.advance_osUpdate : (s.advance).osUpdate = s.osUpdate := by cases s; rfl
@[simp] theorem State.advance_sampleRate : (s.advance).sampleRate = s.sampleRate := by cases s; rfl
@[simp] theorem State.advance_baudRate : (s.advance).baudRate = s.baudRate := by cases s; rfl
@[simp] theorem State.advance_fLo : (s.advance).fLo = s.fLo := by cases s; rfl
@[simp] theorem State.advance_fHi : (s.advance).fHi = s.fHi := by cases s; rfl
@[simp] theorem State.advance_payloadLen : (s.advance).payloadLen = s.payloadLen := by cases s; rfl
@[simp] theorem State.advance_block : (s.advance).block = s.block := by cases s; rfl
@[simp] theorem State.advance_pktLen : (s.advance).pktLen = s.pktLen := by cases s; rfl
@[simp] theorem State.advance_sampleCount : (s.advance).sampleCount = s.sampleCount + 1 := by cases s; rfl
@[simp] theorem State.advance_pktBuf : (s.advance).pktBuf = s.pktBuf := by cases s; rfl
@[simp] theorem State.advance_phase : (s.advance).phase = F64.add s.phase (if s.curBit then s.omegaHi else s.omegaLo) := by cases s; rfl
@[simp] theorem State.advance_baudFrac : (s.advance).baudFrac = F64.add s.baudFrac s.baudInc := by cases s; rfl
@[simp] theorem State.advance_curByte : (s.advance).curByte = s.curByte := by cases s; rfl
@[simp] theorem State.advance_curBit : (s.advance).curBit = s.curBit := by cases s; rfl
@[simp] theorem State.advance_bitsLeft : (s.advance).bitsLeft = s.bitsLeft := by cases s; rfl
@[simp] theorem State.advance_omegaLo : (s.advance).omegaLo = s.omegaLo := by cases s; rfl
@[simp] theorem State.advance_omegaHi : (s.advance).omegaHi = s.omegaHi := by cases s; rfl
@[simp] theorem State.advance_baudInc : (s.advance).baudInc = s.baudInc := by cases s; rfl
@[simp] theorem State.advance_modN : (s.advance).modN = s.modN := by cases s; rfl
@[simp] theorem State.advance_pos : (s.advance).pos = s.pos := by cases s; rfl
@[simp] theorem State.advance_payload : (s.advance).payload = s.payload := by cases s; rfl
@[simp] theorem State.advance_payloadTorn : (s.advance).payloadTorn = s.payloadTorn := by cases s; rfl
@[simp] theorem State.advance_sinkReady : (s.advance).sinkReady = s.sinkReady := by cases s; rfl
@[simp] theorem State.advance_samples : (s.advance).samples = F64.cosine s.phase :: s.samples := by cases s; rfl
@[simp] theorem State.advance_readData : (s.advance).readData = s.readData := by cases s; rfl
@[simp] theorem State.advance_draws : (s.advance).draws = s.draws := by cases s; rfl
@[simp] theorem State.advance_agenda : (s.advance).agenda = s.agenda := by cases s; rfl

@[simp] theorem State.endBit_runState : (s.endBit).runState = s.runState := by cases s; rfl
@[simp] theorem State.endBit_done : (s.endBit).done = s.done := by cases s; rfl
@[simp] theorem State.endBit_drop : (s.endBit).drop = s.drop := by cases s; rfl
@[simp] theorem State.endBit_errCode : (s.endBit).errCode = s.errCode := by cases s; rfl
@[simp] theorem State.endBit_ieDone : (s.endBit).ieDone = s.ieDone := by cases s; rfl
@[simp] theorem State.endBit_ieErr : (s.endBit).ieErr = s.ieErr := by cases s; rfl
@[simp] theorem State.endBit_errCmd : (s.endBit).errCmd = s.errCmd := by cases s; rfl
@[simp] theorem State.endBit_ver : (s.endBit).ver = s.ver := by cases s; rfl
@[simp] theorem State.endBit_osUpdate : (s.endBit).osUpdate = s.osUpdate := by cases s; rfl
@[simp] theorem State.endBit_sampleRate : (s.endBit).sampleRate = s.sampleRate := by cases s; rfl
@[simp] theorem State.endBit_baudRate : (s.endBit).baudRate = s.baudRate := by cases s; rfl
@[simp] theorem State.endBit_fLo : (s.endBit).fLo = s.fLo := by cases s; rfl
@[simp] theorem State.endBit_fHi : (s.endBit).fHi = s.fHi := by cases s; rfl
@[simp] theorem State.endBit_payloadLen : (s.endBit).payloadLen = s.payloadLen := by cases s; rfl
@[simp] theorem State.endBit_block : (s.endBit).block = s.block := by cases s; rfl
@[simp] theorem State.endBit_pktLen : (s.endBit).pktLen = s.pktLen := by cases s; rfl
@[simp] theorem State.endBit_sampleCount : (s.endBit).sampleCount = s.sampleCount := by cases s; rfl
@[simp] theorem State.endBit_pktBuf : (s.endBit).pktBuf = s.pktBuf := by cases s; rfl
@[simp] theorem State.endBit_phase : (s.endBit).phase = s.phase := by cases s; rfl
@[simp] theorem State.endBit_baudFrac : (s.endBit).baudFrac = F64.sub s.baudFrac F64.one := by cases s; rfl
@[simp] theorem State.endBit_curByte : (s.endBit).curByte = s.curByte := by cases s; rfl
@[simp] theorem State.endBit_curBit : (s.endBit).curBit = s.curBit := by cases s; rfl
@[simp] theorem State.endBit_bitsLeft : (s.endBit).bitsLeft = s.bitsLeft - 1 := by cases s; rfl
@[simp] theorem State.endBit_omegaLo : (s.endBit).omegaLo = s.omegaLo := by cases s; rfl
@[simp] theorem State.endBit_omegaHi : (s.endBit).omegaHi = s.omegaHi := by cases s; rfl
@[simp] theorem State.endBit_baudInc : (s.endBit).baudInc = s.baudInc := by cases s; rfl
@[simp] theorem State.endBit_modN : (s.endBit).modN = s.modN := by cases s; rfl
@[simp] theorem State.endBit_pos : (s.endBit).pos = s.pos := by cases s; rfl
@[simp] theorem State.endBit_payload : (s.endBit).payload = s.payload := by cases s; rfl
@[simp] theorem State.endBit_payloadTorn : (s.endBit).payloadTorn = s.payloadTorn := by cases s; rfl
@[simp] theorem State.endBit_sinkReady : (s.endBit).sinkReady = s.sinkReady := by cases s; rfl
@[simp] theorem State.endBit_samples : (s.endBit).samples = s.samples := by cases s; rfl
@[simp] theorem State.endBit_readData : (s.endBit).readData = s.readData := by cases s; rfl
@[simp] theorem State.endBit_draws : (s.endBit).draws = s.draws := by cases s; rfl
@[simp] theorem State.endBit_agenda : (s.endBit).agenda = s.agenda := by cases s; rfl

@[simp] theorem State.resetOscillator_runState : (s.resetOscillator).runState = s.runState := rfl
@[simp] theorem State.resetOscillator_done : (s.resetOscillator).done = s.done := rfl
@[simp] theorem State.resetOscillator_drop : (s.resetOscillator).drop = s.drop := rfl
@[simp] theorem State.resetOscillator_errCode : (s.resetOscillator).errCode = s.errCode := rfl
@[simp] theorem State.resetOscillator_ieDone : (s.resetOscillator).ieDone = s.ieDone := rfl
@[simp] theorem State.resetOscillator_ieErr : (s.resetOscillator).ieErr = s.ieErr := rfl
@[simp] theorem State.resetOscillator_errCmd : (s.resetOscillator).errCmd = s.errCmd := rfl
@[simp] theorem State.resetOscillator_ver : (s.resetOscillator).ver = s.ver := rfl
@[simp] theorem State.resetOscillator_osUpdate : (s.resetOscillator).osUpdate = s.osUpdate := rfl
@[simp] theorem State.resetOscillator_sampleRate : (s.resetOscillator).sampleRate = s.sampleRate := rfl
@[simp] theorem State.resetOscillator_baudRate : (s.resetOscillator).baudRate = s.baudRate := rfl
@[simp] theorem State.resetOscillator_fLo : (s.resetOscillator).fLo = s.fLo := rfl
@[simp] theorem State.resetOscillator_fHi : (s.resetOscillator).fHi = s.fHi := rfl
@[simp] theorem State.resetOscillator_payloadLen : (s.resetOscillator).payloadLen = s.payloadLen := rfl
@[simp] theorem State.resetOscillator_block : (s.resetOscillator).block = s.block := rfl
@[simp] theorem State.resetOscillator_pktLen : (s.resetOscillator).pktLen = s.pktLen := rfl
@[simp] theorem State.resetOscillator_sampleCount : (s.resetOscillator).sampleCount = 0 := rfl
@[simp] theorem State.resetOscillator_pktBuf : (s.resetOscillator).pktBuf = s.pktBuf := rfl
@[simp] theorem State.resetOscillator_phase : (s.resetOscillator).phase = 0 := rfl
@[simp] theorem State.resetOscillator_baudFrac : (s.resetOscillator).baudFrac = 0 := rfl
@[simp] theorem State.resetOscillator_curByte : (s.resetOscillator).curByte = 0 := rfl
@[simp] theorem State.resetOscillator_curBit : (s.resetOscillator).curBit = false := rfl
@[simp] theorem State.resetOscillator_bitsLeft : (s.resetOscillator).bitsLeft = 0 := rfl
@[simp] theorem State.resetOscillator_omegaLo : (s.resetOscillator).omegaLo = s.omegaLo := rfl
@[simp] theorem State.resetOscillator_omegaHi : (s.resetOscillator).omegaHi = s.omegaHi := rfl
@[simp] theorem State.resetOscillator_baudInc : (s.resetOscillator).baudInc = s.baudInc := rfl
@[simp] theorem State.resetOscillator_modN : (s.resetOscillator).modN = s.modN := rfl
@[simp] theorem State.resetOscillator_pos : (s.resetOscillator).pos = s.pos := rfl
@[simp] theorem State.resetOscillator_payload : (s.resetOscillator).payload = s.payload := rfl
@[simp] theorem State.resetOscillator_payloadTorn : (s.resetOscillator).payloadTorn = s.payloadTorn := rfl
@[simp] theorem State.resetOscillator_sinkReady : (s.resetOscillator).sinkReady = s.sinkReady := rfl
@[simp] theorem State.resetOscillator_samples : (s.resetOscillator).samples = s.samples := rfl
@[simp] theorem State.resetOscillator_readData : (s.resetOscillator).readData = s.readData := rfl
@[simp] theorem State.resetOscillator_draws : (s.resetOscillator).draws = s.draws := rfl
@[simp] theorem State.resetOscillator_agenda : (s.resetOscillator).agenda = s.agenda := rfl

@[simp] theorem State.statusWrite_runState (w : Word) : (s.statusWrite w).runState = s.runState := rfl
@[simp] theorem State.statusWrite_done (w : Word) : (s.statusWrite w).done = (s.done && !w.getLsbD 2) := rfl
@[simp] theorem State.statusWrite_drop (w : Word) : (s.statusWrite w).drop = (s.drop && !w.getLsbD 3) := rfl
@[simp] theorem State.statusWrite_errCode (w : Word) : (s.statusWrite w).errCode = s.errCode := rfl
@[simp] theorem State.statusWrite_ieDone (w : Word) : (s.statusWrite w).ieDone = s.ieDone := rfl
@[simp] theorem State.statusWrite_ieErr (w : Word) : (s.statusWrite w).ieErr = s.ieErr := rfl
@[simp] theorem State.statusWrite_errCmd (w : Word) : (s.statusWrite w).errCmd = s.errCmd := rfl
@[simp] theorem State.statusWrite_ver (w : Word) : (s.statusWrite w).ver = s.ver := rfl
@[simp] theorem State.statusWrite_osUpdate (w : Word) : (s.statusWrite w).osUpdate = s.osUpdate := rfl
@[simp] theorem State.statusWrite_sampleRate (w : Word) : (s.statusWrite w).sampleRate = s.sampleRate := rfl
@[simp] theorem State.statusWrite_baudRate (w : Word) : (s.statusWrite w).baudRate = s.baudRate := rfl
@[simp] theorem State.statusWrite_fLo (w : Word) : (s.statusWrite w).fLo = s.fLo := rfl
@[simp] theorem State.statusWrite_fHi (w : Word) : (s.statusWrite w).fHi = s.fHi := rfl
@[simp] theorem State.statusWrite_payloadLen (w : Word) : (s.statusWrite w).payloadLen = s.payloadLen := rfl
@[simp] theorem State.statusWrite_block (w : Word) : (s.statusWrite w).block = s.block := rfl
@[simp] theorem State.statusWrite_pktLen (w : Word) : (s.statusWrite w).pktLen = s.pktLen := rfl
@[simp] theorem State.statusWrite_sampleCount (w : Word) : (s.statusWrite w).sampleCount = s.sampleCount := rfl
@[simp] theorem State.statusWrite_pktBuf (w : Word) : (s.statusWrite w).pktBuf = s.pktBuf := rfl
@[simp] theorem State.statusWrite_phase (w : Word) : (s.statusWrite w).phase = s.phase := rfl
@[simp] theorem State.statusWrite_baudFrac (w : Word) : (s.statusWrite w).baudFrac = s.baudFrac := rfl
@[simp] theorem State.statusWrite_curByte (w : Word) : (s.statusWrite w).curByte = s.curByte := rfl
@[simp] theorem State.statusWrite_curBit (w : Word) : (s.statusWrite w).curBit = s.curBit := rfl
@[simp] theorem State.statusWrite_bitsLeft (w : Word) : (s.statusWrite w).bitsLeft = s.bitsLeft := rfl
@[simp] theorem State.statusWrite_omegaLo (w : Word) : (s.statusWrite w).omegaLo = s.omegaLo := rfl
@[simp] theorem State.statusWrite_omegaHi (w : Word) : (s.statusWrite w).omegaHi = s.omegaHi := rfl
@[simp] theorem State.statusWrite_baudInc (w : Word) : (s.statusWrite w).baudInc = s.baudInc := rfl
@[simp] theorem State.statusWrite_modN (w : Word) : (s.statusWrite w).modN = s.modN := rfl
@[simp] theorem State.statusWrite_pos (w : Word) : (s.statusWrite w).pos = s.pos := rfl
@[simp] theorem State.statusWrite_payload (w : Word) : (s.statusWrite w).payload = s.payload := rfl
@[simp] theorem State.statusWrite_payloadTorn (w : Word) : (s.statusWrite w).payloadTorn = s.payloadTorn := rfl
@[simp] theorem State.statusWrite_sinkReady (w : Word) : (s.statusWrite w).sinkReady = s.sinkReady := rfl
@[simp] theorem State.statusWrite_samples (w : Word) : (s.statusWrite w).samples = s.samples := rfl
@[simp] theorem State.statusWrite_readData (w : Word) : (s.statusWrite w).readData = s.readData := rfl
@[simp] theorem State.statusWrite_draws (w : Word) : (s.statusWrite w).draws = s.draws := rfl
@[simp] theorem State.statusWrite_agenda (w : Word) : (s.statusWrite w).agenda = s.agenda := rfl

@[simp] theorem State.resetBlock_runState : (s.resetBlock).runState = .idle := rfl
@[simp] theorem State.resetBlock_done : (s.resetBlock).done = false := rfl
@[simp] theorem State.resetBlock_drop : (s.resetBlock).drop = false := rfl
@[simp] theorem State.resetBlock_errCode : (s.resetBlock).errCode = none := rfl
@[simp] theorem State.resetBlock_ieDone : (s.resetBlock).ieDone = false := rfl
@[simp] theorem State.resetBlock_ieErr : (s.resetBlock).ieErr = false := rfl
@[simp] theorem State.resetBlock_errCmd : (s.resetBlock).errCmd = 0 := rfl
@[simp] theorem State.resetBlock_ver : (s.resetBlock).ver = 0 := rfl
@[simp] theorem State.resetBlock_osUpdate : (s.resetBlock).osUpdate = false := rfl
@[simp] theorem State.resetBlock_sampleRate : (s.resetBlock).sampleRate = 0 := rfl
@[simp] theorem State.resetBlock_baudRate : (s.resetBlock).baudRate = 0 := rfl
@[simp] theorem State.resetBlock_fLo : (s.resetBlock).fLo = 0 := rfl
@[simp] theorem State.resetBlock_fHi : (s.resetBlock).fHi = 0 := rfl
@[simp] theorem State.resetBlock_payloadLen : (s.resetBlock).payloadLen = 0 := rfl
@[simp] theorem State.resetBlock_block : (s.resetBlock).block = 0 := rfl
@[simp] theorem State.resetBlock_pktLen : (s.resetBlock).pktLen = 0 := rfl
@[simp] theorem State.resetBlock_sampleCount : (s.resetBlock).sampleCount = 0 := rfl
@[simp] theorem State.resetBlock_pktBuf : (s.resetBlock).pktBuf = freeBuffer s.draws := rfl
@[simp] theorem State.resetBlock_phase : (s.resetBlock).phase = 0 := rfl
@[simp] theorem State.resetBlock_baudFrac : (s.resetBlock).baudFrac = 0 := rfl
@[simp] theorem State.resetBlock_curByte : (s.resetBlock).curByte = 0 := rfl
@[simp] theorem State.resetBlock_curBit : (s.resetBlock).curBit = false := rfl
@[simp] theorem State.resetBlock_bitsLeft : (s.resetBlock).bitsLeft = 0 := rfl
@[simp] theorem State.resetBlock_omegaLo : (s.resetBlock).omegaLo = 0 := rfl
@[simp] theorem State.resetBlock_omegaHi : (s.resetBlock).omegaHi = 0 := rfl
@[simp] theorem State.resetBlock_baudInc : (s.resetBlock).baudInc = 0 := rfl
@[simp] theorem State.resetBlock_modN : (s.resetBlock).modN = 0 := rfl
@[simp] theorem State.resetBlock_pos : (s.resetBlock).pos = 0 := rfl
@[simp] theorem State.resetBlock_payload : (s.resetBlock).payload = s.payload := rfl
@[simp] theorem State.resetBlock_payloadTorn : (s.resetBlock).payloadTorn = false := rfl
@[simp] theorem State.resetBlock_sinkReady : (s.resetBlock).sinkReady = s.sinkReady := rfl
@[simp] theorem State.resetBlock_samples : (s.resetBlock).samples = s.samples := rfl
@[simp] theorem State.resetBlock_readData : (s.resetBlock).readData = s.readData := rfl
@[simp] theorem State.resetBlock_draws : (s.resetBlock).draws = s.draws + 1 := rfl
@[simp] theorem State.resetBlock_agenda : (s.resetBlock).agenda = s.agenda := rfl

@[simp] theorem buildStep_runState (kind : PacketKind) : (buildStep kind s).runState = .idle := rfl
@[simp] theorem buildStep_done (kind : PacketKind) : (buildStep kind s).done = true := rfl
@[simp] theorem buildStep_drop (kind : PacketKind) : (buildStep kind s).drop = s.drop := rfl
@[simp] theorem buildStep_errCode (kind : PacketKind) : (buildStep kind s).errCode = s.errCode := rfl
@[simp] theorem buildStep_ieDone (kind : PacketKind) : (buildStep kind s).ieDone = s.ieDone := rfl
@[simp] theorem buildStep_ieErr (kind : PacketKind) : (buildStep kind s).ieErr = s.ieErr := rfl
@[simp] theorem buildStep_errCmd (kind : PacketKind) : (buildStep kind s).errCmd = s.errCmd := rfl
@[simp] theorem buildStep_ver (kind : PacketKind) : (buildStep kind s).ver = s.ver := rfl
@[simp] theorem buildStep_osUpdate (kind : PacketKind) : (buildStep kind s).osUpdate = s.osUpdate := rfl
@[simp] theorem buildStep_sampleRate (kind : PacketKind) : (buildStep kind s).sampleRate = s.sampleRate := rfl
@[simp] theorem buildStep_baudRate (kind : PacketKind) : (buildStep kind s).baudRate = s.baudRate := rfl
@[simp] theorem buildStep_fLo (kind : PacketKind) : (buildStep kind s).fLo = s.fLo := rfl
@[simp] theorem buildStep_fHi (kind : PacketKind) : (buildStep kind s).fHi = s.fHi := rfl
@[simp] theorem buildStep_payloadLen (kind : PacketKind) : (buildStep kind s).payloadLen = s.payloadLen := rfl
@[simp] theorem buildStep_block (kind : PacketKind) : (buildStep kind s).block = s.block := rfl
@[simp] theorem buildStep_sampleCount (kind : PacketKind) : (buildStep kind s).sampleCount = s.sampleCount := rfl
@[simp] theorem buildStep_phase (kind : PacketKind) : (buildStep kind s).phase = s.phase := rfl
@[simp] theorem buildStep_baudFrac (kind : PacketKind) : (buildStep kind s).baudFrac = s.baudFrac := rfl
@[simp] theorem buildStep_curByte (kind : PacketKind) : (buildStep kind s).curByte = s.curByte := rfl
@[simp] theorem buildStep_curBit (kind : PacketKind) : (buildStep kind s).curBit = s.curBit := rfl
@[simp] theorem buildStep_bitsLeft (kind : PacketKind) : (buildStep kind s).bitsLeft = s.bitsLeft := rfl
@[simp] theorem buildStep_omegaLo (kind : PacketKind) : (buildStep kind s).omegaLo = s.omegaLo := rfl
@[simp] theorem buildStep_omegaHi (kind : PacketKind) : (buildStep kind s).omegaHi = s.omegaHi := rfl
@[simp] theorem buildStep_baudInc (kind : PacketKind) : (buildStep kind s).baudInc = s.baudInc := rfl
@[simp] theorem buildStep_modN (kind : PacketKind) : (buildStep kind s).modN = s.modN := rfl
@[simp] theorem buildStep_pos (kind : PacketKind) : (buildStep kind s).pos = s.pos := rfl
@[simp] theorem buildStep_payload (kind : PacketKind) : (buildStep kind s).payload = s.payload := rfl
@[simp] theorem buildStep_payloadTorn (kind : PacketKind) : (buildStep kind s).payloadTorn = false := rfl
@[simp] theorem buildStep_sinkReady (kind : PacketKind) : (buildStep kind s).sinkReady = s.sinkReady := rfl
@[simp] theorem buildStep_samples (kind : PacketKind) : (buildStep kind s).samples = s.samples := rfl
@[simp] theorem buildStep_readData (kind : PacketKind) : (buildStep kind s).readData = s.readData := rfl
@[simp] theorem buildStep_draws (kind : PacketKind) : (buildStep kind s).draws = (if s.payloadTorn then s.draws + 1 else s.draws) := rfl
@[simp] theorem buildStep_agenda (kind : PacketKind) : (buildStep kind s).agenda = s.agenda := rfl

@[simp] theorem hostRead_runState (a : Offset) : (hostRead a s).runState = s.runState := rfl
@[simp] theorem hostRead_done (a : Offset) : (hostRead a s).done = s.done := rfl
@[simp] theorem hostRead_drop (a : Offset) : (hostRead a s).drop = s.drop := rfl
@[simp] theorem hostRead_errCode (a : Offset) : (hostRead a s).errCode = s.errCode := rfl
@[simp] theorem hostRead_ieDone (a : Offset) : (hostRead a s).ieDone = s.ieDone := rfl
@[simp] theorem hostRead_ieErr (a : Offset) : (hostRead a s).ieErr = s.ieErr := rfl
@[simp] theorem hostRead_errCmd (a : Offset) : (hostRead a s).errCmd = s.errCmd := rfl
@[simp] theorem hostRead_ver (a : Offset) : (hostRead a s).ver = s.ver := rfl
@[simp] theorem hostRead_osUpdate (a : Offset) : (hostRead a s).osUpdate = s.osUpdate := rfl
@[simp] theorem hostRead_sampleRate (a : Offset) : (hostRead a s).sampleRate = s.sampleRate := rfl
@[simp] theorem hostRead_baudRate (a : Offset) : (hostRead a s).baudRate = s.baudRate := rfl
@[simp] theorem hostRead_fLo (a : Offset) : (hostRead a s).fLo = s.fLo := rfl
@[simp] theorem hostRead_fHi (a : Offset) : (hostRead a s).fHi = s.fHi := rfl
@[simp] theorem hostRead_payloadLen (a : Offset) : (hostRead a s).payloadLen = s.payloadLen := rfl
@[simp] theorem hostRead_block (a : Offset) : (hostRead a s).block = s.block := rfl
@[simp] theorem hostRead_pktLen (a : Offset) : (hostRead a s).pktLen = s.pktLen := rfl
@[simp] theorem hostRead_sampleCount (a : Offset) : (hostRead a s).sampleCount = s.sampleCount := rfl
@[simp] theorem hostRead_pktBuf (a : Offset) : (hostRead a s).pktBuf = s.pktBuf := rfl
@[simp] theorem hostRead_phase (a : Offset) : (hostRead a s).phase = s.phase := rfl
@[simp] theorem hostRead_baudFrac (a : Offset) : (hostRead a s).baudFrac = s.baudFrac := rfl
@[simp] theorem hostRead_curByte (a : Offset) : (hostRead a s).curByte = s.curByte := rfl
@[simp] theorem hostRead_curBit (a : Offset) : (hostRead a s).curBit = s.curBit := rfl
@[simp] theorem hostRead_bitsLeft (a : Offset) : (hostRead a s).bitsLeft = s.bitsLeft := rfl
@[simp] theorem hostRead_omegaLo (a : Offset) : (hostRead a s).omegaLo = s.omegaLo := rfl
@[simp] theorem hostRead_omegaHi (a : Offset) : (hostRead a s).omegaHi = s.omegaHi := rfl
@[simp] theorem hostRead_baudInc (a : Offset) : (hostRead a s).baudInc = s.baudInc := rfl
@[simp] theorem hostRead_modN (a : Offset) : (hostRead a s).modN = s.modN := rfl
@[simp] theorem hostRead_pos (a : Offset) : (hostRead a s).pos = s.pos := rfl
@[simp] theorem hostRead_payload (a : Offset) : (hostRead a s).payload = s.payload := rfl
@[simp] theorem hostRead_payloadTorn (a : Offset) : (hostRead a s).payloadTorn = s.payloadTorn := rfl
@[simp] theorem hostRead_sinkReady (a : Offset) : (hostRead a s).sinkReady = s.sinkReady := rfl
@[simp] theorem hostRead_samples (a : Offset) : (hostRead a s).samples = s.samples := rfl
@[simp] theorem hostRead_readData (a : Offset) : (hostRead a s).readData = regRead a s := rfl
@[simp] theorem hostRead_draws (a : Offset) : (hostRead a s).draws = (if s.readIsFree a then s.draws + 1 else s.draws) := rfl
@[simp] theorem hostRead_agenda (a : Offset) : (hostRead a s).agenda = s.agenda := rfl

@[simp] theorem payloadWrite_runState (a : BitVec 32) (v : Byte) : (payloadWrite a v s).runState = s.runState := rfl
@[simp] theorem payloadWrite_done (a : BitVec 32) (v : Byte) : (payloadWrite a v s).done = s.done := rfl
@[simp] theorem payloadWrite_drop (a : BitVec 32) (v : Byte) : (payloadWrite a v s).drop = s.drop := rfl
@[simp] theorem payloadWrite_errCode (a : BitVec 32) (v : Byte) : (payloadWrite a v s).errCode = s.errCode := rfl
@[simp] theorem payloadWrite_ieDone (a : BitVec 32) (v : Byte) : (payloadWrite a v s).ieDone = s.ieDone := rfl
@[simp] theorem payloadWrite_ieErr (a : BitVec 32) (v : Byte) : (payloadWrite a v s).ieErr = s.ieErr := rfl
@[simp] theorem payloadWrite_errCmd (a : BitVec 32) (v : Byte) : (payloadWrite a v s).errCmd = s.errCmd := rfl
@[simp] theorem payloadWrite_ver (a : BitVec 32) (v : Byte) : (payloadWrite a v s).ver = s.ver := rfl
@[simp] theorem payloadWrite_osUpdate (a : BitVec 32) (v : Byte) : (payloadWrite a v s).osUpdate = s.osUpdate := rfl
@[simp] theorem payloadWrite_sampleRate (a : BitVec 32) (v : Byte) : (payloadWrite a v s).sampleRate = s.sampleRate := rfl
@[simp] theorem payloadWrite_baudRate (a : BitVec 32) (v : Byte) : (payloadWrite a v s).baudRate = s.baudRate := rfl
@[simp] theorem payloadWrite_fLo (a : BitVec 32) (v : Byte) : (payloadWrite a v s).fLo = s.fLo := rfl
@[simp] theorem payloadWrite_fHi (a : BitVec 32) (v : Byte) : (payloadWrite a v s).fHi = s.fHi := rfl
@[simp] theorem payloadWrite_payloadLen (a : BitVec 32) (v : Byte) : (payloadWrite a v s).payloadLen = s.payloadLen := rfl
@[simp] theorem payloadWrite_block (a : BitVec 32) (v : Byte) : (payloadWrite a v s).block = s.block := rfl
@[simp] theorem payloadWrite_pktLen (a : BitVec 32) (v : Byte) : (payloadWrite a v s).pktLen = s.pktLen := rfl
@[simp] theorem payloadWrite_sampleCount (a : BitVec 32) (v : Byte) : (payloadWrite a v s).sampleCount = s.sampleCount := rfl
@[simp] theorem payloadWrite_pktBuf (a : BitVec 32) (v : Byte) : (payloadWrite a v s).pktBuf = s.pktBuf := rfl
@[simp] theorem payloadWrite_phase (a : BitVec 32) (v : Byte) : (payloadWrite a v s).phase = s.phase := rfl
@[simp] theorem payloadWrite_baudFrac (a : BitVec 32) (v : Byte) : (payloadWrite a v s).baudFrac = s.baudFrac := rfl
@[simp] theorem payloadWrite_curByte (a : BitVec 32) (v : Byte) : (payloadWrite a v s).curByte = s.curByte := rfl
@[simp] theorem payloadWrite_curBit (a : BitVec 32) (v : Byte) : (payloadWrite a v s).curBit = s.curBit := rfl
@[simp] theorem payloadWrite_bitsLeft (a : BitVec 32) (v : Byte) : (payloadWrite a v s).bitsLeft = s.bitsLeft := rfl
@[simp] theorem payloadWrite_omegaLo (a : BitVec 32) (v : Byte) : (payloadWrite a v s).omegaLo = s.omegaLo := rfl
@[simp] theorem payloadWrite_omegaHi (a : BitVec 32) (v : Byte) : (payloadWrite a v s).omegaHi = s.omegaHi := rfl
@[simp] theorem payloadWrite_baudInc (a : BitVec 32) (v : Byte) : (payloadWrite a v s).baudInc = s.baudInc := rfl
@[simp] theorem payloadWrite_modN (a : BitVec 32) (v : Byte) : (payloadWrite a v s).modN = s.modN := rfl
@[simp] theorem payloadWrite_pos (a : BitVec 32) (v : Byte) : (payloadWrite a v s).pos = s.pos := rfl
@[simp] theorem payloadWrite_payload (a : BitVec 32) (v : Byte) : (payloadWrite a v s).payload = s.payload.write a.toNat v := rfl
@[simp] theorem payloadWrite_sinkReady (a : BitVec 32) (v : Byte) : (payloadWrite a v s).sinkReady = s.sinkReady := rfl
@[simp] theorem payloadWrite_samples (a : BitVec 32) (v : Byte) : (payloadWrite a v s).samples = s.samples := rfl
@[simp] theorem payloadWrite_readData (a : BitVec 32) (v : Byte) : (payloadWrite a v s).readData = s.readData := rfl
@[simp] theorem payloadWrite_draws (a : BitVec 32) (v : Byte) : (payloadWrite a v s).draws = s.draws := rfl
@[simp] theorem payloadWrite_agenda (a : BitVec 32) (v : Byte) : (payloadWrite a v s).agenda = s.agenda := rfl

@[simp] theorem beginModulation_drop (n : Nat) : (beginModulation n s).drop = s.drop := by
  unfold beginModulation; simp only []; split
  · split <;> simp_all
  · simp
@[simp] theorem beginModulation_errCode (n : Nat) : (beginModulation n s).errCode = s.errCode := by
  unfold beginModulation; simp only []; split
  · split <;> simp_all
  · simp
@[simp] theorem beginModulation_ieDone (n : Nat) : (beginModulation n s).ieDone = s.ieDone := by
  unfold beginModulation; simp only []; split
  · split <;> simp_all
  · simp
@[simp] theorem beginModulation_ieErr (n : Nat) : (beginModulation n s).ieErr = s.ieErr := by
  unfold beginModulation; simp only []; split
  · split <;> simp_all
  · simp
@[simp] theorem beginModulation_errCmd (n : Nat) : (beginModulation n s).errCmd = s.errCmd := by
  unfold beginModulation; simp only []; split
  · split <;> simp_all
  · simp
@[simp] theorem beginModulation_ver (n : Nat) : (beginModulation n s).ver = s.ver := by
  unfold beginModulation; simp only []; split
  · split <;> simp_all
  · simp
@[simp] theorem beginModulation_osUpdate (n : Nat) : (beginModulation n s).osUpdate = s.osUpdate := by
  unfold beginModulation; simp only []; split
  · split <;> simp_all
  · simp
@[simp] theorem beginModulation_sampleRate (n : Nat) : (beginModulation n s).sampleRate = s.sampleRate := by
  unfold beginModulation; simp only []; split
  · split <;> simp_all
  · simp
@[simp] theorem beginModulation_baudRate (n : Nat) : (beginModulation n s).baudRate = s.baudRate := by
  unfold beginModulation; simp only []; split
  · split <;> simp_all
  · simp
@[simp] theorem beginModulation_fLo (n : Nat) : (beginModulation n s).fLo = s.fLo := by
  unfold beginModulation; simp only []; split
  · split <;> simp_all
  · simp
@[simp] theorem beginModulation_fHi (n : Nat) : (beginModulation n s).fHi = s.fHi := by
  unfold beginModulation; simp only []; split
  · split <;> simp_all
  · simp
@[simp] theorem beginModulation_payloadLen (n : Nat) : (beginModulation n s).payloadLen = s.payloadLen := by
  unfold beginModulation; simp only []; split
  · split <;> simp_all
  · simp
@[simp] theorem beginModulation_block (n : Nat) : (beginModulation n s).block = s.block := by
  unfold beginModulation; simp only []; split
  · split <;> simp_all
  · simp
@[simp] theorem beginModulation_pktLen (n : Nat) : (beginModulation n s).pktLen = s.pktLen := by
  unfold beginModulation; simp only []; split
  · split <;> simp_all
  · simp
@[simp] theorem beginModulation_sampleCount (n : Nat) : (beginModulation n s).sampleCount = s.sampleCount := by
  unfold beginModulation; simp only []; split
  · split <;> simp_all
  · simp
@[simp] theorem beginModulation_pktBuf (n : Nat) : (beginModulation n s).pktBuf = s.pktBuf := by
  unfold beginModulation; simp only []; split
  · split <;> simp_all
  · simp
@[simp] theorem beginModulation_phase (n : Nat) : (beginModulation n s).phase = s.phase := by
  unfold beginModulation; simp only []; split
  · split <;> simp_all
  · simp
@[simp] theorem beginModulation_baudFrac (n : Nat) : (beginModulation n s).baudFrac = s.baudFrac := by
  unfold beginModulation; simp only []; split
  · split <;> simp_all
  · simp
@[simp] theorem beginModulation_omegaLo (n : Nat) : (beginModulation n s).omegaLo = omega s.fLo s.sampleRate := by
  unfold beginModulation; simp only []; split
  · split <;> simp_all
  · simp
@[simp] theorem beginModulation_omegaHi (n : Nat) : (beginModulation n s).omegaHi = omega s.fHi s.sampleRate := by
  unfold beginModulation; simp only []; split
  · split <;> simp_all
  · simp
@[simp] theorem beginModulation_baudInc (n : Nat) : (beginModulation n s).baudInc = baudIncrement s.baudRate s.sampleRate := by
  unfold beginModulation; simp only []; split
  · split <;> simp_all
  · simp
@[simp] theorem beginModulation_modN (n : Nat) : (beginModulation n s).modN = n := by
  unfold beginModulation; simp only []; split
  · split <;> simp_all
  · simp
@[simp] theorem beginModulation_payload (n : Nat) : (beginModulation n s).payload = s.payload := by
  unfold beginModulation; simp only []; split
  · split <;> simp_all
  · simp
@[simp] theorem beginModulation_payloadTorn (n : Nat) : (beginModulation n s).payloadTorn = s.payloadTorn := by
  unfold beginModulation; simp only []; split
  · split <;> simp_all
  · simp
@[simp] theorem beginModulation_sinkReady (n : Nat) : (beginModulation n s).sinkReady = s.sinkReady := by
  unfold beginModulation; simp only []; split
  · split <;> simp_all
  · simp
@[simp] theorem beginModulation_samples (n : Nat) : (beginModulation n s).samples = s.samples := by
  unfold beginModulation; simp only []; split
  · split <;> simp_all
  · simp
@[simp] theorem beginModulation_readData (n : Nat) : (beginModulation n s).readData = s.readData := by
  unfold beginModulation; simp only []; split
  · split <;> simp_all
  · simp
@[simp] theorem beginModulation_draws (n : Nat) : (beginModulation n s).draws = s.draws := by
  unfold beginModulation; simp only []; split
  · split <;> simp_all
  · simp
@[simp] theorem beginModulation_agenda (n : Nat) : (beginModulation n s).agenda = s.agenda := by
  unfold beginModulation; simp only []; split
  · split <;> simp_all
  · simp

end Sys2Proof.Machine
end

