-- ==== Sys2Proof/Laws/Exec.lean ====
section
/-! SUPPORT. What each shared operation of the machine can do, said once: acceptance, the prologue, exec,
the sample step, ENGINE's step, register-port writes, a step. -/

namespace Sys2Proof.Machine

section Accept

variable {s t : State} {run : State → Result}

theorem accept_idle (h : s.runState = .idle) : accept s run = run s := by simp [accept, h]

theorem accept_busy (h : (∃ kind, s.runState = .build kind) ∨ s.runState = .mod) :
    accept s run = .next s.setDrop := by
  rcases h with ⟨kind, h⟩ | h <;> simp [accept, h]

theorem accept_error (h : s.runState = .error) : accept s run = .next s := by simp [accept, h]

/-- An accepted word runs in IDLE, is dropped in BUILD and MOD, is ignored in ERROR (R102). -/
theorem accept_cases (h : accept s run = .next t) :
    (s.runState = .idle ∧ run s = .next t)
    ∨ (((∃ kind, s.runState = .build kind) ∨ s.runState = .mod) ∧ t = s.setDrop)
    ∨ (s.runState = .error ∧ t = s) := by
  unfold accept at h
  split at h
  · exact .inl ⟨‹_›, h⟩
  · cases h; exact .inr (.inl ⟨.inl ⟨_, ‹_›⟩, rfl⟩)
  · cases h; exact .inr (.inl ⟨.inr ‹_›, rfl⟩)
  · cases h; exact .inr (.inr ⟨‹_›, rfl⟩)

end Accept

section Modulation

/-- The state after the prologue of a command with `n` bytes (R93), by whether there is a byte to send. -/
theorem beginModulation_of_no_bit {s : State} (n : Nat) (h : s.bitsLeft = 0) :
    beginModulation n s =
      if n = 0 then ({ s.latchIncrements with modN := 0, pos := 0 } : State).complete
      else { ({ s.latchIncrements with modN := n, pos := 0 } : State).loadByte s.pktBuf[0] with
        runState := .mod } := by
  unfold beginModulation
  simp only [State.latchIncrements_bitsLeft, h, if_true, State.latchIncrements_pktBuf]
  split
  · rename_i hn; rw [hn]
  · rfl

/-- The state after the prologue of a command with at least one byte (R93). -/
theorem beginModulation_bytes {s : State} {n : Nat} (h : s.bitsLeft = 0) (hn : 1 ≤ n) :
    beginModulation n s = { s with
      runState := .mod
      omegaLo := omega s.fLo s.sampleRate
      omegaHi := omega s.fHi s.sampleRate
      baudInc := baudIncrement s.baudRate s.sampleRate
      modN := n, pos := 1
      curByte := s.pktBuf[0], curBit := s.pktBuf[0].getLsbD 0, bitsLeft := 8 } := by
  rw [beginModulation_of_no_bit n h, if_neg (by omega)]
  cases s; rfl

/-- The state after the prologue of a command with no byte (R93). -/
theorem beginModulation_empty {s : State} (h : s.bitsLeft = 0) :
    beginModulation 0 s = { s with
      runState := .idle, done := true
      omegaLo := omega s.fLo s.sampleRate
      omegaHi := omega s.fHi s.sampleRate
      baudInc := baudIncrement s.baudRate s.sampleRate
      modN := 0, pos := 0 } := by
  rw [beginModulation_of_no_bit 0 h, if_pos rfl]
  cases s; rfl

/-- The prologue leaves STATE at MOD, or at IDLE with the command complete (R93). -/
theorem beginModulation_runState (n : Nat) (s : State) :
    (beginModulation n s).runState = .mod
    ∨ ((beginModulation n s).runState = .idle ∧ (beginModulation n s).done = true) := by
  unfold beginModulation
  simp only []
  split
  · split <;> simp
  · simp

/-- What the prologue leaves as it was (R93). -/
theorem beginModulation_frame (n : Nat) (s : State) :
    SameConfig s (beginModulation n s) ∧ SameEnables s (beginModulation n s)
    ∧ SamePacket s (beginModulation n s) ∧ SameOutside s (beginModulation n s) := by
  refine ⟨⟨?_, ?_, ?_, ?_, ?_, ?_, ?_, ?_⟩, ⟨?_, ?_⟩, ⟨?_, ?_⟩, ⟨?_, ?_, ?_, ?_, ?_, ?_, ?_⟩⟩ <;>
    simp [State.pktRead]

/-- The prologue raises CFG_NUMERIC or begins the modulation (R93). -/
theorem prologue_cases {n : Nat} {w : Word} {s t : State} (h : prologue n w s = .next t) :
    (s.ratesIllegal = true ∧ t = s.raiseError .cfgNumeric w)
    ∨ (s.ratesIllegal = false ∧ t = beginModulation n s) := by
  unfold prologue at h
  split at h
  · cases h; exact .inl ⟨‹_›, rfl⟩
  · rename_i hr; cases h; exact .inr ⟨by simpa using hr, rfl⟩

theorem ratesIllegal_eq_false_iff {s : State} :
    s.ratesIllegal = false ↔ 0 < s.baudRate.toNat ∧ s.baudRate.toNat < s.sampleRate.toNat := by
  simp only [State.ratesIllegal, Bool.or_eq_false_iff, beq_eq_false_iff_ne, decide_eq_false_iff_not]
  omega

end Modulation

section Exec

/-- What exec can do: the word is dropped or ignored, or in IDLE the command completes, starts a build,
resets the oscillator, begins a modulation of a number of bytes the buffer holds or PKT_LEN says, or raises
an error with its own command word. -/
theorem exec_cases {i : Instr} {s t : State} (h : exec i s = .next t) :
    (((∃ kind, s.runState = .build kind) ∨ s.runState = .mod) ∧ t = s.setDrop)
    ∨ (s.runState = .error ∧ t = s)
    ∨ (s.runState = .idle ∧
      (t = s.complete
      ∨ (∃ kind, s.versionLegal = true ∧ t = { s with runState := .build kind })
      ∨ t = s.resetOscillator.complete
      ∨ (∃ n, (n ≤ 512 ∨ n = s.pktLen.toNat) ∧ s.ratesIllegal = false ∧ t = beginModulation n s)
      ∨ (∃ code, t = s.raiseError code (encode i)))) := by
  cases i with
  | nop =>
    have h' : accept s (fun s => .next s.complete) = .next t := h
    rcases accept_cases h' with ⟨h1, h2⟩ | h1 | h1
    · cases h2; exact .inr (.inr ⟨h1, .inl rfl⟩)
    · exact .inl h1
    · exact .inr (.inl h1)
  | buildCtrl =>
    rcases accept_cases h with ⟨h1, h2⟩ | h1 | h1
    · unfold startBuild at h2
      split at h2
      · cases h2; exact .inr (.inr ⟨h1, .inr (.inl ⟨_, ‹_›, rfl⟩)⟩)
      · cases h2; exact .inr (.inr ⟨h1, .inr (.inr (.inr (.inr ⟨_, rfl⟩)))⟩)
    · exact .inl h1
    · exact .inr (.inl h1)
  | buildData =>
    rcases accept_cases h with ⟨h1, h2⟩ | h1 | h1
    · unfold startBuild at h2
      split at h2
      · cases h2; exact .inr (.inr ⟨h1, .inr (.inl ⟨_, ‹_›, rfl⟩)⟩)
      · cases h2; exact .inr (.inr ⟨h1, .inr (.inr (.inr (.inr ⟨_, rfl⟩)))⟩)
    · exact .inl h1
    · exact .inr (.inl h1)
  | modBuf len =>
    rcases accept_cases h with ⟨h1, h2⟩ | h1 | h1
    · unfold startModBuf at h2
      split at h2
      · cases h2; exact .inr (.inr ⟨h1, .inr (.inr (.inr (.inr ⟨_, rfl⟩)))⟩)
      · rename_i hlen
        rcases prologue_cases h2 with ⟨h3, h4⟩ | ⟨h3, h4⟩
        · exact .inr (.inr ⟨h1, .inr (.inr (.inr (.inr ⟨_, h4⟩)))⟩)
        · exact .inr (.inr ⟨h1, .inr (.inr (.inr (.inl
            ⟨len, .inl (by simpa [Config.pktBufSize] using hlen), h3, h4⟩)))⟩)
    · exact .inl h1
    · exact .inr (.inl h1)
  | modPkt =>
    rcases accept_cases h with ⟨h1, h2⟩ | h1 | h1
    · rcases prologue_cases h2 with ⟨h3, h4⟩ | ⟨h3, h4⟩
      · exact .inr (.inr ⟨h1, .inr (.inr (.inr (.inr ⟨_, h4⟩)))⟩)
      · exact .inr (.inr ⟨h1, .inr (.inr (.inr (.inl ⟨_, .inr rfl, h3, h4⟩)))⟩)
    · exact .inl h1
    · exact .inr (.inl h1)
  | oscReset =>
    have h' : accept s (fun s => .next s.resetOscillator.complete) = .next t := h
    rcases accept_cases h' with ⟨h1, h2⟩ | h1 | h1
    · cases h2; exact .inr (.inr ⟨h1, .inr (.inr (.inl rfl))⟩)
    · exact .inl h1
    · exact .inr (.inl h1)

/-- A CMD write runs the command its word decodes to, or raises ILLEGAL_CMD where a command would run. -/
theorem cmdWrite_cases {w : Word} {s t : State} (h : cmdWrite w s = .next t) :
    (∃ i, decode w = .ok i ∧ exec i s = .next t)
    ∨ (((∃ kind, s.runState = .build kind) ∨ s.runState = .mod) ∧ t = s.setDrop)
    ∨ (s.runState = .error ∧ t = s)
    ∨ ((s.runState = .idle ∧ ∃ e, decode w = .error e) ∧ t = s.raiseError .illegalCmd w) := by
  unfold cmdWrite at h
  split at h
  · exact .inl ⟨_, ‹_›, h⟩
  · rcases accept_cases h with ⟨h1, h2⟩ | h1 | h1
    · cases h2; exact .inr (.inr (.inr ⟨⟨h1, _, ‹_›⟩, rfl⟩))
    · exact .inr (.inl h1)
    · exact .inr (.inr (.inl h1))

end Exec

section Engine

/-- The end of a sample step that ends a bit: completion, the next byte, or the next bit (R94, R95). -/
theorem nextBit_cases {s t : State} (h : nextBit s = .next t) :
    (s.bitsLeft = 0 ∧ s.pos = s.modN ∧ t = s.complete)
    ∨ (s.bitsLeft = 0 ∧ s.pos ≠ s.modN ∧ ∃ b, s.pktRead s.pos = some b ∧ t = s.loadByte b)
    ∨ (s.bitsLeft ≠ 0 ∧ t = { s with curBit := s.curByte.getLsbD (8 - s.bitsLeft.toNat) }) := by
  unfold nextBit at h
  split at h
  · split at h
    · cases h; exact .inl ⟨‹_›, ‹_›, rfl⟩
    · split at h
      · cases h; exact .inr (.inl ⟨‹_›, ‹_›, _, ‹_›, rfl⟩)
      · cases h
  · cases h; exact .inr (.inr ⟨‹_›, rfl⟩)

/-- A sample step advances the datapath, and ends the bit where BAUD_FRAC exceeds 1.0 (R94). -/
theorem sampleStep_cases {s t : State} (h : sampleStep s = .next t) :
    s.bitsLeft ≠ 0 ∧ s.bitsLeft.toNat ≤ 8 ∧
    ((F64.gt s.advance.baudFrac F64.one = false ∧ t = s.advance)
    ∨ (F64.gt s.advance.baudFrac F64.one = true ∧ nextBit s.advance.endBit = .next t)) := by
  unfold sampleStep at h
  split at h
  · cases h
  · rename_i hb
    push Not at hb
    refine ⟨hb.1, by omega, ?_⟩
    split at h
    · exact .inr ⟨‹_›, h⟩
    · rename_i hg; cases h; exact .inl ⟨Bool.eq_false_iff.2 hg, rfl⟩

/-- ENGINE's step while a bit is in progress and SINK is ready (R94, R103). -/
theorem engineStep_of_sending {s : State} (hm : s.runState = .mod) (hr : s.sinkReady = true)
    (h1 : 1 ≤ s.bitsLeft.toNat) (h8 : s.bitsLeft.toNat ≤ 8) :
    engineStep s = if F64.gt s.advance.baudFrac F64.one then nextBit s.advance.endBit
      else .next s.advance := by
  have hb : s.bitsLeft ≠ 0 := by rintro h; rw [h] at h1; simp at h1
  simp only [engineStep, hm, hr, if_true, sampleStep]
  rw [if_neg (by push Not; exact ⟨hb, by omega⟩)]

/-- ENGINE's step: nothing, the build step, or a sample step (R103). -/
theorem engineStep_cases {s t : State} (h : engineStep s = .next t) :
    ((s.runState = .idle ∨ s.runState = .error ∨ (s.runState = .mod ∧ s.sinkReady = false)) ∧ t = s)
    ∨ (∃ kind, s.runState = .build kind ∧ t = buildStep kind s)
    ∨ (s.runState = .mod ∧ s.sinkReady = true ∧ sampleStep s = .next t) := by
  unfold engineStep at h
  split at h
  · cases h; exact .inl ⟨.inl ‹_›, rfl⟩
  · cases h; exact .inr (.inl ⟨_, ‹_›, rfl⟩)
  · split at h
    · exact .inr (.inr ⟨‹_›, ‹_›, h⟩)
    · rename_i hm hr; cases h; exact .inl ⟨.inr (.inr ⟨hm, Bool.eq_false_iff.2 hr⟩), rfl⟩
  · cases h; exact .inl ⟨.inr (.inl ‹_›), rfl⟩

/-- An enabled step that leaves STATE at IDLE completes the command (R104). -/
theorem engineStep_done {s t : State} (h : engineStep s = .next t) (h1 : s.engineEnabled = true)
    (h2 : t.runState = .idle) : t.done = true := by
  rcases engineStep_cases h with ⟨h3, -⟩ | ⟨kind, -, rfl⟩ | ⟨hm, -, h3⟩
  · rcases h3 with h3 | h3 | ⟨h3, h4⟩
    · simp [State.engineEnabled, h3] at h1
    · simp [State.engineEnabled, h3] at h1
    · simp [State.engineEnabled, h3, h4] at h1
  · rfl
  · obtain ⟨-, -, ⟨-, rfl⟩ | ⟨-, h5⟩⟩ := sampleStep_cases h3
    · rw [State.advance_runState, hm] at h2; cases h2
    · rcases nextBit_cases h5 with ⟨-, -, rfl⟩ | ⟨-, -, b, -, rfl⟩ | ⟨-, rfl⟩
      · rfl
      · simp [hm] at h2
      · simp [hm] at h2

end Engine

section Port

theorem takesWrites_iff {s : State} :
    s.takesWrites = true ↔ s.runState = .idle ∨ s.runState = .error := by
  unfold State.takesWrites; split <;> simp_all

theorem takesWrites_eq_false_iff {s : State} :
    s.takesWrites = false ↔ (∃ kind, s.runState = .build kind) ∨ s.runState = .mod := by
  unfold State.takesWrites; split <;> simp_all

theorem configWrite_taken {s : State} {store : State → State} (h : s.takesWrites = true) :
    s.configWrite store = store s := by simp [State.configWrite, h]

theorem configWrite_dropped {s : State} {store : State → State} (h : s.takesWrites = false) :
    s.configWrite store = s.setDrop := by simp [State.configWrite, h]

/-- A write away from CMD: nothing, DROP, one configuration register, one window word, or a STATUS or CTRL
write (R107). -/
inductive SlotWritten (s : State) (w : Word) (slot : Slot) : State → Prop
  | same : SlotWritten s w slot s
  | dropped : s.takesWrites = false → SlotWritten s w slot s.setDrop
  | config (t : State) : s.takesWrites = true →
      t = { s with
        ver := t.ver, osUpdate := t.osUpdate, sampleRate := t.sampleRate, baudRate := t.baudRate
        fLo := t.fLo, fHi := t.fHi, payloadLen := t.payloadLen, block := t.block } →
      SlotWritten s w slot t
  | window (k : Fin 128) : slot = .pkt k → s.takesWrites = true →
      SlotWritten s w slot { s with pktBuf := windowWrite s.pktBuf k w }
  | status : slot = .status → SlotWritten s w slot (s.statusWrite w)
  | enables (d e : Bool) : SlotWritten s w slot { s with ieDone := d, ieErr := e }
  | reset (d e : Bool) : slot = .ctrl → w.getLsbD 0 = true →
      SlotWritten s w slot ({ s with ieDone := d, ieErr := e } : State).resetBlock

theorem slotWrite_cases (w : Word) (s : State) (slot : Slot) :
    SlotWritten s w slot (slotWrite w s slot) := by
  cases htw : s.takesWrites
  · cases slot <;> simp only [slotWrite, State.configWrite, htw, Bool.false_eq_true, if_false] <;>
      first
        | exact .same
        | exact .dropped htw
        | exact .status rfl
        | (unfold State.ctrlWrite; simp only []; split
           · exact .reset _ _ rfl ‹_›
           · exact .enables _ _)
  · cases slot <;> simp only [slotWrite, State.configWrite, htw, if_true] <;>
      first
        | exact .same
        | exact .status rfl
        | exact .window _ rfl htw
        | exact .config _ htw rfl
        | (unfold State.ctrlWrite; simp only []; split
           · exact .reset _ _ rfl ‹_›
           · exact .enables _ _)

/-- A register-port write: a CMD write, or a write of another slot. -/
theorem regWrite_cases {a : Offset} {w : Word} {s t : State} (h : regWrite a w s = .next t) :
    (slotOf a = .cmd ∧ cmdWrite w s = .next t)
    ∨ (slotOf a ≠ .cmd ∧ SlotWritten s w (slotOf a) t) := by
  unfold regWrite at h
  split at h
  · exact .inl ⟨‹_›, h⟩
  · cases h; exact .inr ⟨‹_›, slotWrite_cases _ _ _⟩

end Port

end Sys2Proof.Machine
end

