-- ==== Sys2Proof/Laws/F64.lean ====
section
/-! SUPPORT. Rounding keeps the order of the exact values, and gives an exact value back: what every bound on
a binary64 result rests on. -/

namespace Sys2Proof.Machine.F64

/-- The integer nearest to a greater ratio is at least as great. -/
theorem nearestEven_mono {p q p' q' : Nat} (hq : 0 < q) (hq' : 0 < q') (h : p * q' ≤ p' * q) :
    nearestEven p q ≤ nearestEven p' q' := by
  have e := Nat.div_add_mod p q
  have e' := Nat.div_add_mod p' q'
  have r := Nat.mod_lt p hq
  have r' := Nat.mod_lt p' hq'
  have hm : p / q ≤ p' / q' := by
    rw [Nat.le_div_iff_mul_le hq']
    have : (p / q) * q' * q ≤ p' * q :=
      calc (p / q) * q' * q = (q * (p / q)) * q' := by ring
        _ ≤ p * q' := Nat.mul_le_mul_right _ (Nat.mul_div_le p q)
        _ ≤ p' * q := h
    exact Nat.le_of_mul_le_mul_right this hq
  unfold nearestEven
  rcases Nat.lt_or_eq_of_le hm with hlt | heq
  · simp only []
    split <;> split <;> omega
  · rw [← heq] at e' ⊢
    generalize p / q = m at *
    generalize p % q = x at *
    generalize p' % q' = x' at *
    subst e; subst e'
    have hx : x * q' ≤ x' * q := by nlinarith
    have up : (q < 2 * x ∨ (2 * x = q ∧ m % 2 = 1)) → (q' < 2 * x' ∨ (2 * x' = q' ∧ m % 2 = 1)) := by
      rintro (h1 | ⟨h1, h2⟩)
      · left
        by_contra hc
        have : 2 * x' * q ≤ q' * q := Nat.mul_le_mul_right _ (by omega)
        have : q * q' < 2 * x * q' := Nat.mul_lt_mul_of_pos_right h1 hq'
        nlinarith
      · have : q' * q ≤ 2 * x' * q := by subst h1; nlinarith
        have := Nat.le_of_mul_le_mul_right this hq
        omega
    simp only [Bool.or_eq_true, decide_eq_true_eq, Bool.and_eq_true, beq_iff_eq]
    split <;> split
    · exact Nat.le_refl _
    · rename_i h1 h2; exact absurd (up h1) h2
    · omega
    · exact Nat.le_refl _

theorem nearestEven_le_succ (p q : Nat) : nearestEven p q ≤ p / q + 1 := by
  unfold nearestEven; simp only []; split <;> omega

theorem div_le_nearestEven (p q : Nat) : p / q ≤ nearestEven p q := by
  unfold nearestEven; simp only []; split <;> omega

theorem div_le_div_of_cross {p q p' q' : Nat} (hq : 0 < q) (hq' : 0 < q') (h : p * q' ≤ p' * q) :
    p / q ≤ p' / q' := by
  rw [Nat.le_div_iff_mul_le hq']
  have : (p / q) * q' * q ≤ p' * q :=
    calc (p / q) * q' * q = (q * (p / q)) * q' := by ring
      _ ≤ p * q' := Nat.mul_le_mul_right _ (Nat.mul_div_le p q)
      _ ≤ p' * q := h
  exact Nat.le_of_mul_le_mul_right this hq

theorem lastPlace_mono {p q p' q' : Nat} (hq : 0 < q) (hq' : 0 < q') (h : p * q' ≤ p' * q) :
    lastPlace p q ≤ lastPlace p' q' := by
  unfold lastPlace
  have h1 := div_le_div_of_cross hq hq' h
  have : (p / q).log2 ≤ (p' / q').log2 := by
    rw [Nat.log2_eq_log_two, Nat.log2_eq_log_two]
    exact Nat.log_mono_right h1
  omega

/-- The significand a value is rounded to never passes 2^53. -/
theorem significand_le (p q : Nat) : nearestEven p (q * 2 ^ lastPlace p q) ≤ 2 ^ 53 := by
  have h1 : p / (q * 2 ^ lastPlace p q) < 2 ^ 53 := by
    rw [← Nat.div_div_eq_div_mul, Nat.div_lt_iff_lt_mul (by positivity), ← Nat.pow_add]
    refine Nat.lt_of_lt_of_le Nat.lt_log2_self ?_
    apply Nat.pow_le_pow_right (by decide)
    unfold lastPlace; omega
  have := nearestEven_le_succ p (q * 2 ^ lastPlace p q)
  omega

/-- Above the subnormal range the significand has all its 53 bits. -/
theorem le_significand (p q : Nat) (h : 0 < lastPlace p q) :
    2 ^ 52 ≤ nearestEven p (q * 2 ^ lastPlace p q) := by
  refine Nat.le_trans ?_ (div_le_nearestEven _ _)
  have hpos : p / q ≠ 0 := by
    intro h0; simp [lastPlace, h0] at h
  rw [← Nat.div_div_eq_div_mul, Nat.le_div_iff_mul_le (by positivity), ← Nat.pow_add]
  refine Nat.le_trans ?_ (Nat.log2_self_le hpos)
  apply Nat.pow_le_pow_right (by decide)
  unfold lastPlace at *; omega

/-- Rounding keeps the order of the exact values. -/
theorem roundBits_mono {p q p' q' : Nat} (hq : 0 < q) (hq' : 0 < q') (h : p * q' ≤ p' * q) :
    roundBits p q ≤ roundBits p' q' := by
  unfold roundBits
  simp only []
  apply min_le_min (Nat.le_refl _)
  rcases Nat.lt_or_eq_of_le (lastPlace_mono hq hq' h) with hlt | heq
  · have h1 := significand_le p q
    have h2 := le_significand p' q' (by omega)
    have h3 : (lastPlace p q + 1) * 2 ^ 52 ≤ lastPlace p' q' * 2 ^ 52 := Nat.mul_le_mul_right _ hlt
    omega
  · rw [← heq]
    apply Nat.add_le_add_left
    apply nearestEven_mono (by positivity) (by positivity)
    calc p * (q' * 2 ^ lastPlace p q) = p * q' * 2 ^ lastPlace p q := by ring
      _ ≤ p' * q * 2 ^ lastPlace p q := Nat.mul_le_mul_right _ h
      _ = p' * (q * 2 ^ lastPlace p q) := by ring

theorem roundBits_le_infBits (p q : Nat) : roundBits p q ≤ infBits := by
  unfold roundBits; exact Nat.min_le_left _ _

/-- The exact value an encoding of 63 bits stands for, in units of 2^-1074. -/
def magBits (b : Nat) : Nat :=
  if b / 2 ^ 52 = 0 then b % 2 ^ 52 else (b % 2 ^ 52 + 2 ^ 52) * 2 ^ (b / 2 ^ 52 - 1)

/-- Rounding the exact value of a finite encoding gives the encoding back. -/
theorem roundBits_magBits {b : Nat} (h : b < infBits) : roundBits (magBits b) 1 = b := by
  have hd := Nat.div_add_mod b (2 ^ 52)
  have hm : b % 2 ^ 52 < 2 ^ 52 := Nat.mod_lt _ (by decide)
  unfold magBits
  generalize hf : b % 2 ^ 52 = f at *
  generalize he : b / 2 ^ 52 = e at *
  unfold roundBits lastPlace
  simp only [Nat.div_one]
  split
  · rename_i h0
    have hl : f.log2 < 52 ∨ f = 0 := by
      by_cases hz : f = 0
      · exact Or.inr hz
      · left; exact (Nat.log2_lt hz).2 hm
    have ht : f.log2 - 52 = 0 := by
      rcases hl with h1 | h1
      · omega
      · subst h1; decide
    rw [ht]
    simp [nearestEven, Nat.mod_one]
    unfold infBits at *; omega
  · rename_i h0
    have hpos : f + 2 ^ 52 ≠ 0 := by omega
    have hl : ((f + 2 ^ 52) * 2 ^ (e - 1)).log2 = 52 + (e - 1) := by
      rw [Nat.log2_eq_iff (by positivity)]
      constructor
      · rw [Nat.pow_add]; exact Nat.mul_le_mul_right _ (by omega)
      · rw [show 52 + (e - 1) + 1 = 53 + (e - 1) by omega, Nat.pow_add]
        exact Nat.mul_lt_mul_of_pos_right (by omega) (by positivity)
    rw [hl, show 52 + (e - 1) - 52 = e - 1 by omega]
    have hn : nearestEven ((f + 2 ^ 52) * 2 ^ (e - 1)) (1 * 2 ^ (e - 1)) = f + 2 ^ 52 := by
      have hk : 0 < 2 ^ (e - 1) := by positivity
      simp only [nearestEven, Nat.one_mul, Nat.mul_mod_left, Nat.mul_div_cancel _ hk]
      simp; omega
    rw [hn]
    have : (e - 1) * 2 ^ 52 + (f + 2 ^ 52) = b := by
      obtain ⟨k, rfl⟩ : ∃ k, e = k + 1 := ⟨e - 1, by omega⟩
      simp only [Nat.add_sub_cancel]
      omega
    rw [this]
    exact Nat.min_eq_right (Nat.le_of_lt h)

/-- The exact values of encodings are in the encodings' order. -/
theorem magBits_mono {a b : Nat} (h : a ≤ b) : magBits a ≤ magBits b := by
  have ha := Nat.div_add_mod a (2 ^ 52)
  have hb := Nat.div_add_mod b (2 ^ 52)
  have hma : a % 2 ^ 52 < 2 ^ 52 := Nat.mod_lt _ (by decide)
  have hmb : b % 2 ^ 52 < 2 ^ 52 := Nat.mod_lt _ (by decide)
  have hd : a / 2 ^ 52 ≤ b / 2 ^ 52 := Nat.div_le_div_right h
  unfold magBits
  generalize a % 2 ^ 52 = fa at *
  generalize a / 2 ^ 52 = ea at *
  generalize b % 2 ^ 52 = fb at *
  generalize b / 2 ^ 52 = eb at *
  split <;> split
  · omega
  · rename_i h1 h2
    calc fa ≤ (fb + 2 ^ 52) * 1 := by omega
      _ ≤ (fb + 2 ^ 52) * 2 ^ (eb - 1) := Nat.mul_le_mul_left _ Nat.one_le_two_pow
  · omega
  · rename_i h1 h2
    rcases Nat.lt_or_eq_of_le hd with hlt | heq
    · calc (fa + 2 ^ 52) * 2 ^ (ea - 1) ≤ 2 ^ 53 * 2 ^ (ea - 1) := Nat.mul_le_mul_right _ (by omega)
        _ = 2 ^ 52 * 2 ^ (ea - 1 + 1) := by rw [Nat.pow_add]; ring
        _ ≤ 2 ^ 52 * 2 ^ (eb - 1) := Nat.mul_le_mul_left _ (Nat.pow_le_pow_right (by decide) (by omega))
        _ ≤ (fb + 2 ^ 52) * 2 ^ (eb - 1) := Nat.mul_le_mul_right _ (by omega)
    · subst heq
      exact Nat.mul_le_mul_right _ (by omega)

theorem le_of_magBits_le {a b : Nat} (ha : a < infBits) (h : magBits a ≤ magBits b) (hb : b < infBits) :
    a ≤ b := by
  rw [← roundBits_magBits ha, ← roundBits_magBits hb]
  exact roundBits_mono (by decide) (by decide) (by omega)

section Nonnegative

/-- An encoding below infinity's is that of a finite value with sign bit 0. -/
theorem fields_of_lt {x : F64} (h : x.toNat < infBits) :
    sign x = false ∧ isNaN x = false ∧ isInf x = false ∧ isFinite x = true ∧ mag x = magBits x.toNat
      ∧ key x = x.toNat := by
  have hx : x.toNat < 2 ^ 64 := x.isLt
  have hexp : expo x = x.toNat / 2 ^ 52 := by
    simp only [expo, BitVec.extractLsb'_toNat, Nat.shiftRight_eq_div_pow]
    unfold infBits at h; omega
  have hfrac : frac x = x.toNat % 2 ^ 52 := by
    simp [frac, BitVec.extractLsb'_toNat]
  have hs : sign x = false := by
    simp only [sign, BitVec.getLsbD, Nat.testBit, Nat.shiftRight_eq_div_pow]
    have : x.toNat / 2 ^ 63 = 0 := by unfold infBits at h; omega
    simp only [this]; decide
  have he : expo x ≠ 2047 := by rw [hexp]; unfold infBits at h; omega
  refine ⟨hs, by simp [isNaN, he], by simp [isInf, he], by simp [isFinite, he], ?_, ?_⟩
  · simp only [mag, magBits, hexp, hfrac]
  · simp only [key, hs, BitVec.extractLsb'_toNat, Nat.shiftRight_zero]
    unfold infBits at h
    simp; omega

theorem units_of_lt {x : F64} (h : x.toNat < infBits) : units x = magBits x.toNat := by
  obtain ⟨hs, -, -, -, hm, -⟩ := fields_of_lt h
  simp [units, hs, hm]

theorem pack_toNat {n : Nat} (h : n ≤ infBits) : (pack false n).toNat = n := by
  unfold infBits at h
  simp only [pack, BitVec.toNat_append, BitVec.toNat_ofNat]
  simp
  omega

theorem ofUnits_toNat (n : Nat) : (ofUnits false n).toNat = roundBits n 1 := by
  unfold ofUnits
  split
  · rename_i h
    have : n = 0 := by exact_mod_cast h
    subst this
    rw [pack_toNat (by decide)]
    have := roundBits_magBits (b := 0) (by decide)
    simpa [magBits] using this.symm
  · rename_i h
    have : ¬ ((n : Int) < 0) := by omega
    simp only [this, decide_false, Int.natAbs_natCast]
    exact pack_toNat (roundBits_le_infBits _ _)

/-- The sum of two finite values that are not negative: the exact sum, rounded. -/
theorem add_toNat {a b : F64} (ha : a.toNat < infBits) (hb : b.toNat < infBits) :
    (add a b).toNat = roundBits (magBits a.toNat + magBits b.toNat) 1 := by
  obtain ⟨sa, na, ia, -, -, -⟩ := fields_of_lt ha
  obtain ⟨sb, nb, ib, -, -, -⟩ := fields_of_lt hb
  simp only [add, na, nb, ia, ib, sa, sb, units_of_lt ha, units_of_lt hb, Bool.or_self, Bool.and_self]
  simp only [Bool.false_eq_true, if_false]
  have := ofUnits_toNat (magBits a.toNat + magBits b.toNat)
  push_cast at this
  exact this

/-- The difference of two finite values, the first at least the second: the exact one, rounded. -/
theorem sub_toNat {a b : F64} (ha : a.toNat < infBits) (hb : b.toNat ≤ a.toNat) :
    (sub a b).toNat = roundBits (magBits a.toNat - magBits b.toNat) 1 := by
  have hb' : b.toNat < infBits := Nat.lt_of_le_of_lt hb ha
  obtain ⟨sa, na, ia, -, -, -⟩ := fields_of_lt ha
  obtain ⟨sb, nb, ib, -, -, -⟩ := fields_of_lt hb'
  simp only [sub, na, nb, ia, ib, sa, sb, units_of_lt ha, units_of_lt hb', Bool.or_self]
  simp only [Bool.false_eq_true, if_false, Bool.false_and]
  have := ofUnits_toNat (magBits a.toNat - magBits b.toNat)
  rw [Nat.cast_sub (magBits_mono hb)] at this
  exact this

/-- Adding greater values, none negative, gives a sum at least as great. -/
theorem add_mono {a b a' b' : F64} (ha : a.toNat ≤ a'.toNat) (hb : b.toNat ≤ b'.toNat)
    (ha' : a'.toNat < infBits) (hb' : b'.toNat < infBits) : (add a b).toNat ≤ (add a' b').toNat := by
  rw [add_toNat (Nat.lt_of_le_of_lt ha ha') (Nat.lt_of_le_of_lt hb hb'), add_toNat ha' hb']
  exact roundBits_mono (by decide) (by decide)
    (by have := magBits_mono ha; have := magBits_mono hb; omega)

/-- A sum is at least its first term. -/
theorem le_add {a b : F64} (ha : a.toNat < infBits) (hb : b.toNat < infBits) :
    a.toNat ≤ (add a b).toNat := by
  conv_lhs => rw [← roundBits_magBits ha]
  rw [add_toNat ha hb]
  exact roundBits_mono (by decide) (by decide) (by omega)

/-- Subtracting from a greater value gives a difference at least as great. -/
theorem sub_mono {a a' b : F64} (ha : a.toNat ≤ a'.toNat) (hb : b.toNat ≤ a.toNat)
    (ha' : a'.toNat < infBits) : (sub a b).toNat ≤ (sub a' b).toNat := by
  rw [sub_toNat (Nat.lt_of_le_of_lt ha ha') hb, sub_toNat ha' (Nat.le_trans hb ha)]
  exact roundBits_mono (by decide) (by decide) (by have := magBits_mono ha; omega)

theorem gt_iff {a b : F64} (ha : a.toNat < infBits) (hb : b.toNat < infBits) :
    gt a b = true ↔ b.toNat < a.toNat := by
  obtain ⟨-, na, -, -, -, ka⟩ := fields_of_lt ha
  obtain ⟨-, nb, -, -, -, kb⟩ := fields_of_lt hb
  simp [gt, na, nb, ka, kb]

end Nonnegative

section Signed

/-- An encoding built from its sign and its bits has them. -/
theorem sign_pack (s : Bool) (n : Nat) : sign (pack s n) = s := by
  unfold sign pack
  rw [BitVec.getLsbD_append]
  cases s <;> simp

theorem bits_pack (s : Bool) {n : Nat} (h : n ≤ infBits) : ((pack s n).extractLsb' 0 63).toNat = n := by
  unfold infBits at h
  unfold pack
  rw [BitVec.extractLsb'_append_eq_right, BitVec.toNat_ofNat]
  omega

/-- A finite encoding is no NaN and no infinity. -/
theorem classes_of_finite {x : F64} (h : isFinite x = true) : isNaN x = false ∧ isInf x = false := by
  unfold isFinite isNaN isInf at *
  simp at h
  simp [h]

/-- The bits 62:0 of a finite encoding, of either sign, lie below those of infinity and give its magnitude. -/
theorem mag_of_finite {x : F64} (h : isFinite x = true) :
    (x.extractLsb' 0 63).toNat < infBits ∧ mag x = magBits (x.extractLsb' 0 63).toNat := by
  have e1 : expo x = (x.extractLsb' 0 63).toNat / 2 ^ 52 := by
    have := x.isLt
    simp only [expo, BitVec.extractLsb'_toNat, Nat.shiftRight_eq_div_pow]; omega
  have e2 : frac x = (x.extractLsb' 0 63).toNat % 2 ^ 52 := by
    simp only [frac, BitVec.extractLsb'_toNat, Nat.shiftRight_eq_div_pow]; omega
  have hlt := (x.extractLsb' 0 63).isLt
  unfold isFinite at h
  simp at h
  exact ⟨by unfold infBits; omega, by unfold mag magBits; rw [e1, e2]⟩

end Signed

section Nearest

/-- The encoding that `roundBits` builds stands for its significand at its last place. -/
theorem magBits_grid {t m : Nat} (h : t = 0 ∨ 2 ^ 52 ≤ m) (h' : m ≤ 2 ^ 53) :
    magBits (t * 2 ^ 52 + m) = m * 2 ^ t := by
  unfold magBits
  rcases Nat.lt_or_ge m (2 ^ 52) with hm | hm
  · have ht : t = 0 := by omega
    subst ht
    rw [if_pos (by omega)]; omega
  · rcases Nat.lt_or_eq_of_le h' with hlt | rfl
    · rw [show (t * 2 ^ 52 + m) / 2 ^ 52 = t + 1 by omega,
        show (t * 2 ^ 52 + m) % 2 ^ 52 = m - 2 ^ 52 by omega, if_neg (by omega), Nat.sub_add_cancel hm,
        Nat.add_sub_cancel]
    · rw [show (t * 2 ^ 52 + 2 ^ 53) / 2 ^ 52 = t + 2 by omega,
        show (t * 2 ^ 52 + 2 ^ 53) % 2 ^ 52 = 0 by omega, if_neg (by omega), Nat.zero_add,
        show t + 2 - 1 = t + 1 by omega, Nat.pow_succ]
      ring

/-- The value of an encoding below infinity is a multiple of 2^t, or lies below 2^(52 + t). -/
theorem magBits_on_grid (b t : Nat) : (∃ k, magBits b = k * 2 ^ t) ∨ magBits b < 2 ^ (52 + t) := by
  have hm : b % 2 ^ 52 < 2 ^ 52 := Nat.mod_lt _ (by decide)
  unfold magBits
  split
  · right
    exact Nat.lt_of_lt_of_le hm (Nat.pow_le_pow_right (by decide) (by omega))
  · rename_i h0
    generalize b / 2 ^ 52 = e at *
    generalize b % 2 ^ 52 = f at *
    rcases Nat.lt_or_ge (e - 1) t with h | h
    · right
      have h1 : 2 ^ (52 + t) = 2 ^ 52 * 2 * 2 ^ (t - 1) := by
        rw [show 52 + t = 52 + 1 + (t - 1) by omega, Nat.pow_add, Nat.pow_add]
      rw [h1]
      exact Nat.mul_lt_mul_of_lt_of_le (by omega) (Nat.pow_le_pow_right (by decide) (by omega)) (by positivity)
    · left
      refine ⟨(f + 2 ^ 52) * 2 ^ (e - 1 - t), ?_⟩
      rw [Nat.mul_assoc, ← Nat.pow_add]; congr 2; omega

/-- The magnitude of an encoding given by its number. -/
theorem mag_ofNat {x : Nat} (h : x < infBits) : mag (BitVec.ofNat 64 x) = magBits x := by
  have hx : (BitVec.ofNat 64 x).toNat = x := by rw [BitVec.toNat_ofNat]; unfold infBits at h; omega
  obtain ⟨-, -, -, -, hm, -⟩ := fields_of_lt (x := BitVec.ofNat 64 x) (by rw [hx]; exact h)
  rw [hm, hx]

/-- No integer stands nearer to `p / q` than `nearestEven p q`, and where another stands as near it is even. -/
theorem nearestEven_near (p q : Nat) (hq : 0 < q) (k : Nat) :
    |(p : Int) - q * nearestEven p q| ≤ |(p : Int) - q * k| ∧
    (k ≠ nearestEven p q → |(p : Int) - q * nearestEven p q| = |(p : Int) - q * k| → nearestEven p q % 2 = 0) := by
  have hd := Nat.div_add_mod p q
  have hm : p % q < q := Nat.mod_lt _ hq
  unfold nearestEven
  simp only []
  generalize p / q = m at *
  generalize p % q = r at *
  subst hd
  by_cases hc : (decide (q < 2 * r) || (2 * r == q && m % 2 == 1)) = true
  · simp only [if_pos hc]; push_cast
    have h2 : q < 2 * r ∨ (2 * r = q ∧ m % 2 = 1) := by simpa using hc
    have h3 : q ≤ 2 * r := by omega
    have e : ((q : Int) * m + r) - q * ((m : Int) + 1) = -(q - r) := by ring
    rw [e, abs_neg, abs_of_nonneg (by omega)]
    rcases Nat.lt_or_ge k (m + 1) with hk | hk
    · obtain ⟨d, rfl⟩ := Nat.exists_eq_add_of_le (Nat.le_of_lt_succ hk)
      have e2 : ((q : Int) * ((k + d : Nat) : Int) + r) - q * k = q * d + r := by push_cast; ring
      have : 0 ≤ (q : Int) * d := by positivity
      rw [e2, abs_of_nonneg (by omega)]
      constructor
      · omega
      · intro _ h
        rcases h2 with h2 | h2
        · omega
        · omega
    · obtain ⟨d, rfl⟩ := Nat.exists_eq_add_of_le hk
      have e2 : ((q : Int) * m + r) - q * ((m + 1 + d : Nat) : Int) = -(q * d + (q - r)) := by push_cast; ring
      have hpos : 0 ≤ (q : Int) * d := by positivity
      rw [e2, abs_neg, abs_of_nonneg (by omega)]
      constructor
      · omega
      · intro hne h
        have : (q : Int) * d = 0 := by omega
        rcases mul_eq_zero.1 this with h | h <;> omega
  · simp only [if_neg hc]
    rw [Nat.cast_add, Nat.cast_mul]
    have h2 : ¬ (q < 2 * r ∨ (2 * r = q ∧ m % 2 = 1)) := by simpa using hc
    have e : ((q : Int) * m + r) - q * (m : Int) = r := by ring
    rw [e, abs_of_nonneg (by omega)]
    rcases Nat.lt_or_ge k (m + 1) with hk | hk
    · obtain ⟨d, rfl⟩ := Nat.exists_eq_add_of_le (Nat.le_of_lt_succ hk)
      have e2 : ((q : Int) * ((k + d : Nat) : Int) + r) - q * k = q * d + r := by push_cast; ring
      have : 0 ≤ (q : Int) * d := by positivity
      rw [e2, abs_of_nonneg (by omega)]
      constructor
      · omega
      · intro hne h
        have : (q : Int) * d = 0 := by omega
        rcases mul_eq_zero.1 this with h | h <;> omega
    · obtain ⟨d, rfl⟩ := Nat.exists_eq_add_of_le hk
      have e2 : ((q : Int) * m + r) - q * ((m + 1 + d : Nat) : Int) = -(q * d + (q - r)) := by push_cast; ring
      have hpos : 0 ≤ (q : Int) * d := by positivity
      rw [e2, abs_neg, abs_of_nonneg (by omega)]
      constructor
      · omega
      · intro hne h
        omega

/-- Above the subnormal range the last place lies 52 places below the leading one. -/
theorem add_lastPlace {p q : Nat} (h : 0 < lastPlace p q) : 52 + lastPlace p q = (p / q).log2 := by
  unfold lastPlace at *; omega

end Nearest

/-- COS of a finite value lies in [−1.0, 1.0] (R6). -/
theorem cosine_inUnitRange {x : F64} (h : isFinite x = true) : inUnitRange (cosine x) = true := by
  unfold cosine
  by_cases hr : inUnitRange (Config.cosRaw x) = true
  · simp [hr]
  · rw [if_pos (by simp [h, hr])]
    decide

end Sys2Proof.Machine.F64
end

