-- ==== Sys2Proof/Laws/Framer.lean ====
section
/-! SUPPORT. The framer's parts: striping byte by byte, the lengths of packets, and what the build step
leaves in the packet buffer. -/

namespace Sys2Proof.Machine

@[simp] theorem le32_length (v : Word) : (le32 v).length = 4 := rfl

@[simp] theorem xorFrom_length (mask : Nat → Byte) (q : Nat) (p : List Byte) :
    (xorFrom mask q p).length = p.length := by
  induction p generalizing q with
  | nil => rfl
  | cons b p ih => simp [xorFrom, ih]

/-- Each byte meets the mask of its own offset, and no other. -/
theorem xorFrom_getElem? (mask : Nat → Byte) (q : Nat) (p : List Byte) (i : Nat) :
    (xorFrom mask q p)[i]? = p[i]?.map (· ^^^ mask (q + i)) := by
  induction p generalizing q i with
  | nil => rfl
  | cons b p ih =>
    cases i with
    | zero => simp [xorFrom]
    | succ i => simp [xorFrom, ih, Nat.add_assoc, Nat.add_comm 1 i]

@[simp] theorem stripe_length (v : Byte) (p : List Byte) : (stripe v p).length = p.length := by
  unfold stripe stripe1 stripe2; split <;> simp

/-- STOP_LEN is 1 to 241 (R6), for every version. -/
theorem stopLen_range (v : Byte) : 1 ≤ stopLen v ∧ stopLen v ≤ 241 := by
  unfold stopLen Config.stopLenV1 Config.stopLenV2
  have := Config.stopIndexV1.isLt
  have := Config.stopIndexV2.isLt
  split <;> omega

theorem closePacket_length (v : Byte) (p : List Byte) :
    (closePacket v p).length = p.length + 4 + stopLen v := by
  simp [closePacket, footer, Nat.add_assoc]

@[simp] theorem controlOpening_length (s : State) : s.controlOpening.length = 35 := by
  simp [State.controlOpening, header, preamble]

@[simp] theorem dataBody_length (s : State) : s.dataBody.length = 256 := by simp [State.dataBody]

@[simp] theorem dataOpening_length (s : State) : s.dataOpening.length = 267 := by
  simp [State.dataOpening, header, preamble]

@[simp] theorem controlPacket_length (s : State) : s.controlPacket.length = 39 + stopLen s.ver := by
  simp [State.controlPacket, closePacket_length]

@[simp] theorem plainDataPacket_length (s : State) :
    s.plainDataPacket.length = 271 + stopLen s.ver := by
  simp [State.plainDataPacket, closePacket_length]

@[simp] theorem dataPacket_length (s : State) : s.dataPacket.length = 271 + stopLen s.ver := by
  simp [State.dataPacket]

/-- Every packet fits the packet buffer (R6). -/
theorem packetOf_length_le (s : State) (kind : PacketKind) : (s.packetOf kind).length ≤ 512 := by
  have := stopLen_range s.ver
  cases kind <;> simp [State.packetOf] <;> omega

/-- PKT_LEN after the build step is the packet's length (R89, R90). -/
theorem buildStep_pktLen (s : State) (kind : PacketKind) :
    (buildStep kind s).pktLen.toNat = (s.packetOf kind).length := by
  have := packetOf_length_le s kind
  simp only [buildStep, State.complete, BitVec.toNat_ofNat]
  omega

/-- The packet buffer after the build step: the packet, then what stood there before (R45, R89, R90). -/
theorem buildStep_pktRead (s : State) (kind : PacketKind) (i : Nat) :
    (buildStep kind s).pktRead i
      = if i < (s.packetOf kind).length then (s.packetOf kind)[i]? else s.pktRead i := by
  have := packetOf_length_le s kind
  simp only [buildStep, State.complete, State.pktRead, overlay_getElem?]
  by_cases h : i < (s.packetOf kind).length
  · rw [if_pos ⟨h, by omega⟩, if_pos h]
  · rw [if_neg (by omega), if_neg h]

end Sys2Proof.Machine
end

