-- ==== Sys2Proof/Laws/HostProcedure.lean ====
section
/-! SUPPORT. The number of silence samples: the duration times SILENCE_RATE, up to the rounding the spec
leaves open. -/

namespace Sys2Proof.Machine

/-- Where the duration times SILENCE_RATE is a whole number, that is the number of samples (R126). -/
theorem silenceSamples_exact {ms d n : Nat} (hd : 0 < d)
    (h : ms * Config.silenceRateNumerator = n * (d * Config.silenceRateDenominator)) :
    silenceSamples ms d = n := by
  have hq : 0 < d * Config.silenceRateDenominator := Nat.mul_pos hd (Nat.succ_pos _)
  simp only [silenceSamples, h, Nat.mul_mod_left, if_true, Nat.mul_div_cancel _ hq, Nat.add_zero]

/-- The number of samples is less than one away from the duration times SILENCE_RATE (R126, R136). -/
theorem silenceSamples_near (ms : Nat) {d : Nat} (hd : 0 < d) :
    silenceSamples ms d * (d * Config.silenceRateDenominator)
        < ms * Config.silenceRateNumerator + d * Config.silenceRateDenominator
    ∧ ms * Config.silenceRateNumerator
        < (silenceSamples ms d + 1) * (d * Config.silenceRateDenominator) := by
  have hq : 0 < d * Config.silenceRateDenominator := Nat.mul_pos hd (Nat.succ_pos _)
  unfold silenceSamples
  generalize ms * Config.silenceRateNumerator = p
  generalize d * Config.silenceRateDenominator = q at *
  simp only []
  generalize Config.silenceRoundsUp p q = up
  have hp := Nat.div_add_mod p q
  have hr := Nat.mod_lt p hq
  generalize p / q = m at *
  generalize p % q = r at *
  split
  · constructor <;> nlinarith
  · have hr' := Nat.pos_of_ne_zero ‹_›
    cases up <;>
    · simp only [Bool.toNat_true, Bool.toNat_false]
      constructor <;> nlinarith

end Sys2Proof.Machine
end

