-- ==== Sys2Proof/Laws/Numeric.lean ====
section
/-! SUPPORT. The modulator's numbers (spec/41_modulator.md rule R99): the increments of legal rates, the
bounds of one sample step on BAUD_FRAC and PHASE. Rounding never reverses an order (`F64.roundBits_mono`),
so each bound is the value at one extreme point. -/

namespace Sys2Proof.Machine.F64

theorem ofNat_toNat (n : Nat) : (ofNat n).toNat = roundBits (n * unitsInOne) 1 :=
  pack_toNat (roundBits_le_infBits _ _)

/-- Every natural below 2^53 is the value of an encoding (R9). -/
theorem exists_magBits {n : Nat} (h : n < 2 ^ 53) : ∃ b, b < infBits ∧ magBits b = n * unitsInOne := by
  rcases Nat.eq_zero_or_pos n with rfl | hn
  · exact ⟨0, by decide, by simp [magBits]⟩
  · have hk : n.log2 ≤ 52 := by
      have := (Nat.log2_lt (Nat.pos_iff_ne_zero.1 hn)).2 h; omega
    have h1 : 2 ^ n.log2 ≤ n := Nat.log2_self_le (Nat.pos_iff_ne_zero.1 hn)
    have h2 : n < 2 ^ (n.log2 + 1) := Nat.lt_log2_self
    generalize n.log2 = k at *
    have hl : 2 ^ 52 ≤ n * 2 ^ (52 - k) := by
      calc 2 ^ 52 = 2 ^ k * 2 ^ (52 - k) := by rw [← Nat.pow_add]; congr 1; omega
        _ ≤ _ := Nat.mul_le_mul_right _ h1
    have hu : n * 2 ^ (52 - k) < 2 ^ 53 := by
      calc n * 2 ^ (52 - k) < 2 ^ (k + 1) * 2 ^ (52 - k) := Nat.mul_lt_mul_of_pos_right h2 (by positivity)
        _ = 2 ^ 53 := by rw [← Nat.pow_add]; congr 1; omega
    have hd : ((1023 + k) * 2 ^ 52 + (n * 2 ^ (52 - k) - 2 ^ 52)) / 2 ^ 52 = 1023 + k := by omega
    have hm : ((1023 + k) * 2 ^ 52 + (n * 2 ^ (52 - k) - 2 ^ 52)) % 2 ^ 52 = n * 2 ^ (52 - k) - 2 ^ 52 := by
      omega
    refine ⟨(1023 + k) * 2 ^ 52 + (n * 2 ^ (52 - k) - 2 ^ 52), by unfold infBits; omega, ?_⟩
    have hx : 2 ^ (52 - k) * 2 ^ (1023 + k - 1) = 2 ^ 1074 := by
      rw [← Nat.pow_add, show 52 - k + (1023 + k - 1) = 1074 by omega]
    generalize (1023 + k) * 2 ^ 52 + (n * 2 ^ (52 - k) - 2 ^ 52) = b at *
    rw [magBits, hd, hm, if_neg (by omega), Nat.sub_add_cancel hl, unitsInOne, Nat.mul_assoc, hx]

/-- `f64(n)` is exact below 2^53 (R9). -/
theorem magBits_ofNat {n : Nat} (h : n < 2 ^ 53) :
    (ofNat n).toNat < infBits ∧ magBits (ofNat n).toNat = n * unitsInOne := by
  obtain ⟨b, hb, he⟩ := exists_magBits h
  have : (ofNat n).toNat = b := by rw [ofNat_toNat, ← he, roundBits_magBits hb]
  rw [this]; exact ⟨hb, he⟩

theorem mul_toNat {a b : F64} (ha : a.toNat < infBits) (hb : b.toNat < infBits) :
    (mul a b).toNat = roundBits (magBits a.toNat * magBits b.toNat) unitsInOne := by
  obtain ⟨sa, na, ia, -, ma, -⟩ := fields_of_lt ha
  obtain ⟨sb, nb, ib, -, mb, -⟩ := fields_of_lt hb
  simp only [mul, na, nb, ia, ib, sa, sb, ma, mb, Bool.or_self, bne_self_eq_false, Bool.false_eq_true, if_false]
  exact pack_toNat (roundBits_le_infBits _ _)

theorem div_toNat {a b : F64} (ha : a.toNat < infBits) (hb : b.toNat < infBits)
    (hb' : magBits b.toNat ≠ 0) :
    (div a b).toNat = roundBits (magBits a.toNat * unitsInOne) (magBits b.toNat) := by
  obtain ⟨sa, na, ia, -, ma, -⟩ := fields_of_lt ha
  obtain ⟨sb, nb, ib, -, mb, -⟩ := fields_of_lt hb
  simp only [div, na, nb, ia, ib, sa, sb, ma, mb, Bool.or_self, bne_self_eq_false, Bool.false_eq_true,
    if_false, if_neg hb']
  exact pack_toNat (roundBits_le_infBits _ _)

theorem unitsInOne_pos : 0 < unitsInOne := by unfold unitsInOne; positivity

/-- Up to 1.0 the next encoding is at most 2^-52 away. -/
theorem magBits_succ {b : Nat} (h : b ≤ one.toNat) : magBits (b + 1) ≤ magBits b + 2 ^ 1022 := by
  have h1 : b ≤ 1023 * 2 ^ 52 := h
  have hb := Nat.div_add_mod b (2 ^ 52)
  have hm : b % 2 ^ 52 < 2 ^ 52 := Nat.mod_lt _ (by decide)
  have he : b / 2 ^ 52 ≤ 1023 := by omega
  unfold magBits
  by_cases hc : b % 2 ^ 52 + 1 = 2 ^ 52
  · rw [show (b + 1) / 2 ^ 52 = b / 2 ^ 52 + 1 by omega, show (b + 1) % 2 ^ 52 = 0 by omega,
      if_neg (by omega)]
    have hs : b % 2 ^ 52 = 2 ^ 52 - 1 := by omega
    rw [hs]
    generalize b / 2 ^ 52 = e at *
    rcases e with - | e
    · have h1 := Nat.one_le_two_pow (n := 1022)
      rw [if_pos rfl]
      generalize 2 ^ 1022 = y at *
      norm_num; omega
    · have : 2 ^ e ≤ 2 ^ 1022 := Nat.pow_le_pow_right (by decide) (by omega)
      have e1 : e + 1 + 1 - 1 = e + 1 := by omega
      have e2 : e + 1 - 1 = e := by omega
      have e3 : 2 ^ (e + 1) = 2 ^ e * 2 := Nat.pow_succ 2 e
      rw [if_neg (by omega), e1, e2, e3]
      generalize 2 ^ 1022 = y at *
      generalize 2 ^ e = x at *
      omega
  · rw [show (b + 1) / 2 ^ 52 = b / 2 ^ 52 by omega, show (b + 1) % 2 ^ 52 = b % 2 ^ 52 + 1 by omega]
    generalize b / 2 ^ 52 = e at *
    generalize b % 2 ^ 52 = f at *
    split
    · have : 1 ≤ 2 ^ 1022 := Nat.one_le_two_pow
      generalize 2 ^ 1022 = y at *
      omega
    · have : 2 ^ (e - 1) ≤ 2 ^ 1022 := Nat.pow_le_pow_right (by decide) (by omega)
      have e1 : (f + 1 + 2 ^ 52) * 2 ^ (e - 1) = (f + 2 ^ 52) * 2 ^ (e - 1) + 2 ^ (e - 1) := by ring
      rw [e1]; omega

end Sys2Proof.Machine.F64

namespace Sys2Proof.Machine

open F64

theorem phaseCeiling_lt : phaseCeiling < infBits := by decide
theorem omegaCeiling_lt : omegaCeiling < infBits := by decide
theorem one_lt : one.toNat < infBits := by decide

/-- BAUD_INC of legal rates is at least 2^-32 and below 1 (R99). -/
theorem baudIncrement_bounds {baud sr : Word} (h : 0 < baud.toNat) (h' : baud.toNat < sr.toNat) :
    baudIncFloor ≤ (baudIncrement baud sr).toNat ∧ (baudIncrement baud sr).toNat < one.toNat := by
  have hs := sr.isLt
  obtain ⟨b1, b2⟩ := magBits_ofNat (n := baud.toNat) (by omega)
  obtain ⟨s1, s2⟩ := magBits_ofNat (n := sr.toNat) (by omega)
  have hu := unitsInOne_pos
  have hne : magBits (ofNat sr.toNat).toNat ≠ 0 := by
    rw [s2]; exact Nat.mul_ne_zero (by omega) (by omega)
  rw [baudIncrement, div_toNat b1 s1 hne, b2, s2]
  have hpos : 0 < sr.toNat * unitsInOne := Nat.mul_pos (by omega) hu
  constructor
  · calc baudIncFloor ≤ roundBits (1 * unitsInOne * unitsInOne) ((2 ^ 32 - 1) * unitsInOne) := by
          decide +kernel
      _ ≤ _ := roundBits_mono (Nat.mul_pos (by decide) hu) hpos (by
          have : 1 * sr.toNat ≤ baud.toNat * (2 ^ 32 - 1) := Nat.mul_le_mul (by omega) (by omega)
          calc 1 * unitsInOne * unitsInOne * (sr.toNat * unitsInOne)
              = 1 * sr.toNat * (unitsInOne * unitsInOne * unitsInOne) := by ring
            _ ≤ baud.toNat * (2 ^ 32 - 1) * (unitsInOne * unitsInOne * unitsInOne) :=
                Nat.mul_le_mul_right _ this
            _ = _ := by ring)
  · calc roundBits (baud.toNat * unitsInOne * unitsInOne) (sr.toNat * unitsInOne)
        ≤ roundBits ((2 ^ 32 - 2) * unitsInOne * unitsInOne) ((2 ^ 32 - 1) * unitsInOne) :=
          roundBits_mono hpos (Nat.mul_pos (by decide) hu) (by
            have : baud.toNat * (2 ^ 32 - 1) ≤ (2 ^ 32 - 2) * sr.toNat := by omega
            calc baud.toNat * unitsInOne * unitsInOne * ((2 ^ 32 - 1) * unitsInOne)
                = baud.toNat * (2 ^ 32 - 1) * (unitsInOne * unitsInOne * unitsInOne) := by ring
              _ ≤ (2 ^ 32 - 2) * sr.toNat * (unitsInOne * unitsInOne * unitsInOne) :=
                  Nat.mul_le_mul_right _ this
              _ = _ := by ring)
      _ < one.toNat := by decide +kernel

/-- An angular increment is finite, not negative, at most 2^35 (R99). -/
theorem omega_le {f sr : Word} (h : 0 < sr.toNat) : (omega f sr).toNat ≤ omegaCeiling := by
  have hs := sr.isLt
  have hf := f.isLt
  obtain ⟨f1, f2⟩ := magBits_ofNat (n := f.toNat) (by omega)
  obtain ⟨s1, s2⟩ := magBits_ofNat (n := sr.toNat) (by omega)
  have hu := unitsInOne_pos
  have ht : Config.twoPi.toNat < infBits := by decide
  have hne : magBits (ofNat sr.toNat).toNat ≠ 0 := by
    rw [s2]; exact Nat.mul_ne_zero (by omega) (by omega)
  have hm : (mul Config.twoPi (ofNat f.toNat)).toNat
      ≤ roundBits (magBits Config.twoPi.toNat * ((2 ^ 32 - 1) * unitsInOne)) unitsInOne := by
    rw [mul_toNat ht f1, f2]
    exact roundBits_mono hu hu
      (Nat.mul_le_mul_right _ (Nat.mul_le_mul_left _ (Nat.mul_le_mul_right _ (by omega))))
  have htop : roundBits (magBits Config.twoPi.toNat * ((2 ^ 32 - 1) * unitsInOne)) unitsInOne
      ≤ omegaCeiling := by decide +kernel
  have hlt : (mul Config.twoPi (ofNat f.toNat)).toNat < infBits :=
    Nat.lt_of_le_of_lt (Nat.le_trans hm htop) omegaCeiling_lt
  rw [omega, div_toNat hlt s1 hne, s2]
  calc roundBits (magBits (mul Config.twoPi (ofNat f.toNat)).toNat * unitsInOne) (sr.toNat * unitsInOne)
      ≤ roundBits (magBits omegaCeiling) 1 :=
        roundBits_mono (Nat.mul_pos h hu) (by decide) (by
          have := magBits_mono (Nat.le_trans hm htop)
          calc magBits (mul Config.twoPi (ofNat f.toNat)).toNat * unitsInOne * 1
              ≤ magBits omegaCeiling * unitsInOne * sr.toNat :=
                Nat.mul_le_mul (Nat.mul_le_mul_right _ this) h
            _ = _ := by ring)
    _ = omegaCeiling := roundBits_magBits omegaCeiling_lt

/-- PHASE stays at most 2^88 (R49: finite). -/
theorem add_le_phaseCeiling {p w : F64} (hp : p.toNat ≤ phaseCeiling) (hw : w.toNat ≤ omegaCeiling) :
    (add p w).toNat ≤ phaseCeiling := by
  calc (add p w).toNat
      ≤ (add (BitVec.ofNat 64 phaseCeiling) (BitVec.ofNat 64 omegaCeiling)).toNat :=
        add_mono hp hw phaseCeiling_lt omegaCeiling_lt
    _ ≤ phaseCeiling := by decide +kernel

/-- BAUD_FRAC plus BAUD_INC is finite (R99). -/
theorem add_fraction_lt {b i : F64} (hb : b.toNat ≤ one.toNat) (hi : i.toNat < one.toNat) :
    (add b i).toNat ≤ 0x4000000000000000 := by
  calc (add b i).toNat ≤ (add one one).toNat := add_mono hb (by omega) one_lt one_lt
    _ ≤ _ := by decide +kernel

/-- What is left of BAUD_FRAC after a bit is at most 1.0 (R49, R99). -/
theorem sub_fraction_le {x : F64} (h : x.toNat ≤ 0x4000000000000000) (h' : one.toNat ≤ x.toNat) :
    (sub x one).toNat ≤ one.toNat := by
  calc (sub x one).toNat ≤ (sub 0x4000000000000000 one).toNat :=
        sub_mono (a' := 0x4000000000000000) h h' (by decide)
    _ ≤ _ := by decide +kernel

/-- A legal BAUD_INC moves BAUD_FRAC on to a greater encoding: every bit ends (R99, R101). -/
theorem fraction_rises {b i : F64} (hb : b.toNat ≤ one.toNat) (hi : baudIncFloor ≤ i.toNat)
    (hi' : i.toNat < one.toNat) : b.toNat < (add b i).toNat := by
  have h1 := one_lt
  have hlow : 2 ^ 1022 ≤ magBits i.toNat :=
    Nat.le_trans (by decide +kernel : 2 ^ 1022 ≤ magBits baudIncFloor) (magBits_mono hi)
  rw [add_toNat (by omega) (by omega)]
  have hlt : b.toNat + 1 < infBits := Nat.lt_of_le_of_lt (Nat.succ_le_succ hb) (by decide)
  calc b.toNat < b.toNat + 1 := Nat.lt_succ_self _
    _ = roundBits (magBits (b.toNat + 1)) 1 := (roundBits_magBits hlt).symm
    _ ≤ _ := roundBits_mono (by decide) (by decide) (by
        have := magBits_succ hb
        rw [Nat.mul_one, Nat.mul_one]
        exact Nat.le_trans this (Nat.add_le_add_left hlow _))

end Sys2Proof.Machine
end

