-- ==== Sys2Proof/Laws/PerInstr.lean ====
section
/-! SUPPORT. What holds of every command as syntax: the fields of its command word are those of the opcode
map (spec/30_encoding.md rules R71, R73), its RSVD field is 0, and its LEN field is 0 unless it is MOD_BUF. -/

namespace Sys2Proof.Laws.CommandWord

/-- The OP column of R73. -/
def opcode : Instr → BitVec 8
  | .nop => 0x00
  | .buildCtrl => 0x01
  | .buildData => 0x02
  | .modBuf _ => 0x03
  | .modPkt => 0x04
  | .oscReset => 0x05

/-- The LEN field of R71: the byte count of MOD_BUF, 0 for every other command. -/
def count : Instr → Nat
  | .nop => 0
  | .buildCtrl => 0
  | .buildData => 0
  | .modBuf len => len
  | .modPkt => 0
  | .oscReset => 0

/-- The fields of a well-formed command's word are those of R71 and R73. -/
def Statement (i : Instr) : Prop :=
  i.wellFormed = true →
    opField (encode i) = opcode i ∧ (lenField (encode i)).toNat = count i ∧ rsvdField (encode i) = 0

theorem nop : Statement .nop := fun _ => by decide

theorem buildCtrl : Statement .buildCtrl := fun _ => by decide

theorem buildData : Statement .buildData := fun _ => by decide

theorem modPkt : Statement .modPkt := fun _ => by decide

theorem oscReset : Statement .oscReset := fun _ => by decide

theorem modBuf (len : Nat) : Statement (.modBuf len) := by
  intro h
  have hl : len < 1024 := by simpa [Instr.wellFormed] using h
  have he := encode_modBuf_toNat hl
  refine ⟨?_, ?_, ?_⟩
  · apply BitVec.eq_of_toNat_eq
    rw [opField_toNat, he]
    change _ = 3
    omega
  · rw [lenField_toNat, he]
    change _ = len
    omega
  · apply BitVec.eq_of_toNat_eq
    rw [rsvdField_toNat, he]
    change _ = 0
    omega

end Sys2Proof.Laws.CommandWord
end

