-- ==== Sys2Proof/Laws/Port.lean ====
section
/-! SUPPORT. The register map: which offsets reach which slots, and what a read returns. -/

namespace Sys2Proof.Machine

theorem wordNumber_lt (a : Offset) : wordNumber a < 1024 := by
  have := a.isLt; unfold wordNumber; omega

/-- Every window word is reached at its own offset (R44). -/
theorem slotOf_window (k : Fin 128) : slotOf (BitVec.ofNat 12 (0x400 + 4 * k.val)) = .pkt k := by
  have hk := k.isLt
  have hn : wordNumber (BitVec.ofNat 12 (0x400 + 4 * k.val)) = 256 + k.val := by
    simp only [wordNumber, BitVec.toNat_ofNat]; omega
  unfold slotOf
  rw [dif_pos (by omega)]
  simp only [hn, Nat.add_sub_cancel_left]

/-- Offsets beyond the registers and outside the window are reserved (R43). -/
theorem slotOf_reserved {a : Offset} (h : 0x054 ≤ a.toNat) (h' : a.toNat < 0x400 ∨ 0x600 ≤ a.toNat) :
    slotOf a = .reserved := by
  have hn : 21 ≤ wordNumber a ∧ ¬ (256 ≤ wordNumber a ∧ wordNumber a < 384) := by
    unfold wordNumber; omega
  unfold slotOf
  rw [dif_neg hn.2, List.getD_eq_default _ _ (by simpa [lowSlots] using hn.1)]

/-- Offsets in the window reach a window word (R44). -/
theorem slotOf_in_window {a : Offset} (h : 0x400 ≤ a.toNat) (h' : a.toNat < 0x600) :
    ∃ k : Fin 128, slotOf a = .pkt k ∧ k.val = a.toNat / 4 - 256 := by
  have hn : 256 ≤ wordNumber a ∧ wordNumber a < 384 := by unfold wordNumber; omega
  unfold slotOf
  exact ⟨⟨wordNumber a - 256, by omega⟩, dif_pos hn, rfl⟩

/-- Below the window the slot is the table's (R23). -/
theorem slotOf_low {a : Offset} (h : a.toNat < 0x400) :
    slotOf a = lowSlots.getD (a.toNat / 4) .reserved := by
  unfold slotOf
  rw [dif_neg (by unfold wordNumber; omega)]
  rfl

/-- Clearing address bits 1:0 reaches the same word (R61). -/
theorem wordNumber_clear (a : Offset) : wordNumber (a &&& 0xFFC) = wordNumber a := by
  have h : ∀ n : Fin 4096, wordNumber (BitVec.ofNat 12 n.val &&& 0xFFC) = wordNumber (BitVec.ofNat 12 n.val) := by
    intro n
    simp only [wordNumber, BitVec.toNat_and, BitVec.toNat_ofNat]
    have e : ∀ x : Nat, x < 4096 → (x &&& 4092) / 4 = x / 4 := by
      intro x hx
      rw [show 4 = 2 ^ 2 from rfl, ← Nat.shiftRight_eq_div_pow, ← Nat.shiftRight_eq_div_pow,
        Nat.shiftRight_and_distrib, show (4092 >>> 2) = 2 ^ 10 - 1 from rfl, Nat.and_two_pow_sub_one_eq_mod]
      apply Nat.mod_eq_of_lt
      rw [Nat.shiftRight_eq_div_pow]; omega
    exact e _ (by omega)
  have := h ⟨a.toNat, a.isLt⟩
  simpa using this

theorem slotOf_clear (a : Offset) : slotOf (a &&& 0xFFC) = slotOf a := by
  unfold slotOf; simp only [wordNumber_clear]

/-- Outside BUILD no read is free (R38, R45). -/
theorem readIsFree_eq_false {s : State} (h : ∀ kind, s.runState ≠ .build kind) (a : Offset) :
    s.readIsFree a = false := by
  unfold State.readIsFree; split <;> simp_all

/-- Away from PKT_LEN and the window no read is free, in any state (R38, R45). -/
theorem readIsFree_eq_false_of_slot {s : State} {a : Offset} (h : slotOf a ≠ .pktLen)
    (h' : ∀ k, slotOf a ≠ .pkt k) : s.readIsFree a = false := by
  unfold State.readIsFree; split <;> try rfl
  split <;> simp_all

theorem regRead_of_not_free {s : State} {a : Offset} (h : s.readIsFree a = false) :
    regRead a s = s.slotRead (slotOf a) := by simp [regRead, h]

/-- Away from PKT_LEN and the window a read returns the slot's word, in every state (R106). -/
theorem regRead_of_slot {s : State} {a : Offset} {slot : Slot} (h : slotOf a = slot)
    (h1 : slot ≠ .pktLen) (h2 : ∀ k, slot ≠ .pkt k) : regRead a s = s.slotRead slot := by
  subst h
  exact regRead_of_not_free (readIsFree_eq_false_of_slot h1 h2)

/-- PKT_LEN reads 0 in bits 31:10 in every state, BUILD among them (R38). -/
theorem regRead_pktLen_lt {a : Offset} (s : State) (h : slotOf a = .pktLen) :
    (regRead a s).toNat < 2 ^ 10 := by
  unfold regRead State.freeRead
  simp only [h]
  have hlen := s.pktLen.isLt
  have hfree := ((Config.freeWord s.draws (4 * wordNumber a)).extractLsb' 0 10).isLt
  split
  · rw [BitVec.toNat_setWidth]; omega
  · change (s.pktLen.setWidth 32).toNat < _
    rw [BitVec.toNat_setWidth]; omega

/-- CAPS as a number (R25, R106). -/
theorem capsWord_toNat : capsWord.toNat = 511 * 2 ^ 16 + Config.stopLenV2 * 2 ^ 8 + Config.stopLenV1 := by
  have h1 : Config.stopLenV1 < 256 := by have := Config.stopIndexV1.isLt; unfold Config.stopLenV1; omega
  have h2 : Config.stopLenV2 < 256 := by have := Config.stopIndexV2.isLt; unfold Config.stopLenV2; omega
  unfold capsWord
  generalize Config.stopLenV1 = a at *
  generalize Config.stopLenV2 = b at *
  simp only [BitVec.toNat_setWidth, BitVec.toNat_append, BitVec.toNat_ofNat, Config.pktBufSize]
  rw [Nat.mod_eq_of_lt (show a < 2 ^ 8 by omega), Nat.mod_eq_of_lt (show b < 2 ^ 8 by omega),
    ← Nat.shiftLeft_add_eq_or_of_lt (by omega), ← Nat.shiftLeft_add_eq_or_of_lt (by omega)]
  simp only [Nat.shiftLeft_eq]
  omega

/-- STATUS as a number (R106). -/
theorem State.statusWord_toNat (s : State) : s.statusWord.toNat =
    256 * s.irq.toNat + 16 * s.errBits.toNat + 8 * s.drop.toNat + 4 * s.done.toNat
      + s.runState.bits.toNat := by
  unfold State.statusWord
  have := s.errBits.isLt
  have := s.runState.bits.isLt
  generalize s.errBits = x at *
  generalize s.runState.bits = y at *
  cases s.irq <;> cases s.drop <;> cases s.done <;>
  · simp only [BitVec.toNat_setWidth, BitVec.toNat_append, BitVec.toNat_ofBool]
    rw [← Nat.shiftLeft_add_eq_or_of_lt (by omega), ← Nat.shiftLeft_add_eq_or_of_lt (by decide), ← Nat.shiftLeft_add_eq_or_of_lt (by decide), ← Nat.shiftLeft_add_eq_or_of_lt (by omega)]
    simp only [Nat.shiftLeft_eq, Bool.toNat_false, Bool.toNat_true]
    omega

/-- OSC_CURSOR as a number (R106). -/
theorem State.oscCursorWord_toNat (s : State) : s.oscCursorWord.toNat =
    4096 * s.bitsLeft.toNat + 256 * s.curBit.toNat + s.curByte.toNat := by
  unfold State.oscCursorWord
  have := s.bitsLeft.isLt
  have := s.curByte.isLt
  generalize s.bitsLeft = x at *
  generalize s.curByte = y at *
  cases s.curBit <;>
  · simp only [BitVec.toNat_setWidth, BitVec.toNat_append, BitVec.toNat_ofBool, BitVec.toNat_ofNat]
    rw [← Nat.shiftLeft_add_eq_or_of_lt (by omega), ← Nat.shiftLeft_add_eq_or_of_lt (by decide), ← Nat.shiftLeft_add_eq_or_of_lt (by decide)]
    simp only [Nat.shiftLeft_eq, Bool.toNat_false, Bool.toNat_true]
    omega

/-- A binary64 register is its two register words (R41, R42). -/
theorem append_halves (x : F64) : (x.extractLsb' 32 32 ++ x.extractLsb' 0 32 : BitVec (32 + 32)) = x := by
  apply BitVec.eq_of_getLsbD_eq
  intro i hi
  simp only [BitVec.getLsbD_append, BitVec.getLsbD_extractLsb']
  split
  · simp; omega
  · rw [show 32 + (i - 32) = i by omega]; simp; omega
/-- A bit of a word as a digit. -/
theorem getLsbD_eq_digit (w : Word) (i : Nat) : w.getLsbD i = decide (w.toNat / 2 ^ i % 2 = 1) := by
  rw [BitVec.getLsbD, Nat.testBit_eq_decide_div_mod_eq]

/-- A write that reaches a slot other than CMD (R107). -/
theorem regWrite_of_slot {a : Offset} {slot : Slot} (w : Word) (s : State) (h : slotOf a = slot)
    (h' : slot ≠ .cmd) : regWrite a w s = .next (slotWrite w s slot) := by
  subst h; simp [regWrite, h']

/-- A CTRL write with SRST = 1 is the reset: the enables it writes are lost (R26, R109). -/
theorem regWrite_ctrl_reset {a : Offset} {w : Word} (s : State) (h : slotOf a = .ctrl)
    (hw : w.getLsbD 0 = true) : regWrite a w s = .next s.resetBlock := by
  rw [regWrite_of_slot w s h nofun]
  simp only [slotWrite, State.ctrlWrite, hw, if_true]
  cases s; rfl

/-- A read of STATUS is never free: HOST notes the word, and nothing else changes (R64). -/
theorem hostRead_status (s : State) : hostRead statusOffset s = { s with readData := s.statusWord } := by
  have hf : s.readIsFree statusOffset = false := readIsFree_eq_false_of_slot (by decide) (by decide)
  simp only [hostRead, hf, regRead_of_not_free hf]
  rfl

end Sys2Proof.Machine
end

