-- ==== Sys2Proof/Laws/Step.lean ====
section
/-! SUPPORT. The induction over the agents' moves, packaged once: what every agent's part of a step keeps,
the step keeps. -/

namespace Sys2Proof.Machine

/-- HOST writes `w` at `a` in the step about to be taken. -/
def State.writesNext (s : State) (a : Offset) (w : Word) : Prop :=
  ∃ rest, s.agenda = .write a w :: rest ∨ s.agenda = .writeWithEngine a w :: rest

theorem State.hostWrites_of_writesNext {s : State} {a : Offset} {w : Word} (h : s.writesNext a w) :
    s.hostWrites (slotOf a) w := by
  obtain ⟨rest, h⟩ := h
  exact ⟨a, rest, rfl, h⟩

theorem State.writesNext_resets {s : State} {a : Offset} {w : Word} (h : s.writesNext a w) :
    s.resetsNext = (slotOf a == .ctrl && w.getLsbD 0) := by
  obtain ⟨rest, h | h⟩ := h <;> simp [State.resetsNext, h, Move.resets]

/-- A property of states that each agent's part of a step keeps holds after the step. -/
theorem step_preserves {P : State → Prop} {s t : State} (h : step s = .next t) (hs : P s)
    (agenda : ∀ u ms, P u → P (u.withAgenda ms))
    (read : ∀ u a, P u → P (hostRead a u))
    (write : ∀ u v a w, P u → s.writesNext a w → regWrite a w u = .next v → P v)
    (engine : ∀ u v, P u → engineStep u = .next v → P v)
    (reset : ∀ u, s.resetsNext = true → P u → P u.resetBlock)
    (sink : ∀ u b, P u → P { u with sinkReady := b })
    (payload : ∀ u a v, (∃ rest, s.agenda = .payloadWrite a v :: rest) → P u → P (payloadWrite a v u))
    (silence : ∀ u n, P u → P { u with samples := List.replicate n 0 ++ u.samples }) : P t := by
  unfold step at h
  split at h
  · exact engine _ _ hs h
  · rename_i m rest hag
    have hu : P (s.withAgenda rest) := agenda _ _ hs
    cases m with
    | read a => cases h; exact read _ _ hu
    | write a w => exact write _ _ a w hu ⟨rest, .inl hag⟩ h
    | engine => exact engine _ _ hu h
    | writeWithEngine a w =>
      have hw := write (s.withAgenda rest) (a := a) (w := w)
      change writeWithEngine a w (s.withAgenda rest) = .next t at h
      unfold writeWithEngine at h
      split at h
      · revert h
        cases hr : regWrite a w (s.withAgenda rest) with
        | next v => intro h; exact engine v t (hw v hu ⟨rest, .inr hag⟩ hr) h
        | fault r => intro h; cases h
        | refused r => intro h; cases h
      · exact hw t hu ⟨rest, .inr hag⟩ h
    | reset => cases h; exact reset _ (by simp [State.resetsNext, hag, Move.resets]) hu
    | resetWithWrite a w => cases h; exact reset _ (by simp [State.resetsNext, hag, Move.resets]) hu
    | sink b => cases h; exact sink _ _ hu
    | payloadWrite a v => cases h; exact payload _ _ _ ⟨rest, hag⟩ hu
    | silence n => cases h; exact silence _ _ hu
    | waitIdle =>
      change waitIdle (s.withAgenda rest) = .next t at h
      unfold waitIdle at h
      simp only [] at h
      split at h
      · exact engine _ _ (agenda _ _ (read _ _ hu)) h
      · cases h; exact read _ _ hu
    | waitDone =>
      change waitDone (s.withAgenda rest) = .next t at h
      unfold waitDone at h
      simp only [] at h
      split at h
      · cases h; exact agenda _ _ (read _ _ hu)
      · exact engine _ _ (agenda _ _ (read _ _ hu)) h

/-- A run takes its first step and goes on. -/
theorem core_run_succ {k : Nat} {s t : State} (h : step s = .next t) :
    Host.Core.run Sys2Proof.core (k + 1) s = Host.Core.run Sys2Proof.core k t := by
  refine (Host.Core.run.eq_2 Sys2Proof.core s k).trans ?_
  have h' : Sys2Proof.core.step s = .next t := h
  simp only [h']

/-- What one step is (R22, R66): ENGINE's step, or none, from a state in which HOST at most noted a word it
read; a host write; a host write and then ENGINE's step; a reset; a change of SINK; a host write of payload
memory; silence. -/
theorem step_cases {s t : State} (h : step s = .next t) :
    (∃ d n ms, engineStep { s with readData := d, draws := n, agenda := ms } = .next t)
    ∨ (∃ d n ms, t = { s with readData := d, draws := n, agenda := ms })
    ∨ (∃ a w rest, s.agenda = .write a w :: rest ∧ regWrite a w (s.withAgenda rest) = .next t)
    ∨ (∃ a w rest, s.agenda = .writeWithEngine a w :: rest ∧
        ((∃ v, s.engineEnabled = true ∧ regWrite a w (s.withAgenda rest) = .next v ∧ engineStep v = .next t)
        ∨ (s.engineEnabled = false ∧ regWrite a w (s.withAgenda rest) = .next t)))
    ∨ (s.resetsNext = true ∧ ∃ rest, t = (s.withAgenda rest).resetBlock)
    ∨ (∃ b rest, t = { s with sinkReady := b, agenda := rest })
    ∨ (∃ a v rest, s.agenda = .payloadWrite a v :: rest ∧ t = payloadWrite a v (s.withAgenda rest))
    ∨ (∃ n rest, s.agenda = .silence n :: rest ∧ t = { s with samples := List.replicate n 0 ++ s.samples, agenda := rest }) := by
  unfold step at h
  split at h
  · rename_i hag
    left
    refine ⟨s.readData, s.draws, s.agenda, ?_⟩
    cases s; exact h
  · rename_i m rest hag
    cases m with
    | read a => cases h; exact .inr (.inl ⟨_, _, rest, rfl⟩)
    | write a w => exact .inr (.inr (.inl ⟨a, w, rest, hag, h⟩))
    | engine => exact .inl ⟨s.readData, s.draws, rest, h⟩
    | writeWithEngine a w =>
      refine .inr (.inr (.inr (.inl ⟨a, w, rest, hag, ?_⟩)))
      have he : (s.withAgenda rest).engineEnabled = s.engineEnabled := rfl
      change writeWithEngine a w (s.withAgenda rest) = .next t at h
      unfold writeWithEngine at h
      rw [he] at h
      split at h
      · left
        revert h
        cases hr : regWrite a w (s.withAgenda rest) with
        | next v => intro h; exact ⟨v, ‹_›, rfl, h⟩
        | fault r => intro h; cases h
        | refused r => intro h; cases h
      · rename_i hne
        exact .inr ⟨Bool.eq_false_iff.2 hne, h⟩
    | reset =>
      cases h
      exact .inr (.inr (.inr (.inr (.inl ⟨by simp [State.resetsNext, hag, Move.resets], rest, rfl⟩))))
    | resetWithWrite a w =>
      cases h
      exact .inr (.inr (.inr (.inr (.inl ⟨by simp [State.resetsNext, hag, Move.resets], rest, rfl⟩))))
    | sink b => cases h; exact .inr (.inr (.inr (.inr (.inr (.inl ⟨b, rest, rfl⟩)))))
    | payloadWrite a v =>
      cases h; exact .inr (.inr (.inr (.inr (.inr (.inr (.inl ⟨a, v, rest, hag, rfl⟩))))))
    | silence n => cases h; exact .inr (.inr (.inr (.inr (.inr (.inr (.inr ⟨n, rest, hag, rfl⟩))))))
    | waitIdle =>
      change waitIdle (s.withAgenda rest) = .next t at h
      unfold waitIdle at h
      simp only [] at h
      split at h
      · exact .inl ⟨_, _, _, h⟩
      · cases h; exact .inr (.inl ⟨_, _, _, rfl⟩)
    | waitDone =>
      change waitDone (s.withAgenda rest) = .next t at h
      unfold waitDone at h
      simp only [] at h
      split at h
      · cases h; exact .inr (.inl ⟨_, _, _, rfl⟩)
      · exact .inl ⟨_, _, _, h⟩

end Sys2Proof.Machine
end

