-- ==== Sys2Proof/Tests/Slice0.lean ====
section
/-! SUPPORT. Tests of the model against the vectors of spec/95_test_vectors.md and the tables of the rules,
and for every statement with hypotheses a witness: concrete states and operands that meet them together. -/

namespace Sys2Proof.Tests

open Sys2Proof Sys2Proof.Machine

section States

/-- IDLE, V1, the rates of vector V-M1, the payload `01 02 03`, every packet-buffer byte 0xA5. -/
def idle : State := { State.reset with
  ver := 1, sampleRate := 8, baudRate := 1, fLo := 1, fHi := 2
  payloadLen := 3, payload := [(0, 1), (1, 2), (2, 3)]
  pktBuf := Vector.replicate 512 0xA5 }

/-- BUILD, with the framer command of the kind running. -/
def building (kind : PacketKind) : State := { idle with runState := .build kind }

/-- MOD, just after the acceptance of MOD_BUF 2 (vector V-M1's increments, bit 0 of byte 0xA5). -/
def sending : State := { idle with
  runState := .mod, omegaLo := 0x3FE921FB54442D18, omegaHi := 0x3FF921FB54442D18
  baudInc := 0x3FC0000000000000, modN := 2, pos := 1, curByte := 0xA5, curBit := true, bitsLeft := 8 }

/-- MOD, in the last sample of the bit before the last `n` bits of the byte: BAUD_FRAC = 1.0. -/
def bitEnding (n : BitVec 4) : State := { sending with baudFrac := F64.one, bitsLeft := n }

/-- ERROR after an illegal word. -/
def failed : State := { idle with runState := .error, errCode := some .illegalCmd, errCmd := 6 }

/-- The states named above meet the invariants. -/
theorem test_idle_inv : idle.Inv := by
  refine ⟨fun _ => rfl, nofun, ⟨Nat.le_refl _, Nat.zero_le _⟩, .inl rfl, nofun, ?_, fun _ => rfl, by decide, nofun⟩
  decide

theorem test_sending_inv : sending.Inv := by
  refine ⟨fun h => absurd rfl h, fun _ => ⟨by decide, by decide, by decide⟩, ⟨by decide, by decide⟩, .inl rfl,
    nofun, ?_, fun _ => rfl, by decide, nofun⟩
  decide

theorem test_sending_numInv : sending.NumInv := by
  constructor <;> decide

end States

section WellFormedAndDecode

/-- R72: LEN has ten bits. -/
theorem test_wellFormed_refuses_len_1024 : (Instr.modBuf 1024).wellFormed = false := by decide

theorem test_wellFormed_takes_len_1023 : (Instr.modBuf 1023).wellFormed = true := by decide

/-- R73: bits 31:18 RSVD, 17:8 LEN, 7:0 OP. -/
theorem test_decode_nop : decode 0b00000000000000_0000000000_00000000 = .ok .nop := by decide

theorem test_decode_buildCtrl : decode 0b00000000000000_0000000000_00000001 = .ok .buildCtrl := by decide

theorem test_decode_buildData : decode 0b00000000000000_0000000000_00000010 = .ok .buildData := by decide

/-- V-E16: 0x00020003 is MOD_BUF 512. -/
theorem test_decode_modBuf : decode 0b00000000000000_1000000000_00000011 = .ok (.modBuf 512) := by decide

theorem test_decode_modPkt : decode 0b00000000000000_0000000000_00000100 = .ok .modPkt := by decide

theorem test_decode_oscReset : decode 0b00000000000000_0000000000_00000101 = .ok .oscReset := by decide

/-- V-E8 to V-E11, and R75 for the highest RSVD bit. -/
theorem test_decode_illegal :
    decode 0x00000006 = .error .opcode ∧ decode 0x000000FF = .error .opcode
    ∧ decode 0x00040003 = .error .reserved ∧ decode 0x80000000 = .error .reserved
    ∧ decode 0x00000101 = .error .length := by decide

/-- R78: `cmd MOD_BUF n` is `(n << 8) | 0x03`; P4's word for n = 2. -/
theorem test_encode_modBuf : encode (.modBuf 2) = 0x00000203 := by decide

end WellFormedAndDecode

section Commands

/-- V-C2: NOP in IDLE, then STATUS reads 0x4. -/
theorem test_nop : ∃ t, exec .nop State.reset = .next t ∧ regRead 0x00C t = 0x00000004 :=
  ⟨_, rfl, by decide⟩

/-- V-C7: with IE_DONE, NOP makes STATUS read 0x104. -/
theorem test_nop_interrupt :
    ∃ t, exec .nop { State.reset with ieDone := true } = .next t ∧ regRead 0x00C t = 0x00000104 :=
  ⟨_, rfl, by decide⟩

/-- V-E1: BUILD_CTRL from reset: STATUS = 0x33, ERR_CMD = 1. -/
theorem test_buildCtrl_version :
    ∃ t, exec .buildCtrl State.reset = .next t
      ∧ regRead 0x00C t = 0x00000033 ∧ regRead 0x014 t = 0x00000001 :=
  ⟨_, rfl, by decide, by decide⟩

/-- F-4's header (R82): V2, OS_UPDATE 1, and the payload length. -/
theorem test_controlPacket :
    ({ idle with ver := 2, osUpdate := true } : State).controlPacket.take 15
      = [0x00, 0x00, 0x00, 0x00, 0xAA, 0x55, 0x42, 0x02, 0x03, 0x00, 0x00, 0x03, 0x00, 0x00, 0x00] := by
  decide

/-- F-10: V1 data packet of `01 02 03`, the first 32 bytes as striped. -/
theorem test_dataPacket_v1 :
    idle.dataPacket.take 32
      = [0x00, 0x00, 0x00, 0x00, 0xAA, 0x55, 0x42, 0x01, 0x02, 0x00, 0x00, 0x01, 0x02, 0x03, 0xAA, 0xFF,
        0xFF, 0xFF, 0xFF, 0xFF, 0xFF, 0xFF, 0x55, 0xFF, 0xFF, 0xFF, 0xFF, 0xFF, 0xFF, 0xFF, 0xAA, 0xFF] := by
  decide +kernel

/-- F-11: V2 data packet of `01 02 03`, the first 24 bytes as striped. -/
theorem test_dataPacket_v2 :
    ({ idle with ver := 2 } : State).dataPacket.take 24
      = [0x00, 0x00, 0x00, 0x00, 0xAA, 0x55, 0x42, 0x02, 0x02, 0x95, 0x35, 0xAD,
        0x97, 0x36, 0x53, 0x6A, 0xCA, 0x53, 0x6A, 0xCA, 0x53, 0x6A, 0xCA, 0x53] := by
  decide +kernel

/-- V-M1: the increments and the first bit of MOD_BUF 1 over 0xA5. -/
theorem test_modBuf :
    ∃ t, exec (.modBuf 1) idle = .next t ∧ t.runState = .mod
      ∧ t.omegaLo = 0x3FE921FB54442D18 ∧ t.omegaHi = 0x3FF921FB54442D18 ∧ t.baudInc = 0x3FC0000000000000
      ∧ t.curByte = 0xA5 ∧ t.curBit = true ∧ t.bitsLeft = 8 :=
  ⟨_, rfl, rfl, by decide +kernel, by decide +kernel, by decide +kernel, by decide, by decide, rfl⟩

/-- V-E7: LEN 600 with the rates at 0 raises LEN_RANGE, not CFG_NUMERIC. -/
theorem test_modBuf_len_first :
    ∃ t, exec (.modBuf 600) State.reset = .next t ∧ regRead 0x00C t = 0x00000023 ∧ t.errCmd = 0x00025803 :=
  ⟨_, rfl, by decide, by decide⟩

/-- V-E3: MOD_PKT from reset: STATUS = 0x43. -/
theorem test_modPkt_rates :
    ∃ t, exec .modPkt State.reset = .next t ∧ regRead 0x00C t = 0x00000043 :=
  ⟨_, rfl, by decide⟩

/-- V-M7: MOD_PKT with PKT_LEN = 0 completes at once and sends nothing. -/
theorem test_modPkt_empty :
    ∃ t, exec .modPkt idle = .next t ∧ t.runState = .idle ∧ t.done = true ∧ t.samples = [] :=
  ⟨_, rfl, rfl, rfl, rfl⟩

/-- V-M10: OSC_RESET after V-M1 leaves 0 in the oscillator registers and keeps the packet buffer. -/
theorem test_oscReset :
    ∃ t, exec .oscReset { idle with
        phase := 0x40533E046C843281, baudFrac := 0x3FC0000000000000, curByte := 0xA5, curBit := true
        sampleCount := 65 } = .next t
      ∧ regRead 0x044 t = 0 ∧ regRead 0x048 t = 0 ∧ regRead 0x050 t = 0 ∧ regRead 0x040 t = 0
      ∧ regRead 0x03C t = 0 ∧ t.pktRead 0 = some 0xA5 ∧ t.done = true :=
  ⟨_, rfl, by decide, by decide, by decide, by decide, by decide, by decide, rfl⟩

/-- V-C5: BUILD_CTRL while MOD is dropped: STATUS = 0xA. -/
theorem test_buildCtrl_dropped :
    ∃ t, exec .buildCtrl sending = .next t ∧ regRead 0x00C t = 0x0000000A :=
  ⟨_, rfl, by decide⟩

end Commands

section SampleStep

/-- The first sample step of V-M1 goes on within the bit. -/
theorem test_sampleStep_goes_on : engineStep sending = .next sending.advance := by
  have h : F64.gt sending.advance.baudFrac F64.one = false := by decide +kernel
  rw [engineStep_of_sending rfl rfl (by decide) (by decide), if_neg (by rw [h]; decide)]

/-- V-M1: the second PHASE is 1.5707963267948966, BAUD_FRAC 0.125 (R94). -/
theorem test_sampleStep :
    sending.advance.phase = 0x3FF921FB54442D18 ∧ sending.advance.baudFrac = 0x3FC0000000000000
      ∧ sending.advance.sampleCount = 1 ∧ sending.advance.bitsLeft = 8 := by
  decide +kernel

/-- V-M6: 0.5 + 0.5 = 1.0 does not exceed 1.0. -/
theorem test_exceeds_is_strict :
    F64.gt (F64.add 0x3FE0000000000000 0x3FE0000000000000) F64.one = false := by decide +kernel

/-- V-M2: the increments at 48000 and 1200, 2200 are rounded to nearest. -/
theorem test_increments :
    baudIncrement 1200 48000 = 0x3F9999999999999A ∧ omega 1200 48000 = 0x3FC41B2F769CF0E0
    ∧ omega 2200 48000 = 0x3FD26E40D7653223 := by decide +kernel

end SampleStep

section Port

/-- V-C3: the window is little-endian. -/
theorem test_window :
    ∃ t, regWrite 0x400 0x44332211 idle = .next t ∧ t.pktRead 0 = some 0x11 ∧ t.pktRead 3 = some 0x44
      ∧ regRead 0x400 t = 0x44332211 :=
  ⟨_, rfl, by decide, by decide, by decide⟩

/-- R38, U19: PKT_LEN keeps its zero bits while STATE = BUILD. -/
theorem test_pktLen_in_build : (regRead 0x038 (building .data)).extractLsb' 10 22 = 0 := by
  have h : regRead 0x038 (building .data)
      = ((Config.freeWord (building .data).draws 0x038).extractLsb' 0 10).setWidth 32 := rfl
  rw [h]
  generalize Config.freeWord _ _ = w
  apply BitVec.eq_of_getLsbD_eq
  intro i hi
  simp

/-- V-C4: address bits 1:0 are ignored. -/
theorem test_low_address_bits :
    regRead 0x003 idle = 0x4C54434D ∧ ∃ t, regWrite 0x01B 0x2 idle = .next t ∧ t.ver = 2 :=
  ⟨by decide, _, rfl, by decide⟩

/-- V-C6: STATUS bits 2 and 3 are cleared by writing 1. -/
theorem test_status_write :
    ∃ t, regWrite 0x00C 0x4 { idle with done := true, drop := true } = .next t
      ∧ regRead 0x00C t = 0x00000008 :=
  ⟨_, rfl, by decide⟩

/-- V-C8: SRST with both enables: CTRL then reads 0. -/
theorem test_soft_reset :
    ∃ t, regWrite 0x008 0x7 { idle with done := true } = .next t
      ∧ regRead 0x008 t = 0 ∧ regRead 0x00C t = 0 ∧ t.ver = 0 :=
  ⟨_, rfl, by decide, by decide, by decide⟩

/-- V-C9: VERSION is written in ERROR, and STATE stays. -/
theorem test_config_write_in_error :
    ∃ t, regWrite 0x018 2 failed = .next t ∧ t.ver = 2 ∧ t.runState = .error :=
  ⟨_, rfl, by decide, rfl⟩

/-- withFetchWord, then the step: the command runs. -/
theorem test_fetch : ∃ t, step (State.reset.withFetchWord 32 0x00000005) = .next t ∧ t.done = true :=
  ⟨_, rfl, rfl⟩

end Port

section HostProcedure

/-- The order of L1-4, for one data block: the silences at Mid are 250, 100, 500, 80, 500 ms, each over 2. -/
theorem test_silence_segments :
    (Transmission.moves {
        version := 1, osUpdate := false, outputRate := 48000, baudRate := 1200, fLo := 1200, fHi := 2200
        rate := .mid, payload := [1, 2, 3] }).filter (fun m => m matches .silence _)
    = [250, 100, 500, 80, 500].map fun ms => .silence (silenceSamples ms 2) := by
  unfold Transmission.moves Transmission.blocks
  generalize Config.hostBlockCap = cap
  cases cap <;> rfl

end HostProcedure

section Witnesses

theorem witness_DecodingAnEncodedCommandGivesItBack : (Instr.modBuf 1023).wellFormed = true := by decide

theorem witness_EncodingADecodedWordGivesItBack : decode 0x0003FF03 = .ok (.modBuf 1023) := by decide

/-- The lowest and the highest illegal word of the opcode clause, and the two boundaries of LEN_RANGE. -/
theorem witness_IllegalWordsAreThoseOfTheRuleAndRaiseIllegalCmd :
    (∃ e, decode 0x00000006 = .error e) ∧ idle.runState = .idle
    ∧ (0x00020103 : Word).toNat % 2 ^ 8 = 3 ∧ (0x00020103 : Word).toNat / 2 ^ 18 = 0
    ∧ 512 < (0x00020103 : Word).toNat / 2 ^ 8 % 2 ^ 10
    ∧ (0x0003FF03 : Word).toNat % 2 ^ 8 = 3 ∧ (0x0003FF03 : Word).toNat / 2 ^ 18 = 0
    ∧ 512 < (0x0003FF03 : Word).toNat / 2 ^ 8 % 2 ^ 10 :=
  ⟨⟨.opcode, by decide⟩, rfl, by decide⟩

/-- A command word, and for each of the other moves a state that has it next, on both sides of its cases. -/
theorem witness_StepRunsTheDecodedCommand :
    ({ idle with agenda := [.write 0x013 0x00000103, .engine] } : State).agenda
      = .write 0x013 0x00000103 :: [.engine]
    ∧ slotOf 0x013 = .cmd ∧ decode 0x00000103 = .ok (.modBuf 1) ∧ (Instr.modBuf 1).wellFormed = true
    ∧ ({ idle with agenda := [.engine] } : State).agenda = .engine :: []
    ∧ (let s : State := { idle with agenda := [.writeWithEngine 0x00C 0x4] }
      s.agenda = .writeWithEngine 0x00C 0x4 :: [] ∧ s.engineEnabled = false)
    ∧ (let s : State := { building .data with agenda := [.writeWithEngine 0x00C 0x4] }
      s.agenda = .writeWithEngine 0x00C 0x4 :: [] ∧ s.engineEnabled = true
      ∧ ∃ v, regWrite 0x00C 0x4 { s with agenda := [] } = .next v)
    ∧ ({ sending with agenda := [.sink false] } : State).agenda = .sink false :: []
    ∧ ({ idle with agenda := [.silence 2] } : State).agenda = .silence 2 :: []
    ∧ (let s : State := { building .control with agenda := [.waitIdle] }
      s.agenda = .waitIdle :: [] ∧ ∃ kind, s.runState = .build kind)
    ∧ (let s : State := { sending with agenda := [.waitIdle] }
      s.agenda = .waitIdle :: [] ∧ s.runState = .mod)
    ∧ (let s : State := { failed with agenda := [.waitIdle] }
      s.agenda = .waitIdle :: [] ∧ s.runState = .error)
    ∧ (let s : State := { sending with agenda := [.waitDone] }
      s.agenda = .waitDone :: [] ∧ s.done = false)
    ∧ (let s : State := { idle with done := true, agenda := [.waitDone] }
      s.agenda = .waitDone :: [] ∧ s.done = true) :=
  ⟨rfl, by decide, by decide, by decide, rfl, ⟨rfl, rfl⟩, ⟨rfl, rfl, _, rfl⟩, rfl, rfl, ⟨rfl, .control, rfl⟩,
    ⟨rfl, rfl⟩, ⟨rfl, rfl⟩, ⟨rfl, rfl⟩, ⟨rfl, rfl⟩⟩

theorem witness_WithNoMoveToComeOnlyTheEngineSteps :
    idle.agenda = [] ∧ idle.runState = .idle ∧ failed.agenda = [] ∧ failed.runState = .error
    ∧ ({ sending with sinkReady := false } : State).agenda = []
    ∧ ({ sending with sinkReady := false } : State).runState = .mod
    ∧ ({ sending with sinkReady := false } : State).sinkReady = false :=
  ⟨rfl, rfl, rfl, rfl, rfl, rfl, rfl⟩

/-- BUILD of each kind, MOD and ERROR. -/
theorem witness_CmdWritesOutsideIdleAreDroppedOrIgnored :
    (∃ kind, (building .control).runState = .build kind) ∧ sending.runState = .mod
    ∧ failed.runState = .error :=
  ⟨⟨.control, rfl⟩, rfl, rfl⟩

theorem witness_NopCompletesAtOnce :
    idle.runState = .idle ∧ (∃ kind, (building .data).runState = .build kind) ∧ sending.runState = .mod
    ∧ failed.runState = .error :=
  ⟨rfl, ⟨.data, rfl⟩, rfl, rfl⟩

theorem witness_OscResetRestartsTheOscillator : idle.runState = .idle := rfl

theorem witness_FramerCommandsStartABuild :
    idle.runState = .idle ∧ idle.ver = 1
    ∧ ({ idle with ver := 2 } : State).runState = .idle ∧ ({ idle with ver := 2 } : State).ver = 2 :=
  ⟨rfl, rfl, rfl, rfl⟩

/-- The versions next to the legal ones, and the highest. -/
theorem witness_FramerCommandsRejectAnIllegalVersion :
    ∀ v : Byte, v = 0 ∨ v = 3 ∨ v = 255 →
      ({ idle with ver := v } : State).runState = .idle ∧ ({ idle with ver := v } : State).ver ≠ 1
      ∧ ({ idle with ver := v } : State).ver ≠ 2 := by
  rintro v (rfl | rfl | rfl) <;> exact ⟨rfl, by decide, by decide⟩

/-- LEN 1 and 512 and PKT_LEN 1; the smallest legal ratio (V-M6) and BAUD_RATE next to SAMPLE_RATE. -/
theorem witness_ModulatorCommandsStartSending :
    idle.runState = .idle ∧ idle.bitsLeft = 0 ∧ 0 < idle.baudRate.toNat
    ∧ idle.baudRate.toNat < idle.sampleRate.toNat
    ∧ 0 < ({ idle with sampleRate := 2 } : State).baudRate.toNat
    ∧ ({ idle with sampleRate := 2 } : State).baudRate.toNat < ({ idle with sampleRate := 2 } : State).sampleRate.toNat
    ∧ 1 ≤ (1 : Nat) ∧ (512 : Nat) ≤ 512 ∧ 1 ≤ ({ idle with pktLen := 1 } : State).pktLen.toNat := by
  decide

theorem witness_EmptyModulatorCommandsCompleteAtOnce :
    idle.runState = .idle ∧ idle.bitsLeft = 0 ∧ 0 < idle.baudRate.toNat
    ∧ idle.baudRate.toNat < idle.sampleRate.toNat ∧ idle.pktLen = 0 := by decide

/-- The three grounds of CFG_NUMERIC, the last at equality (V-E4, V-E5); LEN 0 and 512. -/
theorem witness_ModulatorCommandsRejectIllegalRates :
    State.reset.runState = .idle ∧ State.reset.sampleRate = 0
    ∧ ({ idle with baudRate := 0 } : State).runState = .idle ∧ ({ idle with baudRate := 0 } : State).baudRate = 0
    ∧ ({ idle with baudRate := 8 } : State).runState = .idle
    ∧ ({ idle with baudRate := 8 } : State).sampleRate.toNat ≤ ({ idle with baudRate := 8 } : State).baudRate.toNat
    ∧ (0 : Nat) ≤ 512 ∧ (512 : Nat) ≤ 512 :=
  ⟨rfl, rfl, rfl, rfl, rfl, by decide, by decide, by decide⟩

theorem witness_ModBufRejectsALengthAboveTheBuffer :
    idle.runState = .idle ∧ 512 < 513 ∧ 513 < 1024 ∧ 512 < 1023 ∧ 1023 < 1024 := by decide

theorem witness_CommandsLeaveConfigurationPacketAndOutsideUnchanged :
    ∃ t, exec (.modBuf 1) idle = .next t := ⟨_, rfl⟩

/-- Every command at its acceptance; one that ends in ERROR for the last clause. -/
theorem witness_CommandsLeaveTheirOscillatorFrameUnchanged :
    (∃ t, exec .nop idle = .next t) ∧ (∃ t, exec .buildCtrl idle = .next t)
    ∧ (∃ t, exec .buildData idle = .next t) ∧ (∃ t, exec .oscReset idle = .next t)
    ∧ (∃ t, exec (.modBuf 512) idle = .next t) ∧ (∃ t, exec .modPkt idle = .next t)
    ∧ idle.runState = .idle ∧ (∃ t, exec .modPkt State.reset = .next t ∧ t.runState = .error) :=
  ⟨⟨_, rfl⟩, ⟨_, rfl⟩, ⟨_, rfl⟩, ⟨_, rfl⟩, ⟨_, rfl⟩, ⟨_, rfl⟩, rfl, ⟨_, rfl, rfl⟩⟩

/-- One word for each clause; MOD_BUF with LEN = 512 and 513, on the two sides of LEN_RANGE. -/
theorem witness_ErrorEntryChangesNothingElse :
    State.reset.runState ≠ .error
    ∧ (∃ t, cmdWrite 0x00000006 State.reset = .next t ∧ t.runState = .error ∧ t.errCode = some .illegalCmd)
    ∧ (∃ t, cmdWrite 0x00020103 State.reset = .next t ∧ t.runState = .error ∧ t.errCode = some .lenRange)
    ∧ (∃ t, cmdWrite 0x00020003 State.reset = .next t ∧ t.runState = .error ∧ t.errCode = some .cfgNumeric)
    ∧ (∃ t, cmdWrite 0x00000001 State.reset = .next t ∧ t.runState = .error ∧ t.errCode = some .cfgVersion)
    ∧ (∃ t, cmdWrite 0x00000002 State.reset = .next t ∧ t.runState = .error ∧ t.errCode = some .cfgVersion)
    ∧ (∃ t, cmdWrite 0x00000004 State.reset = .next t ∧ t.runState = .error ∧ t.errCode = some .cfgNumeric) :=
  ⟨nofun, ⟨_, rfl, rfl, rfl⟩, ⟨_, rfl, rfl, rfl⟩, ⟨_, rfl, rfl, rfl⟩, ⟨_, rfl, rfl, rfl⟩, ⟨_, rfl, rfl, rfl⟩,
    ⟨_, rfl, rfl, rfl⟩⟩

theorem witness_BuildStepWritesTheControlPacket : (building .control).runState = .build .control := rfl

theorem witness_BuildStepWritesTheDataPacket : (building .data).runState = .build .data := rfl

/-- Both versions, and the last payload byte. -/
theorem witness_PacketLayoutsAreThoseOfTheTables :
    idle.ver = 1 ∧ ({ idle with ver := 2 } : State).ver = 2 ∧ 2 < idle.payloadLen.toNat :=
  ⟨rfl, rfl, by decide⟩

/-- The last body byte; bytes 2 and 3 are the two sides of PAYLOAD_LEN = 3. -/
theorem witness_DataBodyIsTheSlicePaddedWithFF :
    idle.payloadTorn = false ∧ 255 < 256 ∧ idle.block.toNat * 256 + 2 < idle.payloadLen.toNat
    ∧ ¬ idle.block.toNat * 256 + 3 < idle.payloadLen.toNat := by decide

theorem witness_Stripe1ActsOnTheBodyOnly :
    267 ≤ (List.replicate 267 (0 : Byte)).length ∧ (0 < 256 ∧ 255 < 256) ∧ (10 < 11 ∧ 267 ≤ 267) := by
  rw [List.length_replicate]; decide

theorem witness_Stripe2ActsFromByteNineToTheFooter :
    (List.replicate 272 (0 : Byte)).length = 271 + 1
    ∧ (9 ≤ 266 ∧ 266 < (List.replicate 272 (0 : Byte)).length - (4 + 1))
    ∧ 8 < 9 ∧ (List.replicate 272 (0 : Byte)).length - (4 + 1) ≤ 267 := by
  rw [List.length_replicate]; decide

theorem witness_FootersVerifyInThePacketBuffer :
    (building .control).runState = .build .control ∧ (∃ t, engineStep (building .control) = .next t)
    ∧ (building .data).runState = .build .data ∧ ∃ t, engineStep (building .data) = .next t :=
  ⟨rfl, ⟨_, rfl⟩, rfl, ⟨_, rfl⟩⟩

/-- The memories differ at address 3, PAYLOAD_LEN. -/
theorem witness_PayloadBeyondItsLengthDoesNotMatter :
    ∀ a, a < idle.payloadLen.toNat → Memory.read ([(0, 1), (1, 2), (2, 3), (3, 9)] : Memory) a = idle.payload.read a := by
  intro a h
  have : a < 3 := h
  interval_cases a <;> rfl

/-- The four clauses: the bit goes on; the next bit; the next byte; completion. -/
theorem witness_SampleStepFollowsTheRule :
    (sending.runState = .mod ∧ sending.sinkReady = true ∧ 1 ≤ sending.bitsLeft.toNat ∧ sending.bitsLeft.toNat ≤ 8
      ∧ F64.gt (F64.add sending.baudFrac sending.baudInc) F64.one = false)
    ∧ (1 ≤ (bitEnding 2).bitsLeft.toNat
      ∧ F64.gt (F64.add (bitEnding 2).baudFrac (bitEnding 2).baudInc) F64.one = true ∧ (bitEnding 2).bitsLeft ≠ 1)
    ∧ ((bitEnding 1).bitsLeft = 1 ∧ (bitEnding 1).pos ≠ (bitEnding 1).modN
      ∧ (bitEnding 1).pktRead (bitEnding 1).pos = some 0xA5)
    ∧ (({ bitEnding 1 with pos := 2 } : State).pos = ({ bitEnding 1 with pos := 2 } : State).modN) := by
  decide +kernel

/-- ENGINE alone, and a step whose next move is no silence and not ENGINE's either. -/
theorem witness_SamplesAreOnlyAppendedAndInRange :
    (∃ t, step sending = .next t) ∧ (∀ n rest, sending.agenda ≠ .silence n :: rest)
    ∧ F64.isFinite sending.phase = true
    ∧ (let s : State := { idle with agenda := [.waitIdle] };
      (∃ t, step s = .next t) ∧ ∀ n rest, s.agenda ≠ .silence n :: rest) :=
  ⟨⟨_, test_sampleStep_goes_on⟩, nofun, by decide, ⟨_, rfl⟩, nofun⟩

theorem witness_TwoCommandsContinueAsOne :
    (bitEnding 1).runState = .mod ∧ (bitEnding 1).sinkReady = true ∧ (bitEnding 1).bitsLeft = 1
    ∧ F64.gt (F64.add (bitEnding 1).baudFrac (bitEnding 1).baudInc) F64.one = true
    ∧ (bitEnding 1).pos ≠ (bitEnding 1).modN
    ∧ (bitEnding 1).pktRead (bitEnding 1).pos = some (Vector.replicate 512 (0xA5 : Byte))[0]
    ∧ 0 < (bitEnding 1).baudRate.toNat ∧ (bitEnding 1).baudRate.toNat < (bitEnding 1).sampleRate.toNat
    ∧ (bitEnding 1).omegaLo = omega (bitEnding 1).fLo (bitEnding 1).sampleRate
    ∧ (bitEnding 1).omegaHi = omega (bitEnding 1).fHi (bitEnding 1).sampleRate
    ∧ (bitEnding 1).baudInc = baudIncrement (bitEnding 1).baudRate (bitEnding 1).sampleRate
    ∧ 1 ≤ 1 ∧ 1 ≤ 512 ∧ 1 = (bitEnding 1).modN - (bitEnding 1).pos
    ∧ (∀ i, i < 1 →
        (Vector.replicate 512 (0xA5 : Byte)).toList[i]? = (bitEnding 1).pktRead ((bitEnding 1).pos + i)) := by
  decide +kernel

/-- Two states that agree in the oscillator and the bytes left, and differ in their configuration and in the
packet-buffer byte already sent. -/
theorem witness_SamplesDependOnlyOnTheOscillatorAndTheBytesLeft :
    let t : State := { sending with fLo := 7, pktBuf := sending.pktBuf.set 0 0 }
    sending.Inv ∧ t.Inv ∧ sending.runState = .mod ∧ t.runState = .mod
    ∧ sending.engineAlone = true ∧ t.engineAlone = true ∧ SameOscillator sending t
    ∧ sending.omegaLo = t.omegaLo ∧ sending.omegaHi = t.omegaHi ∧ sending.baudInc = t.baudInc
    ∧ sending.toSend = t.toSend := by
  refine ⟨test_sending_inv, ?_, rfl, rfl, by decide, by decide, ⟨rfl, rfl, rfl, rfl, rfl, rfl⟩, rfl, rfl, rfl,
    by decide +kernel⟩
  have h := test_sending_inv
  exact ⟨h.quiet, h.sending, h.cursor, h.length, h.building, h.errorCode, h.errorWord, h.memory, h.torn⟩

/-- The extreme legal rates. -/
theorem witness_IncrementsOfLegalRatesAreBounded :
    0 < (1 : Word).toNat ∧ (1 : Word).toNat < (0xFFFFFFFF : Word).toNat
    ∧ 0 < (0xFFFFFFFE : Word).toNat ∧ (0xFFFFFFFE : Word).toNat < (0xFFFFFFFF : Word).toNat := by decide

theorem witness_PhaseNeverDecreasesInACommand :
    sending.NumInv ∧ sending.runState = .mod ∧ ∃ t, engineStep sending = .next t :=
  ⟨test_sending_numInv, rfl, _, test_sampleStep_goes_on⟩

theorem witness_NaturalsBelowTwoToThe53AreExact : 0 < 2 ^ 53 ∧ 2 ^ 53 - 1 < 2 ^ 53 := by decide

/-- A tie; the operands 1.0, −1.0 and 0.5, a quotient's divisor that is not zero, and a NaN. -/
theorem witness_RoundingIsToNearestTiesToEven :
    0 < 1 ∧ F64.roundBits (2 ^ 53 + 1) 1 < F64.infBits ∧ F64.roundBits (2 ^ 53 + 1) 1 + 1 < F64.infBits
    ∧ F64.isFinite F64.one = true ∧ F64.isFinite 0xBFF0000000000000 = true
    ∧ F64.isFinite 0x3FE0000000000000 = true
    ∧ F64.units F64.one + F64.units 0x3FE0000000000000 ≠ 0
    ∧ F64.units F64.one + F64.units 0xBFF0000000000000 = 0
    ∧ F64.units F64.one - F64.units 0x3FE0000000000000 ≠ 0
    ∧ F64.units F64.one - F64.units F64.one = 0
    ∧ F64.mag 0x3FE0000000000000 ≠ 0 ∧ F64.isNaN 0x7FF8000000000000 = true := by
  decide +kernel

theorem witness_ModulatorCommandsCompleteWhenTheSinkAccepts :
    sending.Inv ∧ sending.NumInv ∧ sending.runState = .mod ∧ sending.engineAlone = true :=
  ⟨test_sending_inv, test_sending_numInv, rfl, by decide⟩

/-- The lowest and highest reserved offsets of both ranges, every STATE, and an error code. -/
theorem witness_ReadsReturnTheRegistersOfTheTable :
    (0x054 ≤ (0x054 : Offset).toNat ∧ (0x054 : Offset).toNat < 0x400) ∧ (0x3FF : Offset).toNat < 0x400
    ∧ 0x600 ≤ (0x600 : Offset).toNat ∧ 0x600 ≤ (0xFFF : Offset).toNat ∧ (∀ kind, idle.runState ≠ .build kind)
    ∧ idle.runState = .idle ∧ (∃ kind, (building .data).runState = .build kind) ∧ sending.runState = .mod
    ∧ failed.runState = .error ∧ idle.errCode = none ∧ failed.errCode = some .illegalCmd
    ∧ ∀ code, ({ failed with errCode := some code } : State).errCode = some code :=
  ⟨by decide, by decide, by decide, by decide, nofun, rfl, ⟨.data, rfl⟩, rfl, rfl, rfl, rfl, fun _ => rfl⟩

theorem witness_ReadsHaveNoSideEffect :
    ({ building .data with agenda := [.read 0x038] } : State).agenda = .read 0x038 :: []
    ∧ ∀ kind, ({ idle with agenda := [.read 0x038] } : State).runState ≠ .build kind :=
  ⟨rfl, nofun⟩

theorem witness_ConfigurationWritesStoreTheDefinedBits : idle.runState = .idle ∧ failed.runState = .error :=
  ⟨rfl, rfl⟩

/-- The first and last offsets of the configuration registers and of the window. -/
theorem witness_WritesWhileBusyAreDropped :
    (∃ kind, (building .data).runState = .build kind) ∧ sending.runState = .mod
    ∧ (0x018 ≤ (0x018 : Offset).toNat ∧ (0x037 : Offset).toNat < 0x038)
    ∧ 0x400 ≤ (0x400 : Offset).toNat ∧ (0x5FF : Offset).toNat < 0x600 :=
  ⟨⟨.data, rfl⟩, rfl, by decide, by decide, by decide⟩

/-- The four kinds of state, the byte below the last window word and the byte above the first. -/
theorem witness_WindowWritesStoreFourBytesLittleEndian :
    idle.runState = .idle ∧ failed.runState = .error ∧ 3 < 4 ∧ 507 < 4 * (127 : Fin 128).val
    ∧ 4 * (0 : Fin 128).val + 4 ≤ 4 ∧ (∃ kind, (building .data).runState = .build kind)
    ∧ sending.runState = .mod ∧ ∀ kind, sending.runState ≠ .build kind :=
  ⟨rfl, rfl, by decide, by decide, by decide, ⟨.data, rfl⟩, rfl, nofun⟩

theorem witness_StatusAndCtrlWritesAreTakenInEveryState :
    (0x6 : Word).toNat % 2 = 0 ∧ (0x7 : Word).toNat % 2 = 1 := by decide

/-- The ends of the ranges. -/
theorem witness_ReadOnlyAndReservedWritesHaveNoEffect :
    (0x054 ≤ (0x054 : Offset).toNat ∧ (0x3FF : Offset).toNat < 0x400) ∧ 0x600 ≤ (0x600 : Offset).toNat
    ∧ (0x007 : Offset).toNat < 0x008 ∧ (0x014 ≤ (0x014 : Offset).toNat ∧ (0x017 : Offset).toNat < 0x018)
    ∧ (0x038 ≤ (0x038 : Offset).toNat ∧ (0x053 : Offset).toNat < 0x054) := by
  decide

theorem witness_ResetLeavesTheValuesOfTheTable :
    (State.reset = State.reset) ∧ failed.resetBlock = failed.resetBlock ∧ 511 < 512 := ⟨rfl, rfl, by decide⟩

theorem witness_ResetInputAndSoftResetAreTheSame : (0x1 : Word).getLsbD 0 = true := by decide

/-- A build step with the write of 0x4 in the same step. -/
theorem witness_ASetInTheSameStepWinsOverTheClear :
    (building .data).engineEnabled = true
    ∧ ∃ t, step { building .data with agenda := .writeWithEngine 0x00C 0x4 :: [] } = .next t ∧ t.runState = .idle :=
  ⟨by decide, _, rfl, rfl⟩

/-- The last address, in IDLE and during a build. -/
theorem witness_PayloadWritesStoreOneByte :
    let m : List Move := [.payloadWrite 0xFFFFFFFF 7]
    ({ idle with agenda := m } : State).payload.wf = true
    ∧ ({ idle with agenda := m } : State).agenda = .payloadWrite 0xFFFFFFFF 7 :: []
    ∧ ({ building .control with agenda := m } : State).payload.wf = true
    ∧ ({ building .control with agenda := m } : State).agenda = .payloadWrite 0xFFFFFFFF 7 :: [] :=
  ⟨by decide, rfl, by decide, rfl⟩

theorem witness_EveryStepKeepsTheInvariant : idle.Inv ∧ ∃ t, step idle = .next t := ⟨test_idle_inv, _, rfl⟩

theorem witness_EveryStepKeepsTheNumericInvariant : sending.NumInv ∧ ∃ t, step sending = .next t :=
  ⟨test_sending_numInv, witness_SamplesAreOnlyAppendedAndInRange.1⟩

theorem witness_NoStepFaultsUnderTheInvariant : sending.Inv := test_sending_inv

theorem witness_OnlyAResetLeavesError :
    failed.runState = .error ∧ (∃ t, step failed = .next t) ∧ failed.resetsNext = false :=
  ⟨rfl, ⟨_, rfl⟩, by decide⟩

/-- A build that goes on (a read comes next) and one that completes. -/
theorem witness_OnlyCompletionOrResetEndsACommand :
    (∃ kind, (building .data).runState = .build kind) ∧ (∃ t, step (building .data) = .next t)
    ∧ (building .data).resetsNext = false ∧ sending.runState = .mod ∧ ∃ t, step sending = .next t :=
  ⟨⟨.data, rfl⟩, ⟨_, rfl⟩, by decide, rfl, witness_SamplesAreOnlyAppendedAndInRange.1⟩

/-- A window write outside BUILD, and moves of HOST and of SINK that leave a build running. -/
theorem witness_OnlyFramerWindowAndResetWriteThePacketBuffer :
    (let s : State := { idle with agenda := [.write 0x5FC 0] };
      (∃ t, step s = .next t ∧ (∀ kind, s.runState = .build kind → t.runState = .build kind))
      ∧ s.resetsNext = false)
    ∧ (let s : State := { building .data with agenda := [.write 0x5FC 0] };
      (∃ t, step s = .next t ∧ (∀ kind, s.runState = .build kind → t.runState = .build kind))
      ∧ s.resetsNext = false)
    ∧ (let s : State := { building .data with agenda := [.sink false] };
      (∃ t, step s = .next t ∧ (∀ kind, s.runState = .build kind → t.runState = .build kind))
      ∧ s.resetsNext = false) :=
  ⟨⟨⟨_, rfl, nofun⟩, by decide⟩, ⟨⟨_, rfl, fun _ h => h⟩, by decide⟩, ⟨⟨_, rfl, fun _ h => h⟩, by decide⟩⟩

theorem witness_DropStaysUntilClearedByTheHost :
    let s : State := { idle with drop := true, agenda := [.write 0x00C 0x8] }
    s.drop = true ∧ (∃ t, step s = .next t) ∧ s.resetsNext = false :=
  ⟨rfl, ⟨_, rfl⟩, by decide⟩

theorem witness_OnlyTheHostWritesPayloadMemory :
    (∃ t, step (building .data) = .next t) ∧ ∀ a v rest, (building .data).agenda ≠ .payloadWrite a v :: rest :=
  ⟨⟨_, rfl⟩, nofun⟩

end Witnesses

end Sys2Proof.Tests
end

section
/-! PROOFS of the statements of spec/00_scope.md: samples are only appended (O31), `f64(n)` is exact below 2^53
(O36), binary64 arithmetic is the exact one rounded once to nearest even (O37). -/

namespace Sys2Proof.Machine

section Samples

variable {s t : State}

/-- From `s` to `t` SINK received nothing, or the one sample COS(PHASE) of a running modulator command (R57). -/
def AtMostOneSample (s t : State) : Prop :=
  t.samples = s.samples ∨ (s.runState = .mod ∧ t.samples = F64.cosine s.phase :: s.samples)

/-- What SINK received is then put in front of what it had. -/
theorem AtMostOneSample.appends (h : AtMostOneSample s t) : ∃ new, t.samples = new ++ s.samples := by
  rcases h with h | ⟨-, h⟩
  · exact ⟨[], h⟩
  · exact ⟨[_], h⟩

/-- The end of a bit gives SINK nothing (R94). -/
theorem nextBit_samples (h : nextBit s = .next t) : t.samples = s.samples := by
  rcases nextBit_cases h with ⟨-, -, rfl⟩ | ⟨-, -, b, -, rfl⟩ | ⟨-, rfl⟩ <;> simp

/-- A sample step gives SINK exactly COS(PHASE), whatever ends with it (R94). -/
theorem sampleStep_samples (h : sampleStep s = .next t) :
    t.samples = F64.cosine s.phase :: s.samples := by
  obtain ⟨-, -, ⟨-, rfl⟩ | ⟨-, hbit⟩⟩ := sampleStep_cases h
  · simp
  · rw [nextBit_samples hbit]; simp

/-- ENGINE's step gives SINK a sample in MOD only (R57, R103). -/
theorem engineStep_samples (h : engineStep s = .next t) : AtMostOneSample s t := by
  rcases engineStep_cases h with ⟨-, rfl⟩ | ⟨kind, -, rfl⟩ | ⟨hm, -, hstep⟩
  · exact .inl rfl
  · exact .inl (buildStep_samples s kind)
  · exact .inr ⟨hm, sampleStep_samples hstep⟩

/-- The acceptance of a command gives SINK nothing (R102). -/
theorem exec_samples {i : Instr} (h : exec i s = .next t) : t.samples = s.samples := by
  rcases exec_cases h with ⟨-, rfl⟩ | ⟨-, rfl⟩ |
    ⟨-, rfl | ⟨kind, -, rfl⟩ | rfl | ⟨n, -, -, rfl⟩ | ⟨code, rfl⟩⟩ <;> simp

theorem cmdWrite_samples {w : Word} (h : cmdWrite w s = .next t) : t.samples = s.samples := by
  rcases cmdWrite_cases h with ⟨i, -, hx⟩ | ⟨-, rfl⟩ | ⟨-, rfl⟩ | ⟨-, rfl⟩
  · exact exec_samples hx
  · rfl
  · rfl
  · rfl

theorem SlotWritten.samples_eq {w : Word} {slot : Slot} (h : SlotWritten s w slot t) :
    t.samples = s.samples := by
  cases h with
  | config _ _ ht => rw [ht]
  | _ => rfl

/-- A register-port write gives SINK nothing (R107). -/
theorem regWrite_samples {a : Offset} {w : Word} (h : regWrite a w s = .next t) :
    t.samples = s.samples := by
  rcases regWrite_cases h with ⟨-, hc⟩ | ⟨-, hs⟩
  · exact cmdWrite_samples hc
  · exact hs.samples_eq

/-- In BUILD and MOD every command is dropped (R102). -/
theorem exec_of_busy (i : Instr) (hb : (∃ kind, s.runState = .build kind) ∨ s.runState = .mod) :
    exec i s = .next s.setDrop := by
  cases i with
  | nop => simp only [exec, execNop, accept_busy hb]
  | buildCtrl => exact accept_busy hb
  | buildData => exact accept_busy hb
  | modBuf len => exact accept_busy hb
  | modPkt => exact accept_busy hb
  | oscReset => simp only [exec, execOscReset, accept_busy hb]

/-- In BUILD and MOD every command word is dropped, legal or not (R102). -/
theorem cmdWrite_of_busy (w : Word) (hb : (∃ kind, s.runState = .build kind) ∨ s.runState = .mod) :
    cmdWrite w s = .next s.setDrop := by
  unfold cmdWrite
  split
  · exact exec_of_busy _ hb
  · exact accept_busy hb

theorem SlotWritten.keeps_mod {w : Word} {slot : Slot} (h : SlotWritten s w slot t)
    (hm : t.runState = .mod) : s.runState = .mod ∧ t.phase = s.phase := by
  cases h with
  | config _ _ ht => rw [ht] at hm ⊢; exact ⟨hm, rfl⟩
  | reset => cases hm
  | _ => exact ⟨hm, rfl⟩

/-- A write in BUILD or MOD that leaves STATE at MOD found it there, and leaves PHASE (R102, R107, R123): no
write starts a modulation while a command runs. -/
theorem regWrite_busy_mod {a : Offset} {w : Word}
    (hb : (∃ kind, s.runState = .build kind) ∨ s.runState = .mod) (h : regWrite a w s = .next t)
    (hm : t.runState = .mod) : s.runState = .mod ∧ t.phase = s.phase := by
  rcases regWrite_cases h with ⟨-, hc⟩ | ⟨-, hs⟩
  · rw [cmdWrite_of_busy w hb] at hc
    cases hc
    exact ⟨hm, rfl⟩
  · exact hs.keeps_mod hm

/-- ENGINE has an enabled step in BUILD and MOD only (R103). -/
theorem busy_of_engineEnabled (h : s.engineEnabled = true) :
    (∃ kind, s.runState = .build kind) ∨ s.runState = .mod := by
  cases hs : s.runState with
  | build kind => exact .inl ⟨kind, rfl⟩
  | mod => exact .inr rfl
  | idle => simp [State.engineEnabled, hs] at h
  | error => simp [State.engineEnabled, hs] at h

/-- A host write and ENGINE's enabled step in one step (R27): the sample, if any, is that of the step's start. -/
theorem regWrite_engineStep_samples {a : Offset} {w : Word} {v : State} (he : s.engineEnabled = true)
    (hw : regWrite a w s = .next v) (h : engineStep v = .next t) : AtMostOneSample s t := by
  have hv := regWrite_samples hw
  rcases engineStep_samples h with ht | ⟨hm, ht⟩
  · exact .inl (ht.trans hv)
  · obtain ⟨hs, hphase⟩ := regWrite_busy_mod (busy_of_engineEnabled he) hw hm
    exact .inr ⟨hs, by rw [ht, hphase, hv]⟩

/-- A step gives SINK at most the one sample of a running modulator command, or it is a silence and gives its
zeros. -/
theorem step_samples (h : step s = .next t) :
    AtMostOneSample s t
    ∨ ∃ n rest, s.agenda = .silence n :: rest ∧ t.samples = List.replicate n 0 ++ s.samples := by
  rcases step_cases h with ⟨d, n, ms, he⟩ | ⟨d, n, ms, rfl⟩ | ⟨a, w, rest, -, hw⟩
    | ⟨a, w, rest, -, ⟨v, hen, hw, he⟩ | ⟨-, hw⟩⟩ | ⟨-, rest, rfl⟩ | ⟨b, rest, rfl⟩
    | ⟨a, v, rest, -, rfl⟩ | ⟨n, rest, hag, rfl⟩
  · exact .inl (engineStep_samples he :)
  · exact .inl (.inl rfl)
  · exact .inl (.inl (regWrite_samples hw :))
  · exact .inl (regWrite_engineStep_samples (s := s.withAgenda rest) hen hw he)
  · exact .inl (.inl (regWrite_samples hw :))
  · exact .inl (.inl rfl)
  · exact .inl (.inl rfl)
  · exact .inl (.inl rfl)
  · exact .inr ⟨n, rest, hag, rfl⟩

end Samples

/-- Settles O31, from what one step can give SINK (`step_samples`) and the range of COS (R6). -/
theorem samplesAreOnlyAppendedAndInRange : Obligations.SamplesAreOnlyAppendedAndInRange := by
  unfold Obligations.SamplesAreOnlyAppendedAndInRange
  intro s t h
  rcases step_samples h with hone | ⟨n, rest, hag, ht⟩
  · refine ⟨hone.appends, fun _ => ?_⟩
    rcases hone with ht | ⟨hm, ht⟩
    · exact .inl ht
    · exact .inr ⟨hm, ht, F64.cosine_inUnitRange⟩
  · exact ⟨⟨_, ht⟩, fun hno => absurd hag (hno n rest)⟩

end Sys2Proof.Machine

namespace Sys2Proof.Machine.F64

/-- Settles O36: the value of `f64(n)` is that of the encoding of n units of 1.0 (`magBits_ofNat`). -/
theorem naturalsBelowTwoToThe53AreExact : Obligations.NaturalsBelowTwoToThe53AreExact := by
  unfold Obligations.NaturalsBelowTwoToThe53AreExact
  intro n hn
  obtain ⟨hlt, hval⟩ := magBits_ofNat hn
  obtain ⟨-, -, -, hfin, -, -⟩ := fields_of_lt hlt
  refine ⟨hfin, ?_⟩
  rw [units_of_lt hlt, hval, Nat.cast_mul, unitsInOne, Nat.cast_pow]
  rfl

section Rounding

variable {p q : Nat}

/-- Encodings of finite values are ordered as their exact values are. -/
theorem magBits_lt_iff {x y : Nat} (hx : x < infBits) (hy : y < infBits) :
    magBits x < magBits y ↔ x < y := by
  constructor
  · intro h
    by_contra hle
    exact absurd (magBits_mono (Nat.le_of_not_lt hle)) (Nat.not_le.2 h)
  · intro h
    by_contra hle
    exact absurd (le_of_magBits_le hy (Nat.le_of_not_lt hle) hx) (Nat.not_le.2 h)

theorem magBits_inj {x y : Nat} (hx : x < infBits) (hy : y < infBits) (h : magBits x = magBits y) : x = y := by
  rw [← roundBits_magBits hx, h, roundBits_magBits hy]

/-- The encoding `r` stands for a value as near to `p / q` as `v` is, and is even where `v` is another value as
near: what R9's rounding asks of the result `r` against one other value. -/
def NoFartherThan (p q r v : Nat) : Prop :=
  |(p : Int) - q * magBits r| ≤ |(p : Int) - q * v|
  ∧ (v ≠ magBits r → |(p : Int) - q * magBits r| = |(p : Int) - q * v| → r % 2 = 0)

/-- Below infinity the result is its significand at its last place. -/
theorem roundBits_of_lt (h : roundBits p q < infBits) :
    roundBits p q = lastPlace p q * 2 ^ 52 + nearestEven p (q * 2 ^ lastPlace p q) := by
  unfold roundBits at h ⊢
  simp only [] at h ⊢
  omega

/-- The exact value of a finite result is its significand at its last place. -/
theorem magBits_roundBits (h : roundBits p q < infBits) :
    magBits (roundBits p q) = nearestEven p (q * 2 ^ lastPlace p q) * 2 ^ lastPlace p q := by
  rw [roundBits_of_lt h]
  refine magBits_grid ?_ (significand_le p q)
  rcases Nat.eq_zero_or_pos (lastPlace p q) with h0 | hpos
  · exact .inl h0
  · exact .inr (le_significand p q hpos)

/-- No multiple of the last place is nearer to `p / q` than the result. -/
theorem roundBits_noFartherThan_multiple (hq : 0 < q) (hr : roundBits p q < infBits) (k : Nat) :
    NoFartherThan p q (roundBits p q) (k * 2 ^ lastPlace p q) := by
  obtain ⟨hnear, htie⟩ := nearestEven_near p (q * 2 ^ lastPlace p q) (by positivity) k
  have scaled (m : Nat) : ((q * 2 ^ lastPlace p q : Nat) : Int) * (m : Nat)
      = q * (m * 2 ^ lastPlace p q : Nat) := by push_cast; ring
  rw [scaled, scaled] at hnear htie
  rw [NoFartherThan, magBits_roundBits hr]
  refine ⟨hnear, fun hne heq => ?_⟩
  have heven := htie (fun hk => hne (by rw [hk])) heq
  rw [roundBits_of_lt hr]
  omega

/-- Where the last place is not the lowest, `p / q` has all its 53 significant bits. -/
theorem leading_place_le (hq : 0 < q) (h : 0 < lastPlace p q) : q * 2 ^ (52 + lastPlace p q) ≤ p := by
  have hne : p / q ≠ 0 := by intro h0; simp [lastPlace, h0] at h
  rw [add_lastPlace h, Nat.mul_comm, ← Nat.le_div_iff_mul_le hq]
  exact Nat.log2_self_le hne

/-- A value below the leading place stands farther from `p / q` than the result does. -/
theorem roundBits_nearer_than_below (hq : 0 < q) (hr : roundBits p q < infBits) (hpos : 0 < lastPlace p q)
    {v : Nat} (hv : v < 2 ^ (52 + lastPlace p q)) :
    |(p : Int) - q * magBits (roundBits p q)| < |(p : Int) - q * v| := by
  obtain ⟨hnear, -⟩ := roundBits_noFartherThan_multiple hq hr (2 ^ 52)
  rw [← Nat.pow_add] at hnear
  have hle := leading_place_le hq hpos
  have hlt : q * v < q * 2 ^ (52 + lastPlace p q) := Nat.mul_lt_mul_of_pos_left hv hq
  refine lt_of_le_of_lt hnear ?_
  rw [← Nat.cast_mul, ← Nat.cast_mul]
  generalize q * 2 ^ (52 + lastPlace p q) = y at *
  generalize q * v = x at *
  rw [abs_of_nonneg (by omega), abs_of_nonneg (by omega)]
  omega

/-- No finite encoding stands nearer to `p / q` than the result (R9): it is a multiple of the last place, or lies
below the leading place. -/
theorem roundBits_noFartherThan {b : Nat} (hq : 0 < q) (hr : roundBits p q < infBits) :
    NoFartherThan p q (roundBits p q) (magBits b) := by
  rcases magBits_on_grid b (lastPlace p q) with ⟨k, hk⟩ | hlow
  · rw [hk]
    exact roundBits_noFartherThan_multiple hq hr k
  · rcases Nat.eq_zero_or_pos (lastPlace p q) with h0 | hpos
    · have hunits := roundBits_noFartherThan_multiple hq hr (magBits b)
      rwa [h0, Nat.pow_zero, Nat.mul_one] at hunits
    · have hlt := roundBits_nearer_than_below hq hr hpos hlow
      exact ⟨hlt.le, fun _ heq => absurd heq hlt.ne⟩

/-- Below the middle of `k` and `k + 1` a ratio is rounded to `k` at most. -/
theorem nearestEven_le_of_lt_middle {k : Nat} (hq : 0 < q) (h : 2 * p < q * (2 * k + 1)) :
    nearestEven p q ≤ k := by
  have hdiv := Nat.div_add_mod p q
  have hle : p / q ≤ k := Nat.lt_succ_iff.1 ((Nat.div_lt_iff_lt_mul hq).2 (by nlinarith))
  rcases hle.lt_or_eq with hlt | heq
  · exact (nearestEven_le_succ p q).trans hlt
  · have hrem : 2 * (p % q) < q := by rw [heq] at hdiv; linarith
    have hdown : ¬ (q < 2 * (p % q) ∨ 2 * (p % q) = q ∧ k % 2 = 1) := by omega
    simp [nearestEven, heq, hdown]

/-- Half a unit in the last place above the largest finite value, in units of 2^-1074. -/
def overflowPoint : Nat := (2 ^ 54 - 1) * 2 ^ 2044

theorem roundBits_overflowPoint : roundBits overflowPoint 1 = infBits := by decide +kernel

/-- Below the overflow point the last place is that of the largest finite values at most. -/
theorem lastPlace_le_of_lt_overflowPoint (hq : 0 < q) (h : p < q * overflowPoint) :
    lastPlace p q ≤ 2045 :=
  calc lastPlace p q ≤ lastPlace overflowPoint 1 :=
        lastPlace_mono hq Nat.one_pos (by rw [Nat.mul_one, Nat.mul_comm]; exact h.le)
    _ = 2045 := by decide +kernel

/-- Twice the middle of the significands 2^53 − 1 and 2^53, at a last place and at the one below it. -/
theorem two_mul_middle (q : Nat) {e e' : Nat} (h : e' = e + 1) :
    2 * (q * ((2 ^ 54 - 1) * 2 ^ e)) = q * 2 ^ e' * (2 * (2 ^ 53 - 1) + 1) := by
  rw [h, Nat.pow_succ]
  ring

/-- Below the overflow point a significand at the highest last place does not carry. -/
theorem significand_le_of_lt_overflowPoint (hq : 0 < q) (h : p < q * overflowPoint) :
    nearestEven p (q * 2 ^ 2045) ≤ 2 ^ 53 - 1 := by
  refine nearestEven_le_of_lt_middle (by positivity) ?_
  calc 2 * p < 2 * (q * overflowPoint) := by omega
    _ = q * 2 ^ 2045 * (2 * (2 ^ 53 - 1) + 1) := two_mul_middle q rfl

/-- The result is finite exactly below half a unit in the last place above the largest finite value (R9). -/
theorem roundBits_lt_infBits_iff (hq : 0 < q) : roundBits p q < infBits ↔ p < q * overflowPoint := by
  constructor
  · intro h
    by_contra hge
    have hinf : infBits ≤ roundBits p q := by
      rw [← roundBits_overflowPoint]
      exact roundBits_mono Nat.one_pos hq (by rw [Nat.mul_one, Nat.mul_comm]; omega)
    omega
  · intro h
    have hsum : lastPlace p q * 2 ^ 52 + nearestEven p (q * 2 ^ lastPlace p q) < infBits := by
      unfold infBits
      rcases (lastPlace_le_of_lt_overflowPoint hq h).lt_or_eq with hlt | heq
      · have := significand_le p q
        omega
      · have := significand_le_of_lt_overflowPoint hq h
        rw [heq]
        omega
    unfold roundBits
    exact (Nat.min_le_right _ _).trans_lt hsum

end Rounding

section Operations

variable {a b : F64}

/-- An encoding built from a sign and a rounded result is that rounding. -/
theorem isRounding_pack (neg : Bool) (p q : Nat) : IsRounding (pack neg (roundBits p q)) neg p q :=
  ⟨sign_pack neg _, bits_pack neg (roundBits_le_infBits p q)⟩

theorem roundBits_zero : roundBits 0 1 = 0 := roundBits_magBits (b := 0) (by decide)

theorem isRounding_ofUnits_zero (zeroSign : Bool) : IsRounding (ofUnits zeroSign 0) zeroSign 0 1 := by
  have h := isRounding_pack zeroSign 0 1
  rwa [roundBits_zero] at h

theorem isRounding_ofUnits {n : Int} (zeroSign : Bool) (h : n ≠ 0) :
    IsRounding (ofUnits zeroSign n) (decide (n < 0)) n.natAbs 1 := by
  rw [ofUnits, if_neg h]
  exact isRounding_pack _ _ _

theorem add_of_finite (ha : isFinite a = true) (hb : isFinite b = true) :
    add a b = ofUnits (sign a && sign b) (units a + units b) := by
  simp [add, classes_of_finite ha, classes_of_finite hb]

theorem sub_of_finite (ha : isFinite a = true) (hb : isFinite b = true) :
    sub a b = ofUnits (sign a && !sign b) (units a - units b) := by
  simp [sub, classes_of_finite ha, classes_of_finite hb]

theorem mul_of_finite (ha : isFinite a = true) (hb : isFinite b = true) :
    mul a b = pack (sign a ^^ sign b) (roundBits (mag a * mag b) unitsInOne) := by
  simp [mul, classes_of_finite ha, classes_of_finite hb]

theorem div_of_finite (ha : isFinite a = true) (hb : isFinite b = true) (h0 : mag b ≠ 0) :
    div a b = pack (sign a ^^ sign b) (roundBits (mag a * unitsInOne) (mag b)) := by
  simp [div, classes_of_finite ha, classes_of_finite hb, h0]

/-- The order of the encodings of finite values is the order of the values: of equal signs that of the
magnitudes or its reverse; of different signs the negative one is the lesser, unless both are zero. -/
theorem key_lt_iff (ha : isFinite a = true) (hb : isFinite b = true) : key b < key a ↔ units b < units a := by
  obtain ⟨la, ma⟩ := mag_of_finite ha
  obtain ⟨lb, mb⟩ := mag_of_finite hb
  have hab := magBits_lt_iff la lb
  have hba := magBits_lt_iff lb la
  have ha0 := magBits_lt_iff (by decide : 0 < infBits) la
  have hb0 := magBits_lt_iff (by decide : 0 < infBits) lb
  rw [show magBits 0 = 0 from rfl] at ha0 hb0
  unfold key units
  rw [ma, mb]
  cases sign a <;> cases sign b <;> simp only [if_true, if_false, Bool.false_eq_true] <;> omega

theorem gt_iff_units_lt (ha : isFinite a = true) (hb : isFinite b = true) :
    gt a b = true ↔ units b < units a := by
  obtain ⟨na, -⟩ := classes_of_finite ha
  obtain ⟨nb, -⟩ := classes_of_finite hb
  rw [← key_lt_iff ha hb]
  simp [gt, na, nb]

theorem gt_of_isNaN (h : isNaN a = true ∨ isNaN b = true) : gt a b = false := by
  rcases h with h | h <;> simp [gt, h]

end Operations

/-- Settles O37: nearest even and its overflow (`roundBits_noFartherThan`, `roundBits_lt_infBits_iff`), the four
operations as one rounding of the exact result, the order. -/
theorem roundingIsToNearestTiesToEven : Obligations.RoundingIsToNearestTiesToEven := by
  unfold Obligations.RoundingIsToNearestTiesToEven
  refine ⟨fun p q b hq hr hb => ?_, fun p q hq => roundBits_lt_infBits_iff hq, fun a b ha hb => ?_,
    fun a b h => gt_of_isNaN h⟩
  · simp only [mag_ofNat hr, mag_ofNat hb]
    obtain ⟨hnear, htie⟩ := roundBits_noFartherThan (b := b) hq hr
    exact ⟨hnear, fun hne => htie fun hval => hne (magBits_inj hb hr hval)⟩
  · simp only [add_of_finite ha hb, sub_of_finite ha hb, mul_of_finite ha hb]
    refine ⟨isRounding_ofUnits _, fun h => ?_, isRounding_ofUnits _, fun h => ?_, isRounding_pack _ _ _,
      fun h0 => ?_, gt_iff_units_lt ha hb⟩
    · rw [h]; exact isRounding_ofUnits_zero _
    · rw [h]; exact isRounding_ofUnits_zero _
    · rw [div_of_finite ha hb h0]; exact isRounding_pack _ _ _

end Sys2Proof.Machine.F64
end

section
/-! PROOFS of the statements of spec/10_state.md on the invariant of the registers, the cursor, the lengths and the
errors: every step keeps it (O53), no step faults under it (O55). -/

namespace Sys2Proof.Machine

section Invariant

variable {s t : State}

/-- PKT_LEN, the error registers and the payload memory are the same: what the invariant says of them, and what no
command that goes on without an error or a build writes. -/
structure SameStanding (s t : State) : Prop where
  pktLen : t.pktLen = s.pktLen
  errCode : t.errCode = s.errCode
  errCmd : t.errCmd = s.errCmd
  payload : t.payload = s.payload
  payloadTorn : t.payloadTorn = s.payloadTorn

theorem versionLegal_iff : s.versionLegal = true ↔ s.ver = 1 ∨ s.ver = 2 := by
  simp [State.versionLegal]

/-- Outside BUILD no build is disturbed. -/
theorem State.Inv.not_torn (h : s.Inv) (hb : ∀ kind, s.runState ≠ .build kind) : s.payloadTorn = false := by
  refine Bool.eq_false_iff.2 fun ht => ?_
  obtain ⟨kind, hk⟩ := h.torn ht
  exact hb kind hk

/-- PKT_LEN is at most the size of the packet buffer (R6, R38). -/
theorem State.Inv.pktLen_le (h : s.Inv) : s.pktLen.toNat ≤ 512 := by
  rcases h.length with h0 | ⟨v, -, hlen⟩
  · simp [h0]
  · have := stopLen_range v
    omega

/-- A change within IDLE and MOD that writes neither PKT_LEN, an error nor payload memory keeps the invariant where
it keeps the bit in progress and the cursor. -/
theorem State.Inv.progress (h : s.Inv) (hs : s.runState = .idle ∨ s.runState = .mod)
    (ht : t.runState = .idle ∨ t.runState = .mod) (same : SameStanding s t)
    (quiet : t.runState ≠ .mod → t.bitsLeft = 0)
    (sending : t.runState = .mod → 1 ≤ t.bitsLeft.toNat ∧ t.bitsLeft.toNat ≤ 8
      ∧ t.curBit = t.curByte.getLsbD (8 - t.bitsLeft.toNat))
    (cursor : t.pos ≤ t.modN ∧ t.modN ≤ 512) : t.Inv := by
  have hse : s.runState ≠ .error := by rcases hs with hs | hs <;> simp [hs]
  have hte : t.runState ≠ .error := by rcases ht with ht | ht <;> simp [ht]
  have htb : ∀ kind, t.runState ≠ .build kind := by rcases ht with ht | ht <;> simp [ht]
  have hsb : ∀ kind, s.runState ≠ .build kind := by rcases hs with hs | hs <;> simp [hs]
  refine ⟨quiet, sending, cursor, ?_, fun kind hk => absurd hk (htb kind), ?_, fun _ => ?_, ?_, fun htorn => ?_⟩
  · rw [same.pktLen]; exact h.length
  · rw [same.errCode]; exact iff_of_true (h.errorCode.2 hse) hte
  · rw [same.errCmd]; exact h.errorWord hse
  · rw [same.payload]; exact h.memory
  · rw [same.payloadTorn, h.not_torn hsb] at htorn
    cases htorn

/-- Just after a byte is loaded its bit 0 is the bit in progress (R59, R93, R94). -/
theorem first_bit_in_progress (b : Byte) : 1 ≤ (8 : BitVec 4).toNat ∧ (8 : BitVec 4).toNat ≤ 8
    ∧ b.getLsbD 0 = b.getLsbD (8 - (8 : BitVec 4).toNat) :=
  ⟨by decide, by decide, rfl⟩

/-- An error taken in IDLE: STATE, ERR_CODE and ERR_CMD agree (R110, R111). -/
theorem State.Inv.raiseError (h : s.Inv) (hi : s.runState = .idle) (code : ErrorCode) (w : Word) :
    (s.raiseError code w).Inv :=
  { h with
    quiet := fun _ => h.quiet (by simp [hi])
    sending := nofun
    building := nofun
    errorCode := by simp
    errorWord := fun hne => absurd rfl hne
    torn := fun ht => by
      have := h.not_torn (by simp [hi])
      simp [this] at ht }

/-- A build starts in IDLE with a legal VERSION (R89, R90). -/
theorem State.Inv.startBuild (h : s.Inv) (hi : s.runState = .idle) (hv : s.versionLegal = true)
    (kind : PacketKind) : ({ s with runState := .build kind } : State).Inv :=
  { h with
    quiet := fun _ => h.quiet (by simp [hi])
    sending := nofun
    building := fun _ _ => hv
    errorCode := iff_of_true (h.errorCode.2 (by simp [hi])) nofun
    errorWord := fun _ => h.errorWord (by simp [hi])
    torn := fun _ => ⟨kind, rfl⟩ }

/-- A modulator command starts in IDLE: at once complete, or with bit 0 of byte 0 in progress (R93). -/
theorem State.Inv.beginModulation (h : s.Inv) (hi : s.runState = .idle) {n : Nat} (hn : n ≤ 512) :
    (beginModulation n s).Inv := by
  have hbits : s.bitsLeft = 0 := h.quiet (by simp [hi])
  rcases Nat.eq_zero_or_pos n with rfl | hpos
  · rw [beginModulation_empty hbits]
    exact h.progress (.inl hi) (.inl rfl) ⟨rfl, rfl, rfl, rfl, rfl⟩ (fun _ => hbits) nofun
      ⟨Nat.le_refl 0, Nat.zero_le _⟩
  · rw [beginModulation_bytes hbits hpos]
    exact h.progress (.inl hi) (.inr rfl) ⟨rfl, rfl, rfl, rfl, rfl⟩ (fun hne => absurd rfl hne)
      (fun _ => first_bit_in_progress _) ⟨hpos, hn⟩

/-- A command at its acceptance keeps the invariant (R102). -/
theorem exec_keeps_inv {i : Instr} (h : s.Inv) (hx : exec i s = .next t) : t.Inv := by
  rcases exec_cases hx with ⟨-, rfl⟩ | ⟨-, rfl⟩ |
    ⟨hi, rfl | ⟨kind, hv, rfl⟩ | rfl | ⟨n, hn, -, rfl⟩ | ⟨code, rfl⟩⟩
  · exact { h with }
  · exact h
  · exact h.progress (.inl hi) (.inl rfl) ⟨rfl, rfl, rfl, rfl, rfl⟩ (fun _ => h.quiet (by simp [hi])) nofun h.cursor
  · exact h.startBuild hi hv kind
  · exact h.progress (.inl hi) (.inl rfl) ⟨rfl, rfl, rfl, rfl, rfl⟩ (fun _ => rfl) nofun h.cursor
  · refine h.beginModulation hi ?_
    rcases hn with hn | rfl
    · exact hn
    · exact h.pktLen_le
  · exact h.raiseError hi _ _

theorem cmdWrite_keeps_inv {w : Word} (h : s.Inv) (hc : cmdWrite w s = .next t) : t.Inv := by
  rcases cmdWrite_cases hc with ⟨i, -, hx⟩ | ⟨-, rfl⟩ | ⟨-, rfl⟩ | ⟨⟨hi, -⟩, rfl⟩
  · exact exec_keeps_inv h hx
  · exact { h with }
  · exact h
  · exact h.raiseError hi _ _

/-- After a reset no bit is in progress, no error stands, the lengths are 0 (R52, R123). -/
theorem State.Inv.resetBlock (hm : s.payload.wf = true) : s.resetBlock.Inv :=
  ⟨fun _ => rfl, nofun, ⟨Nat.le_refl 0, Nat.zero_le _⟩, .inl rfl, nofun, by simp, fun _ => rfl, hm, nofun⟩

theorem SlotWritten.keeps_inv {w : Word} {slot : Slot} (h : s.Inv) (hw : SlotWritten s w slot t) : t.Inv := by
  cases hw with
  | config _ htw ht =>
    rw [ht]
    refine { h with building := fun kind hk => ?_ }
    have hk' : s.runState = .build kind := hk
    rcases takesWrites_iff.1 htw with hr | hr <;> simp [hk'] at hr
  | reset => exact State.Inv.resetBlock h.memory
  | _ => exact { h with }

/-- A register-port write keeps the invariant (R107). -/
theorem regWrite_keeps_inv {a : Offset} {w : Word} (h : s.Inv) (hw : regWrite a w s = .next t) : t.Inv := by
  rcases regWrite_cases hw with ⟨-, hc⟩ | ⟨-, hs⟩
  · exact cmdWrite_keeps_inv h hc
  · exact hs.keeps_inv h

/-- The build step leaves PKT_LEN at the length of its packet, and no build to disturb (R89, R90). -/
theorem State.Inv.buildStep (h : s.Inv) {kind : PacketKind} (hb : s.runState = .build kind) :
    (buildStep kind s).Inv :=
  { h with
    quiet := fun _ => h.quiet (by simp [hb])
    sending := nofun
    building := nofun
    length := by
      refine .inr ⟨s.ver, versionLegal_iff.1 (h.building kind hb), ?_⟩
      rw [buildStep_pktLen]
      cases kind <;> simp [State.packetOf]
    errorCode := iff_of_true (h.errorCode.2 (by simp [hb])) nofun
    errorWord := fun _ => h.errorWord (by simp [hb])
    torn := nofun }

/-- The end of a bit: the command completes with no bit left, loads the next byte within the cursor's bound, or
goes on to the next bit (R94, R95). -/
theorem nextBit_keeps_inv (h : s.Inv) (hm : s.runState = .mod) (hn : nextBit s.endBit = .next t) : t.Inv := by
  obtain ⟨hlow, hhigh, -⟩ := h.sending hm
  obtain ⟨hpos, hmodN⟩ := h.cursor
  rcases nextBit_cases hn with ⟨hbits, -, rfl⟩ | ⟨-, hne, b, -, rfl⟩ | ⟨hbits, rfl⟩
  · exact h.progress (.inr hm) (.inl rfl) ⟨rfl, rfl, rfl, rfl, rfl⟩ (fun _ => hbits) nofun h.cursor
  · have hne' : s.pos ≠ s.modN := hne
    have hnext : s.pos + 1 ≤ s.modN := by omega
    exact h.progress (.inr hm) (.inr hm) ⟨rfl, rfl, rfl, rfl, rfl⟩ (fun hno => absurd hm hno)
      (fun _ => first_bit_in_progress b) ⟨hnext, hmodN⟩
  · have hbits' : s.bitsLeft - 1 ≠ 0 := hbits
    have hrange : 1 ≤ (s.bitsLeft - 1).toNat ∧ (s.bitsLeft - 1).toNat ≤ 8 := by
      constructor <;> bv_omega
    exact h.progress (.inr hm) (.inr hm) ⟨rfl, rfl, rfl, rfl, rfl⟩ (fun hno => absurd hm hno)
      (fun _ => ⟨hrange.1, hrange.2, rfl⟩) h.cursor

/-- ENGINE's step keeps the invariant (R103). -/
theorem engineStep_keeps_inv (h : s.Inv) (he : engineStep s = .next t) : t.Inv := by
  rcases engineStep_cases he with ⟨-, rfl⟩ | ⟨kind, hb, rfl⟩ | ⟨hm, -, hstep⟩
  · exact h
  · exact h.buildStep hb
  · have hadv : s.advance.Inv := { h with }
    obtain ⟨-, -, ⟨-, rfl⟩ | ⟨-, hn⟩⟩ := sampleStep_cases hstep
    · exact hadv
    · exact nextBit_keeps_inv hadv (by simp [hm]) hn

/-- A build is disturbed exactly by a host write of payload memory in BUILD (R68). -/
theorem payloadWrite_torn_iff (a : BitVec 32) (v : Byte) (s : State) :
    (payloadWrite a v s).payloadTorn = true ↔ (∃ kind, s.runState = .build kind) ∨ s.payloadTorn = true := by
  unfold payloadWrite
  cases hr : s.runState <;> simp

theorem State.Inv.payloadWrite (h : s.Inv) (a : BitVec 32) (v : Byte) : (payloadWrite a v s).Inv :=
  { h with
    memory := Memory.wf_write h.memory a v
    torn := fun ht => by
      rcases (payloadWrite_torn_iff a v s).1 ht with hb | hb
      · exact hb
      · exact h.torn hb }

end Invariant

/-- Settles O53, from what every agent's part of a step does to the invariant (R22, R66). -/
theorem everyStepKeepsTheInvariant : Obligations.EveryStepKeepsTheInvariant := by
  unfold Obligations.EveryStepKeepsTheInvariant
  intro s t hs h
  exact step_preserves h hs
    (agenda := fun u ms hu => { hu with })
    (read := fun u a hu => { hu with })
    (write := fun u v a w hu _ hw => regWrite_keeps_inv hu hw)
    (engine := fun u v hu he => engineStep_keeps_inv hu he)
    (reset := fun u _ hu => State.Inv.resetBlock hu.memory)
    (sink := fun u b hu => { hu with })
    (payload := fun u a v _ hu => hu.payloadWrite a v)
    (silence := fun u n hu => { hu with })

section NoFault

variable {s : State}

theorem accept_next {run : State → Result} (h : ∃ t, run s = .next t) : ∃ t, accept s run = .next t := by
  cases hr : s.runState with
  | idle => rw [accept_idle hr]; exact h
  | build kind => exact ⟨_, accept_busy (.inl ⟨kind, hr⟩)⟩
  | mod => exact ⟨_, accept_busy (.inr hr)⟩
  | error => exact ⟨_, accept_error hr⟩

theorem startBuild_next (kind : PacketKind) (w : Word) (s : State) : ∃ t, startBuild kind w s = .next t := by
  unfold startBuild
  split <;> exact ⟨_, rfl⟩

theorem prologue_next (n : Nat) (w : Word) (s : State) : ∃ t, prologue n w s = .next t := by
  unfold prologue
  split <;> exact ⟨_, rfl⟩

theorem startModBuf_next (len : Nat) (w : Word) (s : State) : ∃ t, startModBuf len w s = .next t := by
  unfold startModBuf
  split
  · exact ⟨_, rfl⟩
  · exact prologue_next len w s

/-- Every command has a next state at its acceptance, in every state (R102). -/
theorem exec_next (i : Instr) (s : State) : ∃ t, exec i s = .next t := by
  cases i with
  | nop => exact accept_next (run := fun s => .next s.complete) ⟨_, rfl⟩
  | buildCtrl => exact accept_next (startBuild_next _ _ s)
  | buildData => exact accept_next (startBuild_next _ _ s)
  | modBuf len => exact accept_next (startModBuf_next _ _ s)
  | modPkt => exact accept_next (prologue_next _ _ s)
  | oscReset => exact accept_next (run := fun s => .next s.resetOscillator.complete) ⟨_, rfl⟩

theorem cmdWrite_next (w : Word) (s : State) : ∃ t, cmdWrite w s = .next t := by
  unfold cmdWrite
  split
  · exact exec_next _ s
  · exact accept_next ⟨_, rfl⟩

/-- Every register-port write has a next state (R107). -/
theorem regWrite_next (a : Offset) (w : Word) (s : State) : ∃ t, regWrite a w s = .next t := by
  unfold regWrite
  split
  · exact cmdWrite_next w s
  · exact ⟨_, rfl⟩

/-- The packet buffer has each of its 512 bytes (R45). -/
theorem pktRead_eq_some (s : State) {i : Nat} (h : i < 512) : s.pktRead i = some s.pktBuf[i] := by
  simp [State.pktRead, h]

/-- Below MOD_N, at most 512, the packet buffer has the next byte (R49, R56). -/
theorem nextBit_next (h : s.pos ≤ s.modN ∧ s.modN ≤ 512) : ∃ t, nextBit s = .next t := by
  unfold nextBit
  split
  · split
    · exact ⟨_, rfl⟩
    · rw [pktRead_eq_some s (by omega)]
      exact ⟨_, rfl⟩
  · exact ⟨_, rfl⟩

/-- Under the invariant ENGINE's step does not fault: a bit is in progress, and the next byte exists (R49, R56). -/
theorem engineStep_next (h : s.Inv) : ∃ t, engineStep s = .next t := by
  cases hr : s.runState with
  | idle => exact ⟨s, by simp [engineStep, hr]⟩
  | build kind => exact ⟨buildStep kind s, by simp [engineStep, hr]⟩
  | error => exact ⟨s, by simp [engineStep, hr]⟩
  | mod =>
    cases hready : s.sinkReady with
    | false => exact ⟨s, by simp [engineStep, hr, hready]⟩
    | true =>
      obtain ⟨hlow, hhigh, -⟩ := h.sending hr
      rw [engineStep_of_sending hr hready hlow hhigh]
      split
      · exact nextBit_next (by simpa using h.cursor)
      · exact ⟨_, rfl⟩

/-- Under the invariant every move is performed. -/
theorem perform_next (h : s.Inv) (m : Move) : ∃ t, perform m s = .next t := by
  have hnoted (d : Word) (n : Nat) (ms : List Move) :
      ∃ t, engineStep { s with readData := d, draws := n, agenda := ms } = .next t :=
    engineStep_next { h with }
  cases m with
  | write a w => exact regWrite_next a w s
  | engine => exact engineStep_next h
  | writeWithEngine a w =>
    obtain ⟨v, hv⟩ := regWrite_next a w s
    simp only [perform, writeWithEngine, hv]
    split
    · exact engineStep_next (regWrite_keeps_inv h hv)
    · exact ⟨v, rfl⟩
  | waitIdle =>
    simp only [perform, waitIdle]
    split
    · exact hnoted _ _ _
    · exact ⟨_, rfl⟩
  | waitDone =>
    simp only [perform, waitDone]
    split
    · exact ⟨_, rfl⟩
    · exact hnoted _ _ _
  | _ => exact ⟨_, rfl⟩

end NoFault

/-- Settles O55: ENGINE's step and every move have a next state under the invariant. -/
theorem noStepFaultsUnderTheInvariant : Obligations.NoStepFaultsUnderTheInvariant := by
  unfold Obligations.NoStepFaultsUnderTheInvariant
  intro s h
  unfold step
  split
  · exact engineStep_next h
  · rename_i m rest _
    have hrest : (s.withAgenda rest).Inv := { h with }
    exact perform_next hrest m

end Sys2Proof.Machine
end

section
/-! PROOFS of the statements of spec/10_state.md on the modulator's numbers: every step keeps the numeric invariant
(O54), PHASE never decreases within a command (O35); the reset state meets both invariants (O52). -/

namespace Sys2Proof.Machine

open F64

section Numbers

variable {s t : State}

/-- What one sample step does to the modulator's numbers: the increments stand, PHASE takes its sum, BAUD_FRAC takes
its sum where that is no more than 1.0, and else what is left of it (R94). -/
structure SampleNumbers (s t : State) : Prop where
  phase : t.phase = add s.phase (if s.curBit then s.omegaHi else s.omegaLo)
  baudFrac : (gt (add s.baudFrac s.baudInc) one = false ∧ t.baudFrac = add s.baudFrac s.baudInc)
    ∨ (gt (add s.baudFrac s.baudInc) one = true ∧ t.baudFrac = sub (add s.baudFrac s.baudInc) one)
  omegaLo : t.omegaLo = s.omegaLo
  omegaHi : t.omegaHi = s.omegaHi
  baudInc : t.baudInc = s.baudInc

theorem sampleStep_numbers (h : sampleStep s = .next t) : SampleNumbers s t := by
  obtain ⟨-, -, ⟨hgt, rfl⟩ | ⟨hgt, hn⟩⟩ := sampleStep_cases h
  · exact ⟨by simp, .inl ⟨hgt, rfl⟩, by simp, by simp, by simp⟩
  · have hfrac : s.advance.endBit.baudFrac = sub (add s.baudFrac s.baudInc) one := by simp
    rcases nextBit_cases hn with ⟨-, -, rfl⟩ | ⟨-, -, b, -, rfl⟩ | ⟨-, rfl⟩
    all_goals exact ⟨by simp, .inr ⟨hgt, hfrac⟩, by simp, by simp, by simp⟩

/-- The increment the frequency-select multiplexer chooses is bounded as both are (R99). -/
theorem State.NumInv.increment_le (h : s.NumInv) :
    (if s.curBit then s.omegaHi else s.omegaLo).toNat ≤ omegaCeiling := by
  split
  · exact h.omegaHi
  · exact h.omegaLo

/-- One sample step keeps BAUD_FRAC at most 1.0: where the sum is greater, 1.0 is taken off (R94, R99). -/
theorem SampleNumbers.baudFrac_le (hn : SampleNumbers s t) (h : s.NumInv) : t.baudFrac.toNat ≤ one.toNat := by
  have hsum := add_fraction_lt h.baudFrac h.baudInc
  have hgt := gt_iff (Nat.lt_of_le_of_lt hsum (by decide)) one_lt
  rcases hn.baudFrac with ⟨hno, ht⟩ | ⟨hyes, ht⟩
  · rw [ht]
    rw [hno] at hgt
    simpa using hgt
  · rw [ht]
    exact sub_fraction_le hsum (hgt.1 hyes).le

/-- A sample step in MOD keeps the numeric invariant (R94, R99). -/
theorem sampleStep_keeps_numInv (h : s.NumInv) (hm : s.runState = .mod) (hs : sampleStep s = .next t) :
    t.NumInv := by
  have hn := sampleStep_numbers hs
  refine ⟨hn.baudFrac_le h, ?_, ?_, ?_, ?_, fun _ => ?_⟩
  · rw [hn.phase]; exact add_le_phaseCeiling h.phase h.increment_le
  · rw [hn.omegaLo]; exact h.omegaLo
  · rw [hn.omegaHi]; exact h.omegaHi
  · rw [hn.baudInc]; exact h.baudInc
  · rw [hn.baudInc]; exact h.baudIncLow hm

theorem engineStep_keeps_numInv (h : s.NumInv) (he : engineStep s = .next t) : t.NumInv := by
  rcases engineStep_cases he with ⟨-, rfl⟩ | ⟨kind, -, rfl⟩ | ⟨hm, -, hstep⟩
  · exact h
  · exact { h with baudIncLow := nofun }
  · exact sampleStep_keeps_numInv h hm hstep

/-- The prologue of a command with legal rates latches bounded increments (R92, R99). -/
theorem State.NumInv.beginModulation (h : s.NumInv) (hr : s.ratesIllegal = false) (n : Nat) :
    (beginModulation n s).NumInv := by
  obtain ⟨hbaud, hrate⟩ := ratesIllegal_eq_false_iff.1 hr
  obtain ⟨hlow, hhigh⟩ := baudIncrement_bounds hbaud hrate
  have hpos : 0 < s.sampleRate.toNat := Nat.lt_trans hbaud hrate
  refine ⟨?_, ?_, ?_, ?_, ?_, fun _ => ?_⟩
  · simpa using h.baudFrac
  · simpa using h.phase
  · simpa using omega_le hpos
  · simpa using omega_le hpos
  · simpa using hhigh
  · simpa using hlow

/-- A command at its acceptance keeps the numeric invariant (R102). -/
theorem exec_keeps_numInv {i : Instr} (h : s.NumInv) (hx : exec i s = .next t) : t.NumInv := by
  rcases exec_cases hx with ⟨-, rfl⟩ | ⟨-, rfl⟩ |
    ⟨-, rfl | ⟨kind, -, rfl⟩ | rfl | ⟨n, -, hr, rfl⟩ | ⟨code, rfl⟩⟩
  · exact { h with }
  · exact h
  · exact { h with baudIncLow := nofun }
  · exact { h with baudIncLow := nofun }
  · exact { h with baudFrac := Nat.zero_le _, phase := Nat.zero_le _, baudIncLow := nofun }
  · exact h.beginModulation hr n
  · exact { h with baudIncLow := nofun }

theorem cmdWrite_keeps_numInv {w : Word} (h : s.NumInv) (hc : cmdWrite w s = .next t) : t.NumInv := by
  rcases cmdWrite_cases hc with ⟨i, -, hx⟩ | ⟨-, rfl⟩ | ⟨-, rfl⟩ | ⟨-, rfl⟩
  · exact exec_keeps_numInv h hx
  · exact { h with }
  · exact h
  · exact { h with baudIncLow := nofun }

/-- After a reset every number is +0.0 (R52, R123). -/
theorem resetBlock_numInv (s : State) : s.resetBlock.NumInv :=
  ⟨Nat.zero_le _, Nat.zero_le _, Nat.zero_le _, Nat.zero_le _, (by decide : (0 : F64).toNat < one.toNat), nofun⟩

theorem SlotWritten.keeps_numInv {w : Word} {slot : Slot} (h : s.NumInv) (hw : SlotWritten s w slot t) :
    t.NumInv := by
  cases hw with
  | config _ _ ht => rw [ht]; exact { h with }
  | reset => exact resetBlock_numInv _
  | _ => exact { h with }

/-- A register-port write keeps the numeric invariant (R107). -/
theorem regWrite_keeps_numInv {a : Offset} {w : Word} (h : s.NumInv) (hw : regWrite a w s = .next t) :
    t.NumInv := by
  rcases regWrite_cases hw with ⟨-, hc⟩ | ⟨-, hs⟩
  · exact cmdWrite_keeps_numInv h hc
  · exact hs.keeps_numInv h

/-- A sample step leaves PHASE not less than it was: the increment is not negative (R49, R99). -/
theorem SampleNumbers.phase_le (hn : SampleNumbers s t) (h : s.NumInv) : s.phase.toNat ≤ t.phase.toNat := by
  rw [hn.phase]
  exact le_add (Nat.lt_of_le_of_lt h.phase phaseCeiling_lt) (Nat.lt_of_le_of_lt h.increment_le omegaCeiling_lt)

/-- In MOD ENGINE's step leaves PHASE not less than it was (R49). -/
theorem engineStep_phase_le (h : s.NumInv) (hm : s.runState = .mod) (he : engineStep s = .next t) :
    s.phase.toNat ≤ t.phase.toNat := by
  rcases engineStep_cases he with ⟨-, rfl⟩ | ⟨kind, hb, -⟩ | ⟨-, -, hstep⟩
  · exact Nat.le_refl _
  · rw [hm] at hb; cases hb
  · exact (sampleStep_numbers hstep).phase_le h

end Numbers

/-- Settles O54, from what every agent's part of a step does to the numeric invariant (R22, R66). -/
theorem everyStepKeepsTheNumericInvariant : Obligations.EveryStepKeepsTheNumericInvariant := by
  unfold Obligations.EveryStepKeepsTheNumericInvariant
  intro s t hs h
  exact step_preserves h hs
    (agenda := fun u ms hu => { hu with })
    (read := fun u a hu => { hu with })
    (write := fun u v a w hu _ hw => regWrite_keeps_numInv hu hw)
    (engine := fun u v hu he => engineStep_keeps_numInv hu he)
    (reset := fun u _ _ => resetBlock_numInv u)
    (sink := fun u b hu => { hu with })
    (payload := fun u a v _ hu => { hu with })
    (silence := fun u n hu => { hu with })

/-- Settles O35: below the ceiling the order of the encodings is that of the values (R49, R99). -/
theorem phaseNeverDecreasesInACommand : Obligations.PhaseNeverDecreasesInACommand := by
  unfold Obligations.PhaseNeverDecreasesInACommand
  intro s t h hm he
  have hs := Nat.lt_of_le_of_lt h.phase phaseCeiling_lt
  have ht := Nat.lt_of_le_of_lt (engineStep_keeps_numInv h he).phase phaseCeiling_lt
  obtain ⟨-, -, -, hsfin, -⟩ := fields_of_lt hs
  obtain ⟨-, -, -, htfin, -⟩ := fields_of_lt ht
  refine ⟨hsfin, htfin, ?_⟩
  rw [units_of_lt hs, units_of_lt ht]
  exact_mod_cast magBits_mono (engineStep_phase_le h hm he)

/-- At reset no bit is in progress, no error stands, the lengths are 0, no payload byte is listed (R52). -/
theorem reset_inv : State.reset.Inv :=
  ⟨fun _ => rfl, nofun, ⟨Nat.le_refl 0, Nat.zero_le _⟩, .inl rfl, nofun, iff_of_true rfl nofun, fun _ => rfl, rfl, nofun⟩

/-- At reset every number is +0.0 (R52). -/
theorem reset_numInv : State.reset.NumInv :=
  ⟨Nat.zero_le _, Nat.zero_le _, Nat.zero_le _, Nat.zero_le _, (by decide : (0 : F64).toNat < one.toNat), nofun⟩

/-- Settles O52. -/
theorem resetMeetsTheInvariants : Obligations.ResetMeetsTheInvariants := by
  unfold Obligations.ResetMeetsTheInvariants
  exact ⟨reset_inv, reset_numInv⟩

end Sys2Proof.Machine
end

section
/-! PROOFS of the statements of spec/10_state.md on what writes the packet buffer (O58), clears DROP (O59) and writes
payload memory (O60). -/

namespace Sys2Proof.Machine

section Frames

variable {s t v : State} {w : Word} {slot : Slot} {a : Offset}

/-- Payload memory, the packet buffer and PKT_LEN stand, and DROP is not cleared: so it is from `s` to `t` by a
command at its acceptance and by a sample step. -/
structure KeepsBuffers (s t : State) : Prop where
  payload : t.payload = s.payload
  packet : SamePacket s t
  drop : s.drop = true → t.drop = true

theorem SamePacket.refl (s : State) : SamePacket s s := ⟨fun _ => rfl, rfl⟩

theorem KeepsBuffers.refl (s : State) : KeepsBuffers s s := ⟨rfl, .refl s, id⟩

/-- A dropped word and an error write no buffer (R102, R111). -/
theorem KeepsBuffers.setDrop (s : State) : KeepsBuffers s s.setDrop := ⟨rfl, ⟨fun _ => rfl, rfl⟩, fun _ => rfl⟩

theorem KeepsBuffers.raiseError (s : State) (code : ErrorCode) (w : Word) :
    KeepsBuffers s (s.raiseError code w) := ⟨rfl, ⟨fun _ => rfl, rfl⟩, id⟩

/-- No command writes a buffer at its acceptance (R102). -/
theorem exec_keepsBuffers {i : Instr} (h : exec i s = .next t) : KeepsBuffers s t := by
  rcases exec_cases h with ⟨-, rfl⟩ | ⟨-, rfl⟩ |
    ⟨-, rfl | ⟨kind, -, rfl⟩ | rfl | ⟨n, -, -, rfl⟩ | ⟨code, rfl⟩⟩
  · exact .setDrop s
  · exact .refl _
  · exact ⟨rfl, ⟨fun _ => rfl, rfl⟩, id⟩
  · exact ⟨rfl, ⟨fun _ => rfl, rfl⟩, id⟩
  · exact ⟨rfl, ⟨fun _ => rfl, rfl⟩, id⟩
  · obtain ⟨-, -, hpacket, -⟩ := beginModulation_frame n s
    exact ⟨by simp, hpacket, by simp⟩
  · exact .raiseError s code _

theorem cmdWrite_keepsBuffers (h : cmdWrite w s = .next t) : KeepsBuffers s t := by
  rcases cmdWrite_cases h with ⟨i, -, hx⟩ | ⟨-, rfl⟩ | ⟨-, rfl⟩ | ⟨-, rfl⟩
  · exact exec_keepsBuffers hx
  · exact .setDrop s
  · exact .refl _
  · exact .raiseError s _ w

/-- A sample step reads the packet buffer and writes no buffer (R94). -/
theorem sampleStep_keepsBuffers (h : sampleStep s = .next t) : KeepsBuffers s t := by
  obtain ⟨-, -, ⟨-, rfl⟩ | ⟨-, hn⟩⟩ := sampleStep_cases h
  · exact ⟨by simp, ⟨fun _ => rfl, by simp⟩, by simp⟩
  · rcases nextBit_cases hn with ⟨-, -, rfl⟩ | ⟨-, -, b, -, rfl⟩ | ⟨-, rfl⟩
    all_goals exact ⟨by simp, ⟨fun _ => rfl, by simp⟩, by simp⟩

/-- ENGINE's step writes a buffer in its build step only, which leaves BUILD (R89, R90, R104). -/
theorem engineStep_keepsBuffers (h : engineStep s = .next t)
    (hb : ∀ kind, s.runState = .build kind → t.runState = .build kind) : KeepsBuffers s t := by
  rcases engineStep_cases h with ⟨-, rfl⟩ | ⟨kind, hk, rfl⟩ | ⟨-, -, hs⟩
  · exact .refl _
  · cases hb kind hk
  · exact sampleStep_keepsBuffers hs

theorem engineStep_payload (h : engineStep s = .next t) : t.payload = s.payload := by
  rcases engineStep_cases h with ⟨-, rfl⟩ | ⟨kind, -, rfl⟩ | ⟨-, -, hs⟩
  · rfl
  · rfl
  · exact (sampleStep_keepsBuffers hs).payload

theorem engineStep_keeps_drop (h : engineStep s = .next t) (hd : s.drop = true) : t.drop = true := by
  rcases engineStep_cases h with ⟨-, rfl⟩ | ⟨kind, -, rfl⟩ | ⟨-, -, hs⟩
  · exact hd
  · exact hd
  · exact (sampleStep_keepsBuffers hs).drop hd

theorem SlotWritten.payload_eq (h : SlotWritten s w slot t) : t.payload = s.payload := by
  cases h with
  | config _ _ ht => rw [ht]
  | _ => rfl

/-- A register-port write leaves payload memory (R50, R123). -/
theorem regWrite_payload (h : regWrite a w s = .next t) : t.payload = s.payload := by
  rcases regWrite_cases h with ⟨-, hc⟩ | ⟨-, hs⟩
  · exact (cmdWrite_keepsBuffers hc).payload
  · exact hs.payload_eq

/-- The write is the reset of CTRL.SRST (R109). -/
def IsSoftReset (slot : Slot) (w : Word) : Prop := slot = .ctrl ∧ w.getLsbD 0 = true

theorem not_isSoftReset (hw : s.writesNext a w) (h : s.resetsNext = false) : ¬ IsSoftReset (slotOf a) w := by
  rintro ⟨hslot, hbit⟩
  rw [State.writesNext_resets hw, hslot, hbit] at h
  cases h

theorem SlotWritten.keeps_drop (h : SlotWritten s w slot t) (hr : ¬ IsSoftReset slot w) (hd : s.drop = true) :
    t.drop = true ∨ (slot = .status ∧ w.getLsbD 3 = true) := by
  cases h with
  | config _ _ ht => rw [ht]; exact .inl hd
  | dropped => exact .inl rfl
  | status hslot =>
    cases hbit : w.getLsbD 3 with
    | false => exact .inl (by rw [State.statusWrite_drop, hd, hbit]; rfl)
    | true => exact .inr ⟨hslot, rfl⟩
  | reset _ _ hslot hbit => exact absurd ⟨hslot, hbit⟩ hr
  | _ => exact .inl hd

/-- A register-port write that is no reset clears DROP only as a STATUS write with bit 3 = 1 (R107, R114). -/
theorem regWrite_keeps_drop (h : regWrite a w s = .next t) (hr : ¬ IsSoftReset (slotOf a) w)
    (hd : s.drop = true) : t.drop = true ∨ (slotOf a = .status ∧ w.getLsbD 3 = true) := by
  rcases regWrite_cases h with ⟨-, hc⟩ | ⟨-, hs⟩
  · exact .inl ((cmdWrite_keepsBuffers hc).drop hd)
  · exact hs.keeps_drop hr hd

/-- From `s` to `t` PKT_LEN stands, and so does every packet-buffer byte outside the window word `slot` (R38, R45). -/
def WritesWindowOnly (s : State) (slot : Slot) (t : State) : Prop :=
  t.pktLen = s.pktLen ∧ ∀ i, t.pktRead i = s.pktRead i ∨ ∃ k : Fin 128, slot = .pkt k ∧ i / 4 = k.val

theorem SamePacket.writesWindowOnly (h : SamePacket s t) (slot : Slot) : WritesWindowOnly s slot t :=
  ⟨h.pktLen, fun i => .inl (h.bytes i)⟩

theorem WritesWindowOnly.trans_same (h : WritesWindowOnly s slot v) (h' : SamePacket v t) :
    WritesWindowOnly s slot t := by
  obtain ⟨hlen, hbytes⟩ := h
  exact ⟨h'.pktLen.trans hlen, fun i => (hbytes i).imp_left (h'.bytes i).trans⟩

theorem SlotWritten.writesWindowOnly (h : SlotWritten s w slot t) (hr : ¬ IsSoftReset slot w) :
    WritesWindowOnly s slot t := by
  cases h with
  | config _ _ ht => rw [ht]; exact (SamePacket.refl s).writesWindowOnly slot
  | window k hslot _ =>
    refine ⟨rfl, fun i => ?_⟩
    by_cases hi : i / 4 = k.val
    · exact .inr ⟨k, hslot, hi⟩
    · exact .inl ((windowWrite_getElem? s.pktBuf k w i).trans (if_neg hi))
  | reset _ _ hslot hbit => exact absurd ⟨hslot, hbit⟩ hr
  | _ => exact (SamePacket.refl s).writesWindowOnly slot

/-- A register-port write that is no reset writes at most its own window word (R44, R107). -/
theorem regWrite_writesWindowOnly (h : regWrite a w s = .next t) (hr : ¬ IsSoftReset (slotOf a) w) :
    WritesWindowOnly s (slotOf a) t := by
  rcases regWrite_cases h with ⟨-, hc⟩ | ⟨-, hs⟩
  · exact (cmdWrite_keepsBuffers hc).packet.writesWindowOnly _
  · exact hs.writesWindowOnly hr

theorem SlotWritten.keeps_build {kind : PacketKind} (h : SlotWritten s w slot t) (ht : t.runState = .build kind) :
    s.runState = .build kind := by
  cases h with
  | config _ _ heq => rw [heq] at ht; exact ht
  | reset => cases ht
  | _ => exact ht

/-- No write starts a build while a command runs (R102). -/
theorem regWrite_busy_build {kind : PacketKind} (hb : (∃ kind, s.runState = .build kind) ∨ s.runState = .mod)
    (h : regWrite a w s = .next t) (ht : t.runState = .build kind) : s.runState = .build kind := by
  rcases regWrite_cases h with ⟨-, hc⟩ | ⟨-, hs⟩
  · rw [cmdWrite_of_busy w hb] at hc
    cases hc
    exact ht
  · exact hs.keeps_build ht

/-- A host write and ENGINE's enabled step in one step, no reset and no build step, write at most the write's own
window word. -/
theorem regWrite_engineStep_writesWindowOnly (he : s.engineEnabled = true) (hr : ¬ IsSoftReset (slotOf a) w)
    (hb : ∀ kind, s.runState = .build kind → t.runState = .build kind) (hw : regWrite a w s = .next v)
    (h : engineStep v = .next t) : WritesWindowOnly s (slotOf a) t := by
  have hvt : KeepsBuffers v t := engineStep_keepsBuffers h fun kind hk =>
    hb kind (regWrite_busy_build (busy_of_engineEnabled he) hw hk)
  exact (regWrite_writesWindowOnly hw hr).trans_same hvt.packet

/-- A write by HOST's move changes packet-buffer bytes of its window word only, in the words of O58. -/
theorem WritesWindowOnly.of_hostWrite (h : WritesWindowOnly s (slotOf a) t) (hw : s.writesNext a w) :
    t.pktLen = s.pktLen
    ∧ ∀ i, t.pktRead i = s.pktRead i ∨ ∃ k w, s.hostWrites (.pkt k) w ∧ i / 4 = k.val := by
  obtain ⟨hlen, hbytes⟩ := h
  refine ⟨hlen, fun i => (hbytes i).imp_right ?_⟩
  rintro ⟨k, hslot, hi⟩
  exact ⟨k, w, hslot ▸ State.hostWrites_of_writesNext hw, hi⟩

end Frames

/-- Settles O58, from what one step is (`step_cases`): only ENGINE's step outside BUILD and host writes remain, and
the writes reach their own window word. -/
theorem onlyFramerWindowAndResetWriteThePacketBuffer :
    Obligations.OnlyFramerWindowAndResetWriteThePacketBuffer := by
  unfold Obligations.OnlyFramerWindowAndResetWriteThePacketBuffer
  intro s t h hr hb
  rcases step_cases h with ⟨d, n, ms, he⟩ | ⟨d, n, ms, rfl⟩ | ⟨a, w, rest, hag, hw⟩
    | ⟨a, w, rest, hag, ⟨v, hen, hw, he⟩ | ⟨-, hw⟩⟩ | ⟨hreset, -⟩ | ⟨b, rest, rfl⟩
    | ⟨a, v, rest, -, rfl⟩ | ⟨n, rest, -, rfl⟩
  · obtain ⟨hbytes, hlen⟩ := (engineStep_keepsBuffers he hb).packet
    exact ⟨hlen, fun i => .inl (hbytes i)⟩
  · exact ⟨rfl, fun _ => .inl rfl⟩
  · have hnext : s.writesNext a w := ⟨rest, .inl hag⟩
    have hwin : WritesWindowOnly s (slotOf a) t :=
      regWrite_writesWindowOnly (s := s.withAgenda rest) hw (not_isSoftReset hnext hr)
    exact hwin.of_hostWrite hnext
  · have hnext : s.writesNext a w := ⟨rest, .inr hag⟩
    have hwin : WritesWindowOnly s (slotOf a) t :=
      regWrite_engineStep_writesWindowOnly (s := s.withAgenda rest) hen (not_isSoftReset hnext hr) hb hw he
    exact hwin.of_hostWrite hnext
  · have hnext : s.writesNext a w := ⟨rest, .inr hag⟩
    have hwin : WritesWindowOnly s (slotOf a) t :=
      regWrite_writesWindowOnly (s := s.withAgenda rest) hw (not_isSoftReset hnext hr)
    exact hwin.of_hostWrite hnext
  · rw [hr] at hreset; cases hreset
  · exact ⟨rfl, fun _ => .inl rfl⟩
  · exact ⟨rfl, fun _ => .inl rfl⟩
  · exact ⟨rfl, fun _ => .inl rfl⟩

/-- DROP is 1, or the write HOST makes in the step clears it (R114). -/
def State.DropOrCleared (s u : State) : Prop :=
  u.drop = true ∨ ∃ w, s.hostWrites .status w ∧ w.getLsbD 3 = true

/-- Settles O59: every agent's part of the step keeps DROP or is the clearing write (R27, R114). -/
theorem dropStaysUntilClearedByTheHost : Obligations.DropStaysUntilClearedByTheHost := by
  unfold Obligations.DropStaysUntilClearedByTheHost
  intro s t hd h hr
  exact step_preserves (P := s.DropOrCleared) h (.inl hd)
    (agenda := fun u ms hu => hu)
    (read := fun u a hu => hu)
    (write := fun u v a w hu hnext hw => hu.elim
      (fun hdu => (regWrite_keeps_drop hw (not_isSoftReset hnext hr) hdu).imp_right fun ⟨hslot, hbit⟩ =>
        ⟨w, hslot ▸ State.hostWrites_of_writesNext hnext, hbit⟩)
      .inr)
    (engine := fun u v hu he => hu.imp_left (engineStep_keeps_drop he))
    (reset := fun u hreset _ => by rw [hr] at hreset; cases hreset)
    (sink := fun u b hu => hu)
    (payload := fun u a v _ hu => hu)
    (silence := fun u n hu => hu)

/-- Settles O60: no other agent's part of the step writes payload memory (R50, R55). -/
theorem onlyTheHostWritesPayloadMemory : Obligations.OnlyTheHostWritesPayloadMemory := by
  unfold Obligations.OnlyTheHostWritesPayloadMemory
  intro s t h hno
  exact step_preserves (P := fun u => u.payload = s.payload) h rfl
    (agenda := fun u ms hu => hu)
    (read := fun u a hu => hu)
    (write := fun u v a w hu _ hw => (regWrite_payload hw).trans hu)
    (engine := fun u v hu he => (engineStep_payload he).trans hu)
    (reset := fun u _ hu => hu)
    (sink := fun u b hu => hu)
    (payload := fun u a v ⟨rest, hag⟩ _ => absurd hag (hno a v rest))
    (silence := fun u n hu => hu)

end Sys2Proof.Machine
end

section
/-! PROOFS of the statements of spec/10_state.md on the moves: a step runs the decoded command and performs every
other move (O6), a set of DONE wins over a clear in the same step (O50), a host write of payload memory (O51). -/

namespace Sys2Proof.Machine

section Moves

variable {s : State} {m : Move} {rest : List Move}

/-- A step performs the next move, the move gone from the agenda (R66). -/
theorem step_of_agenda (h : s.agenda = m :: rest) : step s = perform m { s with agenda := rest } := by
  simp only [step, h]
  rfl

/-- A well-formed command's word decodes to the command (R74). -/
theorem decode_encode {i : Instr} (h : i.wellFormed = true) : decode (encode i) = .ok i := by
  cases i with
  | modBuf len =>
    have hlen : len < 1024 := by simpa [Instr.wellFormed] using h
    obtain ⟨hop, hcount, hrsvd⟩ := Laws.CommandWord.modBuf len h
    have hnat := encode_modBuf_toNat hlen
    have hrow : selects (encode (.modBuf len)) 0xFFFC00FF 0x00000003 = true := (selects_modBuf _).2 ⟨hop, hrsvd⟩
    have hne (p : Word) (hp : p.toNat < 3) : selects (encode (.modBuf len)) 0xFFFFFFFF p = false := by
      refine Bool.eq_false_iff.2 fun hsel => ?_
      rw [(selects_all _ _).1 hsel] at hnat
      omega
    rw [decode, hne 0 (by decide), hne 1 (by decide), hne 2 (by decide), hrow, hcount]
    rfl
  | _ => decide

/-- The table's bits of a command word are the word (R77). -/
theorem tableWord_toNat (w : Word) : tableWord 32 w.toNat = w := by
  rw [tableWord, Nat.mod_eq_of_lt w.isLt]
  simp

/-- A CMD write of a word that decodes is exec of its command (R102). -/
theorem regWrite_cmd {a : Offset} {w : Word} {i : Instr} (ha : slotOf a = .cmd) (hw : decode w = .ok i) (s : State) :
    regWrite a w s = exec i s := by
  simp only [regWrite, ha, if_true, cmdWrite, hw]

/-- A write joint with ENGINE is the write alone where no step of ENGINE's is enabled, else the write and then
ENGINE's step (R27). -/
theorem writeWithEngine_of_not_enabled {a : Offset} {w : Word} (h : s.engineEnabled = false) :
    writeWithEngine a w s = regWrite a w s := by simp [writeWithEngine, h]

theorem writeWithEngine_of_enabled {a : Offset} {w : Word} {v : State} (h : s.engineEnabled = true)
    (hw : regWrite a w s = .next v) : writeWithEngine a w s = engineStep v := by
  simp [writeWithEngine, h, hw, thenEngine]

theorem busy_iff : s.busy = true ↔ (∃ kind, s.runState = .build kind) ∨ s.runState = .mod := by
  simp only [State.busy, Bool.not_eq_true', takesWrites_eq_false_iff]

theorem busy_eq_false_iff : s.busy = false ↔ s.runState = .idle ∨ s.runState = .error := by
  simp only [State.busy, Bool.not_eq_false', takesWrites_iff]

/-- STATUS is read at its own offset, and nothing of it is free (R27, R106). -/
theorem regRead_status (s : State) : regRead 0x00C s = s.statusWord :=
  regRead_of_slot (slot := .status) rfl nofun nofun

/-- HOST's read of STATUS notes the word it returns, and nothing else (R64). -/
theorem hostRead_statusOffset (s : State) :
    hostRead statusOffset s = { s with readData := regRead 0x00C s } := by
  rw [hostRead_status, regRead_status]

/-- One round of `wait_idle` while STATE is BUILD or MOD: ENGINE goes on, and the wait comes again (R79). -/
theorem waitIdle_of_busy (h : s.busy = true) :
    waitIdle s = engineStep { s with readData := regRead 0x00C s, agenda := .waitIdle :: s.agenda } := by
  simp only [waitIdle, hostRead_statusOffset]
  exact if_pos h

theorem waitIdle_of_not_busy (h : s.busy = false) :
    waitIdle s = .next { s with readData := regRead 0x00C s } := by
  simp only [waitIdle, hostRead_statusOffset]
  exact if_neg (Bool.eq_false_iff.1 h)

/-- One round of `wait_done` while DONE is 0: ENGINE goes on, and the wait comes again (R79). -/
theorem waitDone_of_not_done (h : s.done = false) :
    waitDone s = engineStep { s with readData := regRead 0x00C s, agenda := .waitDone :: s.agenda } := by
  simp only [waitDone, hostRead_statusOffset]
  exact if_neg (Bool.eq_false_iff.1 h)

/-- With DONE = 1 the write of 0x4 to STATUS comes next (R79). -/
theorem waitDone_of_done (h : s.done = true) :
    waitDone s = .next { s with readData := regRead 0x00C s, agenda := .write 0x00C 0x4 :: s.agenda } := by
  simp only [waitDone, hostRead_statusOffset]
  exact if_pos h

end Moves

/-- Settles O6, from the one performed move of each step (`step_of_agenda`) and what each kind of move does. -/
theorem stepRunsTheDecodedCommand : Obligations.StepRunsTheDecodedCommand := by
  unfold Obligations.StepRunsTheDecodedCommand
  refine ⟨fun s a w rest i hag ha hw => ?_, fun s i hi => ?_, fun s rest => ?_⟩
  · rw [step_of_agenda hag]
    exact regWrite_cmd ha hw _
  · have hword : decode (tableWord 32 (encode i).toNat) = .ok i := by rw [tableWord_toNat, decode_encode hi]
    exact regWrite_cmd (a := cmdOffset) rfl hword s
  · refine ⟨fun a w hag => ?_, fun hag => ?_, fun a w hag => ⟨fun he => ?_, fun he v hv => ?_⟩, fun ready hag => ?_,
      fun n hag => ?_, fun hag => ⟨fun hb => ?_, fun hb => ?_⟩, fun hag => ⟨fun hd => ?_, fun hd => ?_⟩⟩
    all_goals rw [step_of_agenda hag]
    · rfl
    · rfl
    · exact writeWithEngine_of_not_enabled he
    · exact writeWithEngine_of_enabled he hv
    · rfl
    · rfl
    · exact waitIdle_of_busy (s := { s with agenda := rest }) (busy_iff.2 hb)
    · exact waitIdle_of_not_busy (s := { s with agenda := rest }) (busy_eq_false_iff.2 hb)
    · exact waitDone_of_not_done (s := { s with agenda := rest }) hd
    · exact waitDone_of_done (s := { s with agenda := rest }) hd

/-- Settles O50: the write clears first, then ENGINE's enabled step sets DONE as it completes (R27, R104). -/
theorem aSetInTheSameStepWinsOverTheClear : Obligations.ASetInTheSameStepWinsOverTheClear := by
  unfold Obligations.ASetInTheSameStepWinsOverTheClear
  intro s t w rest he h hidle
  rw [step_of_agenda (rest := rest) rfl] at h
  have hw : regWrite 0x00C w { s with agenda := rest } = .next (State.statusWrite w { s with agenda := rest }) :=
    regWrite_of_slot (slot := .status) w _ rfl nofun
  have hstep : engineStep (State.statusWrite w { s with agenda := rest }) = .next t := by
    rw [← h]
    exact (writeWithEngine_of_enabled (s := { s with agenda := rest }) he hw).symm
  exact engineStep_done hstep he hidle

/-- Settles O51: the byte written reads back and the canonical form stands (`Memory.read_write`, `Memory.wf_write`). -/
theorem payloadWritesStoreOneByte : Obligations.PayloadWritesStoreOneByte := by
  unfold Obligations.PayloadWritesStoreOneByte
  intro s a v rest hwf hag
  have hread := Memory.read_write hwf a.toNat
  refine ⟨payloadWrite a v { s with agenda := rest }, step_of_agenda hag, ?_, fun b hb => ?_, Memory.wf_write hwf a v,
    rfl, payloadWrite_torn_iff a v _⟩
  · rw [payloadWrite_payload, hread, if_pos rfl]
  · rw [payloadWrite_payload, hread, if_neg hb]

end Sys2Proof.Machine
end

section
/-! PROOFS of the statements of spec/10_state.md on the register port: what reads return (O39), configuration writes
(O42), the packet window (O44), STATUS and CTRL writes (O45), writes without effect (O46), the values after reset
(O48). -/

namespace Sys2Proof.Machine

section Reads

variable {s : State} {a : Offset}

/-- CTRL as a number (R106). -/
theorem State.ctrlWord_toNat (s : State) : s.ctrlWord.toNat = 4 * s.ieErr.toNat + 2 * s.ieDone.toNat := by
  unfold State.ctrlWord
  cases s.ieErr <;> cases s.ieDone <;> rfl

/-- STATUS shows STATE in its bits 1:0 (R27). -/
theorem State.statusWord_state (s : State) : s.statusWord.toNat % 4 = s.runState.bits.toNat := by
  have := s.runState.bits.isLt
  rw [s.statusWord_toNat]
  omega

/-- STATUS shows ERR_CODE in its bits 7:4 (R27, R110). -/
theorem State.statusWord_errCode (s : State) : s.statusWord.toNat / 16 % 16 = s.errBits.toNat := by
  have := s.runState.bits.isLt
  have := s.errBits.isLt
  have := Bool.toNat_le s.drop
  have := Bool.toNat_le s.done
  rw [s.statusWord_toNat]
  omega

/-- Outside BUILD a window read returns its four bytes (R44, R106). -/
theorem regRead_window (hb : ∀ kind, s.runState ≠ .build kind) (k : Fin 128) :
    regRead (BitVec.ofNat 12 (0x400 + 4 * k.val)) s = windowRead s.pktBuf k := by
  rw [regRead_of_not_free (readIsFree_eq_false hb _), slotOf_window]
  rfl

/-- Outside BUILD PKT_LEN reads as it is (R38, R106). -/
theorem regRead_pktLen (hb : ∀ kind, s.runState ≠ .build kind) : regRead 0x038 s = s.pktLen.setWidth 32 :=
  regRead_of_not_free (readIsFree_eq_false hb _)

end Reads

/-- Settles O39: each offset's slot, and the slot's word as a number. -/
theorem readsReturnTheRegistersOfTheTable : Obligations.ReadsReturnTheRegistersOfTheTable := by
  unfold Obligations.ReadsReturnTheRegistersOfTheTable
  intro s
  have reg (a : Offset) (slot : Slot) (h : slotOf a = slot) (h1 : slot ≠ .pktLen) (h2 : ∀ k, slot ≠ .pkt k) :
      regRead a s = s.slotRead slot := regRead_of_slot h h1 h2
  have hctrl : regRead 0x008 s = s.ctrlWord := reg 0x008 .ctrl rfl nofun nofun
  have hcursor : regRead 0x040 s = s.oscCursorWord := reg 0x040 .oscCursor rfl nofun nofun
  have hcaps : regRead 0x004 s = capsWord := reg 0x004 .caps rfl nofun nofun
  have hver : regRead 0x018 s = s.ver.setWidth 32 := reg 0x018 .version rfl nofun nofun
  have hflags : regRead 0x01C s = (BitVec.ofBool s.osUpdate).setWidth 32 := reg 0x01C .flags rfl nofun nofun
  have hblock : regRead 0x034 s = s.block.setWidth 32 := reg 0x034 .block rfl nofun nofun
  rw [regRead_status, hctrl, hcursor, hcaps, hver, hflags, hblock, s.statusWord_state, s.statusWord_errCode]
  refine ⟨reg 0x000 .id rfl nofun nofun, capsWord_toNat, s.ctrlWord_toNat, s.statusWord_toNat, fun h => ?_, ?_, fun h => ?_,
    fun h => ?_, fun h => ?_, fun h => ?_, fun h => ?_, fun h => ?_, fun h => ?_, reg 0x010 .cmd rfl nofun nofun,
    reg 0x014 .errCmd rfl nofun nofun, ?_, ?_, reg 0x020 .sampleRate rfl nofun nofun, reg 0x024 .baudRate rfl nofun nofun,
    reg 0x028 .fLo rfl nofun nofun, reg 0x02C .fHi rfl nofun nofun, reg 0x030 .payloadLen rfl nofun nofun, ?_,
    reg 0x03C .sampleCount rfl nofun nofun, s.oscCursorWord_toNat, ?_, ?_, fun a h h' => ?_, regRead_pktLen_lt s rfl,
    fun hb => ⟨?_, fun k => regRead_window hb k⟩⟩
  · rw [h]; rfl
  · rintro ⟨kind, h⟩
    rw [h]; rfl
  · rw [h]; rfl
  · rw [h]; rfl
  · simp [State.errBits, h]
  · simp [State.errBits, h, ErrorCode.bits]
  · simp [State.errBits, h, ErrorCode.bits]
  · simp [State.errBits, h, ErrorCode.bits]
  · simp [State.errBits, h, ErrorCode.bits]
  · simp; omega
  · cases s.osUpdate <;> rfl
  · simp; omega
  · rw [reg 0x048 .phaseHi rfl nofun nofun, reg 0x044 .phaseLo rfl nofun nofun]
    exact append_halves s.phase
  · rw [reg 0x050 .bfracHi rfl nofun nofun, reg 0x04C .bfracLo rfl nofun nofun]
    exact append_halves s.baudFrac
  · exact reg a .reserved (slotOf_reserved h h') nofun nofun
  · rw [regRead_pktLen hb]
    simp; omega

section Writes

variable {s : State} {a : Offset}

/-- A field of a word as a number (R8). -/
theorem extractLsb'_eq_digits (w : Word) (i n : Nat) :
    w.extractLsb' i n = BitVec.ofNat n (w.toNat / 2 ^ i % 2 ^ n) := by
  apply BitVec.eq_of_toNat_eq
  simp [Nat.shiftRight_eq_div_pow]

/-- The bytes of a word put together from four, the last one in bits 7:0 (R44). -/
theorem bytes_of_word (b0 b1 b2 b3 : Byte) :
    (b3 ++ b2 ++ b1 ++ b0 : Word).extractLsb' 0 8 = b0 ∧ (b3 ++ b2 ++ b1 ++ b0 : Word).extractLsb' 8 8 = b1
    ∧ (b3 ++ b2 ++ b1 ++ b0 : Word).extractLsb' 16 8 = b2 ∧ (b3 ++ b2 ++ b1 ++ b0 : Word).extractLsb' 24 8 = b3 := by
  refine ⟨?_, ?_, ?_, ?_⟩
  · rw [BitVec.extractLsb'_append_eq_right]
  · rw [BitVec.extractLsb'_append_eq_of_le (by decide), BitVec.extractLsb'_append_eq_right]
  · rw [BitVec.extractLsb'_append_eq_of_le (by decide), BitVec.extractLsb'_append_eq_of_le (by decide),
      BitVec.extractLsb'_append_eq_right]
  · rw [BitVec.extractLsb'_append_eq_of_le (by decide), BitVec.extractLsb'_append_eq_of_le (by decide),
      BitVec.extractLsb'_append_eq_left]

/-- Byte `j` of a window word is packet-buffer byte 4k + j (R44). -/
theorem windowRead_byte (buf : Vector Byte 512) (k : Fin 128) {j : Nat} (hj : j < 4) :
    (windowRead buf k).extractLsb' (8 * j) 8 = buf[4 * k.val + j] := by
  obtain ⟨h0, h1, h2, h3⟩ :=
    bytes_of_word buf[4 * k.val] buf[4 * k.val + 1] buf[4 * k.val + 2] buf[4 * k.val + 3]
  interval_cases j
  · exact h0
  · exact h1
  · exact h2
  · exact h3

/-- A configuration or window write stores where writes are taken (R107). -/
theorem regWrite_taken {slot : Slot} {w : Word} {t : State} (h : slotOf a = slot) (hcmd : slot ≠ .cmd)
    (hstore : slotWrite w s slot = if s.takesWrites then t else s.setDrop) (hs : s.takesWrites = true) :
    regWrite a w s = .next t := by
  rw [regWrite_of_slot w s h hcmd, hstore, if_pos hs]

/-- In BUILD and MOD a configuration or window write sets DROP and stores nothing (R107, R114). -/
theorem regWrite_not_taken {slot : Slot} {w : Word} {t : State} (h : slotOf a = slot) (hcmd : slot ≠ .cmd)
    (hstore : slotWrite w s slot = if s.takesWrites then t else s.setDrop) (hs : s.takesWrites = false) :
    regWrite a w s = .next s.setDrop := by
  rw [regWrite_of_slot w s h hcmd, hstore, if_neg (Bool.eq_false_iff.1 hs)]

end Writes

/-- Settles O42, slot by slot. -/
theorem configurationWritesStoreTheDefinedBits : Obligations.ConfigurationWritesStoreTheDefinedBits := by
  unfold Obligations.ConfigurationWritesStoreTheDefinedBits
  intro s w h
  have hs := takesWrites_iff.2 h
  have hver := extractLsb'_eq_digits w 0 8
  have hblock := extractLsb'_eq_digits w 0 24
  have hflag := getLsbD_eq_digit w 0
  rw [Nat.pow_zero, Nat.div_one] at hver hblock hflag
  rw [← hver, ← hblock, ← hflag]
  exact ⟨regWrite_taken (slot := .version) rfl nofun rfl hs, regWrite_taken (slot := .flags) rfl nofun rfl hs,
    regWrite_taken (slot := .sampleRate) rfl nofun rfl hs, regWrite_taken (slot := .baudRate) rfl nofun rfl hs,
    regWrite_taken (slot := .fLo) rfl nofun rfl hs, regWrite_taken (slot := .fHi) rfl nofun rfl hs,
    regWrite_taken (slot := .payloadLen) rfl nofun rfl hs, regWrite_taken (slot := .block) rfl nofun rfl hs⟩

/-- Settles O44: the window word's bytes are the packet buffer's, by a write and by a read. -/
theorem windowWritesStoreFourBytesLittleEndian : Obligations.WindowWritesStoreFourBytesLittleEndian := by
  unfold Obligations.WindowWritesStoreFourBytesLittleEndian
  intro s w k a
  have hslot : slotOf a = .pkt k := slotOf_window k
  have hstore : slotWrite w s (.pkt k)
      = if s.takesWrites then { s with pktBuf := windowWrite s.pktBuf k w } else s.setDrop := rfl
  refine ⟨fun h => ?_, fun h => ?_, fun hb j hj => ?_⟩
  · have hwrite := regWrite_taken hslot nofun hstore (takesWrites_iff.2 h)
    refine ⟨_, hwrite, rfl, fun j hj => ?_, fun i hi => ?_, ?_⟩
    · rw [← extractLsb'_eq_digits]
      have hdiv : (4 * k.val + j) / 4 = k.val := by omega
      have hmod : (4 * k.val + j) % 4 = j := by omega
      refine (windowWrite_getElem? s.pktBuf k w _).trans ?_
      rw [if_pos hdiv, hmod]
    · exact (windowWrite_getElem? s.pktBuf k w i).trans (if_neg (by omega))
    · refine (regRead_window ?_ k).trans (windowRead_windowWrite s.pktBuf k w)
      rcases h with h | h <;> simp [h]
  · exact regWrite_not_taken hslot nofun hstore (takesWrites_eq_false_iff.2 h)
  · rw [← extractLsb'_eq_digits, regRead_window hb, windowRead_byte _ _ hj]
    exact pktRead_eq_some s (by omega)

/-- A 1 written clears the flag (R27). -/
theorem and_not_decide (b : Bool) (p : Prop) [Decidable p] : (b && !decide p) = if p then false else b := by
  by_cases h : p <;> simp [h]

/-- A CTRL write with SRST = 0 writes the interrupt enables alone (R26, R107). -/
theorem ctrlWrite_of_no_reset {w : Word} (s : State) (h : w.getLsbD 0 = false) :
    s.ctrlWrite w = { s with ieDone := w.getLsbD 1, ieErr := w.getLsbD 2 } := by
  simp only [State.ctrlWrite, h, Bool.false_eq_true, if_false]

/-- Settles O45: the bits of the word, as digits. -/
theorem statusAndCtrlWritesAreTakenInEveryState : Obligations.StatusAndCtrlWritesAreTakenInEveryState := by
  unfold Obligations.StatusAndCtrlWritesAreTakenInEveryState
  intro s w
  have hsrst : w.getLsbD 0 = decide (w.toNat % 2 = 1) := by simpa using getLsbD_eq_digit w 0
  refine ⟨?_, fun h => ?_, fun h => ?_⟩
  · rw [regWrite_of_slot (slot := .status) w s rfl nofun]
    simp only [slotWrite, State.statusWrite, getLsbD_eq_digit, and_not_decide]
    rfl
  · have hno : w.getLsbD 0 = false := by rw [hsrst, h]; rfl
    rw [regWrite_of_slot (slot := .ctrl) w s rfl nofun, slotWrite, ctrlWrite_of_no_reset s hno]
    simp only [getLsbD_eq_digit]
    rfl
  · exact regWrite_ctrl_reset s rfl (by rw [hsrst, h]; rfl)

section WithoutEffect

variable {s : State} {a : Offset}

/-- The read-only registers and the reserved offsets, which ignore writes (R43, R64, R107). -/
def readOnlySlots : List Slot :=
  [.id, .caps, .errCmd, .pktLen, .sampleCount, .oscCursor, .phaseLo, .phaseHi, .bfracLo, .bfracHi, .reserved]

theorem regWrite_readOnly (h : slotOf a ∈ readOnlySlots) (w : Word) (s : State) : regWrite a w s = .next s := by
  have hcmd : slotOf a ≠ .cmd := by
    intro hc
    rw [hc] at h
    revert h; decide
  rw [regWrite_of_slot w s rfl hcmd]
  generalize slotOf a = slot at h
  simp only [readOnlySlots, List.mem_cons, List.not_mem_nil, or_false] at h
  rcases h with rfl | rfl | rfl | rfl | rfl | rfl | rfl | rfl | rfl | rfl | rfl <;> rfl

theorem slotOf_readOnly
    (h : a.toNat < 0x008 ∨ (0x014 ≤ a.toNat ∧ a.toNat < 0x018) ∨ (0x038 ≤ a.toNat ∧ a.toNat < 0x054)) :
    slotOf a ∈ readOnlySlots := by
  rw [slotOf_low (by omega)]
  have hn : a.toNat / 4 < 2 ∨ a.toNat / 4 = 5 ∨ (14 ≤ a.toNat / 4 ∧ a.toNat / 4 < 21) := by omega
  generalize a.toNat / 4 = n at hn
  have htable : ∀ n < 21, (n < 2 ∨ n = 5 ∨ 14 ≤ n) → lowSlots.getD n .reserved ∈ readOnlySlots := by decide
  exact htable n (by omega) (by omega)

end WithoutEffect

/-- Settles O46. -/
theorem readOnlyAndReservedWritesHaveNoEffect : Obligations.ReadOnlyAndReservedWritesHaveNoEffect := by
  unfold Obligations.ReadOnlyAndReservedWritesHaveNoEffect
  refine fun s w a => ⟨fun h => ?_, fun h => regWrite_readOnly (slotOf_readOnly h) w s⟩
  have hslot : slotOf a = .reserved := slotOf_reserved (by omega) (by omega)
  exact ⟨regRead_of_slot hslot nofun nofun, regWrite_readOnly (by rw [hslot]; decide) w s⟩

/-- The reset state is itself what a reset leaves (R52, R123). -/
theorem reset_eq_resetBlock : State.reset = ({ State.reset with draws := 0 } : State).resetBlock := rfl

/-- Settles O48: State.reset is what a reset leaves, and a reset leaves the table's values whatever stood before. -/
theorem resetLeavesTheValuesOfTheTable : Obligations.ResetLeavesTheValuesOfTheTable := by
  unfold Obligations.ResetLeavesTheValuesOfTheTable
  intro s t ht
  obtain ⟨u, rfl⟩ : ∃ u : State, t = u.resetBlock := by
    rcases ht with rfl | rfl
    · exact ⟨_, reset_eq_resetBlock⟩
    · exact ⟨s, rfl⟩
  have hctrl : regRead 0x008 u.resetBlock = 0 := by
    rw [regRead_of_slot (slot := .ctrl) rfl nofun nofun]
    simp [State.slotRead, State.ctrlWord]
  have hstatus : regRead 0x00C u.resetBlock = 0 := by
    rw [regRead_status]
    simp [State.statusWord, State.irq, State.errBits, RunState.bits]
  have hid : regRead 0x000 u.resetBlock = 0x4C54434D := regRead_of_slot (slot := .id) rfl nofun nofun
  have hcaps : regRead 0x004 u.resetBlock = capsWord := regRead_of_slot (slot := .caps) rfl nofun nofun
  rw [hctrl, hstatus, hid, hcaps, capsWord_toNat]
  refine ⟨rfl, rfl, rfl, rfl, rfl, rfl, rfl, rfl, rfl, rfl, rfl, rfl, rfl, rfl, rfl, rfl, rfl, rfl, rfl, rfl, rfl, rfl, rfl,
    rfl, rfl, rfl, rfl, rfl, rfl, rfl, rfl, fun i hi => ⟨_, pktRead_eq_some _ hi⟩, rfl, rfl⟩

end Sys2Proof.Machine
end

section
/-! PROOFS of the statements of spec/10_state.md on the build step: the control packet (O21), the data packet (O22). -/

namespace Sys2Proof.Machine

section BuildStep

variable {s : State}

/-- In BUILD ENGINE's step is the build step (R103). -/
theorem engineStep_of_build {kind : PacketKind} (h : s.runState = .build kind) :
    engineStep s = .next (buildStep kind s) := by
  simp [engineStep, h]

/-- What the build step leaves as it was, beside the packet buffer, PKT_LEN and completion (R89, R90). -/
theorem buildStep_frame (kind : PacketKind) (s : State) :
    SameConfig s (buildStep kind s) ∧ SameEnables s (buildStep kind s) ∧ SameOscillator s (buildStep kind s)
    ∧ SameCursor s (buildStep kind s)
    ∧ (buildStep kind s).drop = s.drop ∧ (buildStep kind s).errCode = s.errCode
    ∧ (buildStep kind s).errCmd = s.errCmd ∧ (buildStep kind s).payload = s.payload
    ∧ (buildStep kind s).samples = s.samples ∧ (buildStep kind s).agenda = s.agenda :=
  ⟨⟨rfl, rfl, rfl, rfl, rfl, rfl, rfl, rfl⟩, ⟨rfl, rfl⟩, ⟨rfl, rfl, rfl, rfl, rfl, rfl⟩, ⟨rfl, rfl, rfl, rfl, rfl⟩,
    rfl, rfl, rfl, rfl, rfl, rfl⟩

/-- The build step in the packet buffer: a packet of `n` bytes from index 0 on, what stood there beyond it (R45). -/
theorem buildStep_writes_packet {kind : PacketKind} {n : Nat} (s : State) (hn : (s.packetOf kind).length = n) :
    (buildStep kind s).pktLen.toNat = n
    ∧ (∀ i, i < n → (buildStep kind s).pktRead i = (s.packetOf kind)[i]?)
    ∧ (∀ i, n ≤ i → (buildStep kind s).pktRead i = s.pktRead i) := by
  subst hn
  refine ⟨buildStep_pktLen s kind, fun i hi => ?_, fun i hi => ?_⟩
  · rw [buildStep_pktRead, if_pos hi]
  · rw [buildStep_pktRead, if_neg (Nat.not_lt.2 hi)]

end BuildStep

/-- Settles O21: the packet is the control packet, 39 + S bytes long. -/
theorem buildStepWritesTheControlPacket : Obligations.BuildStepWritesTheControlPacket := by
  unfold Obligations.BuildStepWritesTheControlPacket
  intro s hb
  obtain ⟨hlen, hbytes, hbeyond⟩ := buildStep_writes_packet (kind := .control) s (controlPacket_length s)
  exact ⟨_, engineStep_of_build hb, rfl, rfl, hlen, hbytes, hbeyond, buildStep_frame .control s⟩

/-- Settles O22: the packet is the data packet, striped by VERSION, 271 + S bytes long. -/
theorem buildStepWritesTheDataPacket : Obligations.BuildStepWritesTheDataPacket := by
  unfold Obligations.BuildStepWritesTheDataPacket
  intro s hb
  obtain ⟨hlen, hbytes, hbeyond⟩ := buildStep_writes_packet (kind := .data) s (dataPacket_length s)
  exact ⟨_, engineStep_of_build hb, rfl, rfl, hlen, hbytes, hbeyond, buildStep_frame .data s⟩

end Sys2Proof.Machine
end

section
/-! PROOFS of the statements of spec/20_memory.md: packets do not depend on payload memory beyond PAYLOAD_LEN (O29),
ENGINE's step with no move to come (O7), reads without side effect (O40), address bits 1:0 (O41). -/

namespace Sys2Proof.Machine

section PayloadBeyond

variable {s : State} {m : Memory}

/-- A payload byte on which two memories agree reads the same, also where the running build reads free values (R55). -/
theorem payRead_withPayload {a : Nat} (h : m.read a = s.payload.read a) :
    ({ s with payload := m } : State).payRead a = s.payRead a := by
  simp only [State.payRead, h]

variable (agree : ∀ a, a < s.payloadLen.toNat → m.read a = s.payload.read a)
include agree

/-- The bytes the control packet hashes stand below PAYLOAD_LEN (R89). -/
theorem payloadBytes_withPayload : ({ s with payload := m } : State).payloadBytes = s.payloadBytes :=
  List.map_congr_left fun a ha => payRead_withPayload (agree a (List.mem_range.1 ha))

/-- The data body reads below PAYLOAD_LEN, and pads from there on (R86). -/
theorem dataBody_withPayload : ({ s with payload := m } : State).dataBody = s.dataBody :=
  List.map_congr_left fun _ _ => ite_congr rfl (fun h => payRead_withPayload (agree _ h)) fun _ => rfl

/-- The control packet meets payload memory in the bytes it hashes alone (R89). -/
theorem controlPacket_withPayload : ({ s with payload := m } : State).controlPacket = s.controlPacket := by
  simp only [State.controlPacket, State.controlOpening, payloadBytes_withPayload agree]

/-- The data packet meets payload memory in its body alone (R90). -/
theorem dataPacket_withPayload : ({ s with payload := m } : State).dataPacket = s.dataPacket := by
  simp only [State.dataPacket, State.plainDataPacket, State.dataOpening, dataBody_withPayload agree]

end PayloadBeyond

/-- Settles O29, kind by kind. -/
theorem payloadBeyondItsLengthDoesNotMatter : Obligations.PayloadBeyondItsLengthDoesNotMatter := by
  unfold Obligations.PayloadBeyondItsLengthDoesNotMatter
  intro s m kind agree
  cases kind with
  | control => exact controlPacket_withPayload agree
  | data => exact dataPacket_withPayload agree

section NoMove

variable {s : State}

/-- With no move to come the step is ENGINE's (log entry 9). -/
theorem step_of_no_agenda (h : s.agenda = []) : step s = engineStep s := by
  simp only [step, h]

/-- Where no step of ENGINE's is enabled, ENGINE does nothing (R103). -/
theorem engineStep_of_not_enabled (h : s.engineEnabled = false) : engineStep s = .next s := by
  cases hr : s.runState with
  | idle => simp only [engineStep, hr]
  | build kind => simp [State.engineEnabled, hr] at h
  | mod =>
    have hsink : s.sinkReady = false := by simpa [State.engineEnabled, hr] using h
    simp [engineStep, hr, hsink]
  | error => simp only [engineStep, hr]

end NoMove

/-- Settles O7: in IDLE, in ERROR and in a stalled MOD no step of ENGINE's is enabled. -/
theorem withNoMoveToComeOnlyTheEngineSteps : Obligations.WithNoMoveToComeOnlyTheEngineSteps := by
  unfold Obligations.WithNoMoveToComeOnlyTheEngineSteps
  intro s hag
  rw [step_of_no_agenda hag]
  refine ⟨rfl, fun hr => engineStep_of_not_enabled ?_, fun hr hsink => engineStep_of_not_enabled ?_⟩
  · rcases hr with hr | hr <;> simp only [State.engineEnabled, hr]
  · simp only [State.engineEnabled, hr, hsink]

/-- Settles O40: the step is HOST's read, and outside BUILD no read is free, so that none takes a draw. -/
theorem readsHaveNoSideEffect : Obligations.ReadsHaveNoSideEffect := by
  unfold Obligations.ReadsHaveNoSideEffect
  intro s a rest hag
  refine ⟨if s.readIsFree a then s.draws + 1 else s.draws, step_of_agenda hag, fun hb => ?_⟩
  rw [readIsFree_eq_false hb, if_neg Bool.false_ne_true]

section ClearedAddress

variable (s : State) (a : Offset) (w : Word)

/-- Whether a read is free is a matter of its slot (R38, R45). -/
theorem readIsFree_clear : s.readIsFree (a &&& 0xFFC) = s.readIsFree a := by
  simp only [State.readIsFree, slotOf_clear]

/-- A free read draws by the word it reaches (log entry 7). -/
theorem freeRead_clear : s.freeRead (a &&& 0xFFC) = s.freeRead a := by
  simp only [State.freeRead, slotOf_clear, wordNumber_clear]

theorem regRead_clear : regRead (a &&& 0xFFC) s = regRead a s := by
  simp only [regRead, readIsFree_clear, freeRead_clear, slotOf_clear]

theorem regWrite_clear : regWrite (a &&& 0xFFC) w s = regWrite a w s := by
  simp only [regWrite, slotOf_clear]

end ClearedAddress

/-- Settles O41: an access is a matter of its slot and word number alone (`slotOf_clear`, `wordNumber_clear`). -/
theorem addressBitsOneAndZeroAreIgnored : Obligations.AddressBitsOneAndZeroAreIgnored := by
  unfold Obligations.AddressBitsOneAndZeroAreIgnored
  exact fun s a w => ⟨(regRead_clear s a).symm, (regWrite_clear s a w).symm⟩

end Sys2Proof.Machine
end

section
/-! PROOFS of the statements of spec/30_encoding.md: decoder and encoder are inverse to each other (O1, O2), the
decoder is the table of R74 (O3), the illegal words and the two errors a CMD write raises for its word alone (O4),
command words written out (O5), and of spec/42_control.md: exec answers a next state (O17). -/

namespace Sys2Proof.Machine

section Rows

variable {w : Word} {i : Instr} {n : Nat}

/-- A row with a full mask matches one word (R74). -/
theorem fullRow_iff (p : Word) : w &&& 0xFFFFFFFF = p ↔ w = p := beq_iff_eq.symm.trans (selects_all w p)

/-- MOD_BUF's row of R74 in numbers: OP, the lowest eight bits, is 3, and RSVD, the bits from 18 up, is 0. -/
theorem modBufRow_iff : w &&& 0xFFFC00FF = 0x00000003 ↔ w.toNat % 2 ^ 8 = 3 ∧ w.toNat / 2 ^ 18 = 0 := by
  rw [← opField_toNat, ← rsvdField_toNat]
  exact beq_iff_eq.symm.trans ((selects_modBuf w).trans (and_congr BitVec.toNat_inj.symm BitVec.toNat_inj.symm))

/-- The word of MOD_BUF with `n` bytes is the word that selects its row and has `n` for LEN. -/
theorem encode_modBuf_eq_iff (hn : n < 1024) :
    encode (.modBuf n) = w ↔ w &&& 0xFFFC00FF = 0x00000003 ∧ n = w.toNat / 2 ^ 8 % 2 ^ 10 := by
  rw [modBufRow_iff, ← BitVec.toNat_inj, encode_modBuf_toNat hn]
  omega

/-- A word decodes to a command exactly when the command has a word and it is this one (R74, R77). -/
theorem decode_eq_ok_iff : decode w = .ok i ↔ i.wellFormed = true ∧ encode i = w := by
  refine ⟨fun h => ?_, fun ⟨hi, hw⟩ => hw ▸ decode_encode hi⟩
  have hfull (j : Instr) (hj : j.wellFormed = true) (hsel : selects w 0xFFFFFFFF (encode j) = true) :
      j.wellFormed = true ∧ encode j = w := ⟨hj, ((selects_all w _).1 hsel).symm⟩
  unfold decode at h
  split at h
  · cases h; exact hfull .nop rfl ‹_›
  split at h
  · cases h; exact hfull .buildCtrl rfl ‹_›
  split at h
  · cases h; exact hfull .buildData rfl ‹_›
  split at h
  · rename_i hrow
    cases h
    have hlen := (lenField w).isLt
    exact ⟨decide_eq_true hlen, (encode_modBuf_eq_iff hlen).2 ⟨beq_iff_eq.1 hrow, lenField_toNat w⟩⟩
  split at h
  · cases h; exact hfull .modPkt rfl ‹_›
  split at h
  · cases h; exact hfull .oscReset rfl ‹_›
  · cases h

/-- A well-formed command is decoded from its own word only, which a row with a full mask says too (R74). -/
theorem decode_eq_ok_iff_row (i : Instr) (hi : i.wellFormed = true) :
    decode w = .ok i ↔ w &&& 0xFFFFFFFF = encode i := by
  rw [decode_eq_ok_iff, and_iff_right hi, fullRow_iff, eq_comm]

/-- MOD_BUF's row of R74. -/
theorem decode_eq_modBuf_iff :
    decode w = .ok (.modBuf n) ↔ w &&& 0xFFFC00FF = 0x00000003 ∧ n = w.toNat / 2 ^ 8 % 2 ^ 10 := by
  rw [decode_eq_ok_iff]
  constructor
  · rintro ⟨hwf, hw⟩
    exact (encode_modBuf_eq_iff (of_decide_eq_true hwf)).1 hw
  · intro h
    have hn : n < 1024 := by omega
    exact ⟨decide_eq_true hn, (encode_modBuf_eq_iff hn).2 h⟩

/-- A word is illegal exactly when it decodes to no command. -/
theorem decode_eq_error_iff : (∃ e, decode w = .error e) ↔ ∀ i, decode w ≠ .ok i := by
  cases decode w <;> simp

/-- A word matching no row of R74 is illegal, and no other is. -/
theorem decode_eq_error_iff_no_row : (∃ e, decode w = .error e) ↔
    w &&& 0xFFFFFFFF ≠ 0x00000000 ∧ w &&& 0xFFFFFFFF ≠ 0x00000001 ∧ w &&& 0xFFFFFFFF ≠ 0x00000002
    ∧ w &&& 0xFFFC00FF ≠ 0x00000003 ∧ w &&& 0xFFFFFFFF ≠ 0x00000004 ∧ w &&& 0xFFFFFFFF ≠ 0x00000005 := by
  rw [decode_eq_error_iff]
  constructor
  · intro h
    exact ⟨mt (decode_eq_ok_iff_row .nop rfl).2 (h _), mt (decode_eq_ok_iff_row .buildCtrl rfl).2 (h _),
      mt (decode_eq_ok_iff_row .buildData rfl).2 (h _), fun hrow => h _ (decode_eq_modBuf_iff.2 ⟨hrow, rfl⟩),
      mt (decode_eq_ok_iff_row .modPkt rfl).2 (h _), mt (decode_eq_ok_iff_row .oscReset rfl).2 (h _)⟩
  · rintro ⟨hnop, hctrl, hdata, hbuf, hpkt, hosc⟩ i
    cases i with
    | nop => exact mt (decode_eq_ok_iff_row _ rfl).1 hnop
    | buildCtrl => exact mt (decode_eq_ok_iff_row _ rfl).1 hctrl
    | buildData => exact mt (decode_eq_ok_iff_row _ rfl).1 hdata
    | modBuf n => exact fun h => hbuf (decode_eq_modBuf_iff.1 h).1
    | modPkt => exact mt (decode_eq_ok_iff_row _ rfl).1 hpkt
    | oscReset => exact mt (decode_eq_ok_iff_row _ rfl).1 hosc

/-- The three grounds of R75: a reserved OP, a reserved bit, a LEN where OP is not MOD_BUF's. -/
theorem decode_eq_error_iff_fields : (∃ e, decode w = .error e) ↔
    6 ≤ w.toNat % 2 ^ 8 ∨ w.toNat / 2 ^ 18 ≠ 0 ∨ (w.toNat / 2 ^ 8 % 2 ^ 10 ≠ 0 ∧ w.toNat % 2 ^ 8 ≠ 3) := by
  simp only [decode_eq_error_iff_no_row, ne_eq, fullRow_iff, modBufRow_iff]
  bv_omega

end Rows

section CmdWrite

variable {w : Word} {s : State} {n : Nat}

/-- An illegal word raises ILLEGAL_CMD in IDLE (R75, R111). -/
theorem cmdWrite_illegal (h : ∃ e, decode w = .error e) (hi : s.runState = .idle) :
    cmdWrite w s = .next (s.raiseError .illegalCmd w) := by
  obtain ⟨e, he⟩ := h
  simp only [cmdWrite, he]
  exact accept_idle hi

/-- MOD_BUF with more bytes than the packet buffer has raises LEN_RANGE in IDLE, its word noted (R75, R96). -/
theorem cmdWrite_lenRange (h : decode w = .ok (.modBuf n)) (hn : 512 < n) (hi : s.runState = .idle) :
    cmdWrite w s = .next (s.raiseError .lenRange w) := by
  simp only [cmdWrite, h, exec, execModBuf, (decode_eq_ok_iff.1 h).2]
  exact (accept_idle hi).trans (if_pos hn)

end CmdWrite

/-- Settles O1: MOD_BUF's word selects its own row and no earlier one (`decode_encode`). -/
theorem decodingAnEncodedCommandGivesItBack : Obligations.DecodingAnEncodedCommandGivesItBack := by
  unfold Obligations.DecodingAnEncodedCommandGivesItBack
  exact fun i => decode_encode

/-- Settles O2: every mask but MOD_BUF's is full, and MOD_BUF's leaves LEN alone free (`decode_eq_ok_iff`). -/
theorem encodingADecodedWordGivesItBack : Obligations.EncodingADecodedWordGivesItBack := by
  unfold Obligations.EncodingADecodedWordGivesItBack
  exact fun w i => decode_eq_ok_iff.1

/-- Settles O3: the rows one by one; no word is in two of them, so the order of the rows plays no part. -/
theorem decoderFollowsTheTable : Obligations.DecoderFollowsTheTable := by
  unfold Obligations.DecoderFollowsTheTable
  exact fun w => ⟨decode_eq_ok_iff_row .nop rfl, decode_eq_ok_iff_row .buildCtrl rfl,
    decode_eq_ok_iff_row .buildData rfl, fun n => decode_eq_modBuf_iff, decode_eq_ok_iff_row .modPkt rfl,
    decode_eq_ok_iff_row .oscReset rfl, decode_eq_error_iff_no_row⟩

/-- Settles O4: the table read by its fields, then the acceptance of each of the two words in IDLE. -/
theorem illegalWordsAreThoseOfTheRuleAndRaiseIllegalCmd :
    Obligations.IllegalWordsAreThoseOfTheRuleAndRaiseIllegalCmd := by
  unfold Obligations.IllegalWordsAreThoseOfTheRuleAndRaiseIllegalCmd
  refine fun w s => ⟨decode_eq_error_iff_fields, cmdWrite_illegal, fun hop hrsvd hlen hi => ?_⟩
  exact cmdWrite_lenRange (decode_eq_modBuf_iff.2 ⟨modBufRow_iff.2 ⟨hop, hrsvd⟩, rfl⟩) hlen hi

/-- Settles O17: the acceptance part of each command answers a next state (`exec_next`). -/
theorem everyCommandAnswersANextState : Obligations.EveryCommandAnswersANextState := by
  unfold Obligations.EveryCommandAnswersANextState
  exact exec_next

/-- Settles O5: the decoder run on each of the words. -/
theorem commandWordsOfTheSpecDecode : Obligations.CommandWordsOfTheSpecDecode := by
  unfold Obligations.CommandWordsOfTheSpecDecode
  decide

end Sys2Proof.Machine
end

section
/-! PROOFS of the statements of spec/40_framer.md: striping (O25, O26, O27), the packet layouts (O23), the data body
(O24), footers in the packet buffer (O28). -/

namespace Sys2Proof.Machine

section Striping

variable {mask : Nat → Byte} {p : List Byte} {q i : Nat}

/-- Exclusive-or with one mask twice gives the bytes back. -/
theorem xorFrom_xorFrom (mask : Nat → Byte) (q : Nat) (p : List Byte) :
    xorFrom mask q (xorFrom mask q p) = p := by
  induction p generalizing q with
  | nil => rfl
  | cons b p ih => simp only [xorFrom, ih, BitVec.xor_assoc, BitVec.xor_self, BitVec.xor_zero]

/-- A byte that meets the mask 0 stands. -/
theorem xorFrom_getElem?_of_mask_eq_zero (h : mask q = 0) : (xorFrom mask 0 p)[q]? = p[q]? := by
  simp [xorFrom_getElem?, h]

/-- The V1 mask by the index in the body (R87). -/
theorem mask1_body (h : i < 256) :
    mask1 (11 + i) = if i % 16 = 3 then 0x55 else if i % 16 = 11 then 0xAA else 0 := by
  unfold mask1
  rw [if_pos (by omega), Nat.add_sub_cancel_left]

theorem mask1_outside (h : q < 11 ∨ 267 ≤ q) : mask1 q = 0 := if_neg (by omega)

/-- The V2 mask from byte 9 to the footer is its three bytes in rotation (R88). -/
theorem mask2_striped (h : 9 ≤ q) (h' : q < 267) :
    mask2 q = ([0x35, 0xAC, 0x95] : List Byte).getD ((q - 9 + 2) % 3) 0 := by
  have hr : (q - 9 + 2) % 3 < 3 := Nat.mod_lt _ (by decide)
  unfold mask2
  rw [if_pos ⟨h, h'⟩]
  generalize (q - 9 + 2) % 3 = r at hr
  match r, hr with
  | 0, _ | 1, _ | 2, _ => rfl

theorem mask2_outside (h : q < 9 ∨ 267 ≤ q) : mask2 q = 0 := if_neg (by omega)

/-- Striping twice is the identity, for every version (R91). -/
theorem stripe_stripe (v : Byte) (p : List Byte) : stripe v (stripe v p) = p := by
  unfold stripe
  split
  · exact xorFrom_xorFrom mask1 0 p
  · exact xorFrom_xorFrom mask2 0 p

/-- No version stripes a packet from its footer on (R87, R88). -/
theorem drop_stripe (v : Byte) (p : List Byte) : (stripe v p).drop 267 = p.drop 267 := by
  refine List.ext_getElem? fun i => ?_
  rw [List.getElem?_drop, List.getElem?_drop]
  unfold stripe
  split
  · exact xorFrom_getElem?_of_mask_eq_zero (mask1_outside (by omega))
  · exact xorFrom_getElem?_of_mask_eq_zero (mask2_outside (by omega))

end Striping

/-- Settles O25, by the V1 mask: 0x55 or 0xAA at two body bytes of sixteen, 0 elsewhere. -/
theorem stripe1ActsOnTheBodyOnly : Obligations.Stripe1ActsOnTheBodyOnly := by
  unfold Obligations.Stripe1ActsOnTheBodyOnly
  refine fun p _ => ⟨xorFrom_length mask1 0 p, fun i hi => ?_, fun q hq =>
    xorFrom_getElem?_of_mask_eq_zero (mask1_outside hq)⟩
  rw [stripe1, xorFrom_getElem?, Nat.zero_add, mask1_body hi]
  congr 1
  funext b
  split
  · rfl
  · split
    · rfl
    · exact BitVec.xor_zero

/-- Settles O26: `L - (4 + S)` is 267, where the V2 mask ends. -/
theorem stripe2ActsFromByteNineToTheFooter : Obligations.Stripe2ActsFromByteNineToTheFooter := by
  unfold Obligations.Stripe2ActsFromByteNineToTheFooter
  intro p S hp
  have hfooter : p.length - (4 + S) = 267 := by omega
  rw [hfooter]
  refine ⟨xorFrom_length mask2 0 p, fun q h9 hq => ?_, fun q hq =>
    xorFrom_getElem?_of_mask_eq_zero (mask2_outside hq)⟩
  rw [stripe2, xorFrom_getElem?, Nat.zero_add, mask2_striped h9 hq]

/-- Settles O27: either striping is an exclusive-or with a mask of the offset alone (`xorFrom_xorFrom`). -/
theorem stripingTwiceIsTheIdentity : Obligations.StripingTwiceIsTheIdentity := by
  unfold Obligations.StripingTwiceIsTheIdentity
  exact fun p => ⟨xorFrom_xorFrom mask1 0 p, xorFrom_xorFrom mask2 0 p⟩

section Layout

variable {v : Byte} {p : List Byte} {m n i : Nat}

/-- What stands before the footer, read in the packet. -/
theorem slice_closePacket (h : i + n ≤ p.length) :
    ((closePacket v p).drop i).take n = (p.drop i).take n := by
  rw [closePacket, List.append_assoc, List.drop_append_of_le_length (by omega),
    List.take_append_of_le_length (by rw [List.length_drop]; omega)]

/-- The footer is the hash of the packet's own bytes from byte 7 up to it (R85). -/
theorem footer_closePacket (h : p.length = 7 + m) :
    ((closePacket v p).drop (7 + m)).take 4
      = le32 (Config.h32 0xDEADBEEF (((closePacket v p).drop 7).take m)) := by
  have hhashed : ((closePacket v p).drop 7).take m = p.drop 7 := by
    rw [slice_closePacket h.ge, List.take_of_length_le (by rw [List.length_drop]; omega)]
  rw [hhashed, closePacket, List.append_assoc, ← h, List.drop_left]
  rfl

/-- Behind the footer stands the stop padding (R84). -/
theorem drop_closePacket (h : p.length + 4 = n) :
    (closePacket v p).drop n = List.replicate (stopLen v) 0xFF :=
  List.drop_left' (by simp [footer, h])

/-- The header in a packet, byte by byte (R82). -/
theorem closePacket_header (v : Byte) (kind : PacketKind) (os : Bool) (h9 h10 : Byte) (rest p : List Byte)
    (hp : p = closePacket v (header v kind os h9 h10 ++ rest)) :
    p.take 7 = preamble ∧ p[7]? = some v ∧ p[8]? = some (typeByte kind os) ∧ p[9]? = some h9
    ∧ p[10]? = some h10 := by
  subst hp
  exact ⟨rfl, rfl, rfl, rfl, rfl⟩

theorem typeByte_control (os : Bool) : typeByte .control os = if os then 3 else 1 := by cases os <;> rfl

theorem typeByte_data (os : Bool) : typeByte .data os = if os then 4 else 2 := by cases os <;> rfl

variable (s : State)

/-- The control packet's fields between header and footer (R83, R89). -/
theorem controlPacket_fields :
    (s.controlPacket.drop 11).take 4 = le32 s.payloadLen
    ∧ (s.controlPacket.drop 15).take 4 = le32 (Config.h32 0x32D0BABE s.payloadBytes)
    ∧ (s.controlPacket.drop 19).take 16 = (Config.d128 s.payloadBytes).toList := by
  have hlen := controlOpening_length s
  unfold State.controlPacket
  rw [slice_closePacket (by omega), slice_closePacket (by omega), slice_closePacket (by omega)]
  exact ⟨rfl, rfl, List.take_of_length_le (Vector.length_toList ..).le⟩

/-- The data packet's body (R83, R90). -/
theorem plainDataPacket_body : (s.plainDataPacket.drop 11).take 256 = s.dataBody := by
  rw [State.plainDataPacket, slice_closePacket (dataOpening_length s).ge]
  exact List.take_of_length_le (dataBody_length s).le

/-- The control packet's footer verifies (R85). -/
theorem controlPacket_footer : (s.controlPacket.drop 35).take 4
    = le32 (Config.h32 0xDEADBEEF ((s.controlPacket.drop 7).take 28)) :=
  footer_closePacket (m := 28) (controlOpening_length s)

/-- The data packet's footer verifies before striping (R85). -/
theorem plainDataPacket_footer : (s.plainDataPacket.drop 267).take 4
    = le32 (Config.h32 0xDEADBEEF ((s.plainDataPacket.drop 7).take 260)) :=
  footer_closePacket (m := 260) (dataOpening_length s)

/-- Header byte 9 of a data packet, BLOCK.IDX[7:0], as a number (R82). -/
theorem block_low_byte : s.block.extractLsb' 0 8 = BitVec.ofNat 8 (s.block.toNat % 256) := by
  apply BitVec.eq_of_toNat_eq
  simp

theorem payloadBytes_length : s.payloadBytes.length = s.payloadLen.toNat := by simp [State.payloadBytes]

/-- The payload a control packet hashes is PayRead(0), PayRead(1) and so on (R89). -/
theorem payloadBytes_getElem? (h : i < s.payloadLen.toNat) : s.payloadBytes[i]? = some (s.payRead i) := by
  simp [State.payloadBytes, h]

/-- A byte of the data body (R86). -/
theorem dataBody_getElem? (h : i < 256) : s.dataBody[i]? = some
    (if s.block.toNat * 256 + i < s.payloadLen.toNat then s.payRead (s.block.toNat * 256 + i) else 0xFF) := by
  simp [State.dataBody, h]

/-- While the host keeps its duty, PayRead reads the payload memory (R55, R68). -/
theorem payRead_of_not_torn (h : s.payloadTorn = false) (a : Nat) : s.payRead a = s.payload.read a := by
  simp [State.payRead, h]

/-- The footer of the striped data packet verifies once the packet is striped again (R91). -/
theorem dataPacket_footer : (s.dataPacket.drop 267).take 4
    = le32 (Config.h32 0xDEADBEEF (((stripe s.ver s.dataPacket).drop 7).take 260)) := by
  rw [State.dataPacket, drop_stripe, stripe_stripe]
  exact plainDataPacket_footer s

/-- The packet built stands at the start of the packet buffer, PKT_LEN bytes long (R89, R90). -/
theorem buildStep_take_pktLen (kind : PacketKind) :
    (buildStep kind s).pktBuf.toList.take (buildStep kind s).pktLen.toNat = s.packetOf kind := by
  refine List.ext_getElem? fun i => ?_
  rw [buildStep_pktLen, List.getElem?_take]
  split
  · exact (buildStep_pktRead s kind i).trans (if_pos ‹_›)
  · exact (List.getElem?_eq_none (by omega)).symm

end Layout

/-- Settles O23: the rows of the header, of what stands between it and the footer, and of the packet's end. -/
theorem packetLayoutsAreThoseOfTheTables : Obligations.PacketLayoutsAreThoseOfTheTables := by
  unfold Obligations.PacketLayoutsAreThoseOfTheTables
  intro s S ctl dat
  obtain ⟨hpre, hver, htype, h9, h10⟩ := closePacket_header s.ver .control s.osUpdate 0x00 0x00 _ ctl rfl
  obtain ⟨hpre', hver', htype', h9', h10'⟩ :=
    closePacket_header s.ver .data s.osUpdate (s.block.extractLsb' 0 8) 0x00 s.dataBody dat rfl
  obtain ⟨hlen, hhash, hdigest⟩ := controlPacket_fields s
  rw [typeByte_control] at htype
  rw [typeByte_data] at htype'
  rw [block_low_byte] at h9'
  exact ⟨fun _ => ⟨controlPacket_length s, plainDataPacket_length s,
      hpre, hver, htype, h9, h10, hlen, hhash, hdigest, controlPacket_footer s,
        drop_closePacket (by rw [controlOpening_length]),
      hpre', hver', htype', h9', h10', plainDataPacket_body s, plainDataPacket_footer s,
        drop_closePacket (by rw [dataOpening_length])⟩,
    payloadBytes_length s, fun i => payloadBytes_getElem? s⟩

/-- Settles O24: the body is a map over its 256 indices, and BLOCK.IDX has 24 bits. -/
theorem dataBodyIsTheSlicePaddedWithFF : Obligations.DataBodyIsTheSlicePaddedWithFF := by
  unfold Obligations.DataBodyIsTheSlicePaddedWithFF
  intro s
  have hblock := s.block.isLt
  exact ⟨dataBody_length s, fun j hj => ⟨by omega, dataBody_getElem? s hj⟩,
    payRead_of_not_torn s⟩

/-- Settles O28: the buffer holds the packet built, whose footer is the hash of its own bytes, for the data packet
those before striping. -/
theorem footersVerifyInThePacketBuffer : Obligations.FootersVerifyInThePacketBuffer := by
  unfold Obligations.FootersVerifyInThePacketBuffer
  intro s t
  constructor
  · intro hb he
    cases (engineStep_of_build hb).symm.trans he
    simp only [buildStep_take_pktLen]
    exact controlPacket_footer s
  · intro hb he
    cases (engineStep_of_build hb).symm.trans he
    simp only [buildStep_take_pktLen]
    exact dataPacket_footer s

end Sys2Proof.Machine
end

section
/-! PROOFS of the statements of spec/40_framer.md on the acceptance of the framer commands (O11, O12), and of the
single commands' frames on the oscillator, the cursor and the flags (O19). -/

namespace Sys2Proof.Machine

section Acceptance

variable {s t : State} {kind : PacketKind} {n : Nat} {w : Word}

/-- A framer command with VERSION 1 or 2 starts the build (R89, R90). -/
theorem startBuild_of_legal (h : s.ver = 1 ∨ s.ver = 2) (kind : PacketKind) (w : Word) :
    startBuild kind w s = .next { s with runState := .build kind } :=
  if_pos (versionLegal_iff.2 h)

/-- A framer command with another VERSION raises CFG_VERSION (R89, R90). -/
theorem startBuild_of_illegal (h1 : s.ver ≠ 1) (h2 : s.ver ≠ 2) (kind : PacketKind) (w : Word) :
    startBuild kind w s = .next (s.raiseError .cfgVersion w) :=
  if_neg (mt versionLegal_iff.1 (not_or.2 ⟨h1, h2⟩))

/-- From `s` to `t` STATE, DONE, DROP and the error registers alone may differ. -/
def ChangesStatusOnly (s t : State) : Prop :=
  ∃ r d p e w, t = { s with runState := r, done := d, drop := p, errCode := e, errCmd := w }

theorem ChangesStatusOnly.sameOscillator (h : ChangesStatusOnly s t) : SameOscillator s t := by
  obtain ⟨r, d, p, e, w, rfl⟩ := h
  exact ⟨rfl, rfl, rfl, rfl, rfl, rfl⟩

theorem ChangesStatusOnly.sameCursor (h : ChangesStatusOnly s t) : SameCursor s t := by
  obtain ⟨r, d, p, e, w, rfl⟩ := h
  exact ⟨rfl, rfl, rfl, rfl, rfl⟩

/-- An error entry changes nothing but status (R111). -/
theorem ChangesStatusOnly.raiseError (s : State) (code : ErrorCode) (w : Word) :
    ChangesStatusOnly s (s.raiseError code w) := ⟨_, _, _, _, _, rfl⟩

/-- An accepted word runs, or changes nothing but status: it is dropped or ignored (R102). -/
theorem accept_runs_or_changesStatusOnly {run : State → Result} (h : accept s run = .next t) :
    run s = .next t ∨ ChangesStatusOnly s t := by
  rcases accept_cases h with ⟨-, hr⟩ | ⟨-, rfl⟩ | ⟨-, rfl⟩
  · exact .inl hr
  · exact .inr ⟨_, _, _, _, _, rfl⟩
  · exact .inr ⟨_, _, _, _, _, rfl⟩

/-- NOP completes, or is dropped or ignored (R105). -/
theorem execNop_changesStatusOnly (h : execNop s = .next t) : ChangesStatusOnly s t := by
  rcases accept_runs_or_changesStatusOnly h with hr | hs
  · cases hr; exact ⟨_, _, _, _, _, rfl⟩
  · exact hs

/-- A framer command that runs starts the build or raises an error (R89, R90). -/
theorem accept_startBuild_changesStatusOnly (h : accept s (startBuild kind w) = .next t) :
    ChangesStatusOnly s t := by
  rcases accept_runs_or_changesStatusOnly h with hr | hs
  · unfold startBuild at hr
    split at hr
    · cases hr; exact ⟨_, _, _, _, _, rfl⟩
    · cases hr; exact .raiseError s _ w
  · exact hs

/-- NOP and the framer commands change nothing but status at their acceptance. -/
theorem exec_changesStatusOnly
    (h : exec .nop s = .next t ∨ exec .buildCtrl s = .next t ∨ exec .buildData s = .next t) :
    ChangesStatusOnly s t := by
  rcases h with h | h | h
  · exact execNop_changesStatusOnly h
  · exact accept_startBuild_changesStatusOnly h
  · exact accept_startBuild_changesStatusOnly h

/-- OSC_RESET touches neither the latched increments nor the cursor (R98). -/
theorem execOscReset_sameCursor (h : execOscReset s = .next t) : SameCursor s t := by
  rcases accept_runs_or_changesStatusOnly h with hr | hs
  · cases hr; exact ⟨rfl, rfl, rfl, rfl, rfl⟩
  · exact hs.sameCursor

/-- PHASE, BAUD_FRAC and SAMPLE_COUNT stand from `s` to `t`: what a modulator command goes on from (R93, R100). -/
def KeepsPhase (s t : State) : Prop :=
  t.phase = s.phase ∧ t.baudFrac = s.baudFrac ∧ t.sampleCount = s.sampleCount

theorem ChangesStatusOnly.keepsPhase (h : ChangesStatusOnly s t) : KeepsPhase s t :=
  ⟨h.sameOscillator.phase, h.sameOscillator.baudFrac, h.sameOscillator.sampleCount⟩

/-- The prologue latches increments, sets the cursor and loads a byte, and so keeps the rest (R93). -/
theorem prologue_keepsPhase (h : prologue n w s = .next t) : KeepsPhase s t := by
  rcases prologue_cases h with ⟨-, rfl⟩ | ⟨-, rfl⟩
  · exact (ChangesStatusOnly.raiseError s _ w).keepsPhase
  · exact ⟨beginModulation_phase s n, beginModulation_baudFrac s n, beginModulation_sampleCount s n⟩

theorem startModBuf_keepsPhase (h : startModBuf n w s = .next t) : KeepsPhase s t := by
  unfold startModBuf at h
  split at h
  · cases h; exact (ChangesStatusOnly.raiseError s _ w).keepsPhase
  · exact prologue_keepsPhase h

/-- The modulator commands keep PHASE, BAUD_FRAC and SAMPLE_COUNT at their acceptance (R93, R96, R97). -/
theorem exec_keepsPhase (h : exec (.modBuf n) s = .next t ∨ exec .modPkt s = .next t) : KeepsPhase s t := by
  rcases h with h | h
  · exact (accept_runs_or_changesStatusOnly h).elim startModBuf_keepsPhase ChangesStatusOnly.keepsPhase
  · exact (accept_runs_or_changesStatusOnly h).elim prologue_keepsPhase ChangesStatusOnly.keepsPhase

/-- In IDLE no command sets or clears DROP (R114). -/
theorem exec_idle_drop {i : Instr} (h : exec i s = .next t) (hi : s.runState = .idle) : t.drop = s.drop := by
  rcases exec_cases h with ⟨hb, -⟩ | ⟨he, -⟩ |
    ⟨-, rfl | ⟨kind, -, rfl⟩ | rfl | ⟨n, -, -, rfl⟩ | ⟨code, rfl⟩⟩
  · rw [hi] at hb; simp at hb
  · rw [hi] at he; cases he
  · rfl
  · rfl
  · rfl
  · exact beginModulation_drop s n
  · rfl

/-- A command that leaves STATE at ERROR leaves DONE as it was (R111). -/
theorem exec_error_done {i : Instr} (h : exec i s = .next t) (ht : t.runState = .error) : t.done = s.done := by
  rcases exec_cases h with ⟨-, rfl⟩ | ⟨-, rfl⟩ |
    ⟨-, rfl | ⟨kind, -, rfl⟩ | rfl | ⟨n, -, -, rfl⟩ | ⟨code, rfl⟩⟩
  · rfl
  · rfl
  · cases ht
  · cases ht
  · cases ht
  · rcases beginModulation_runState n s with hm | ⟨hm, -⟩
    · cases hm.symm.trans ht
    · cases hm.symm.trans ht
  · rfl

end Acceptance

/-- Settles O11: the check of VERSION passes for either command. -/
theorem framerCommandsStartABuild : Obligations.FramerCommandsStartABuild := by
  unfold Obligations.FramerCommandsStartABuild
  exact fun s hi hv => ⟨(accept_idle hi).trans (startBuild_of_legal hv _ _),
    (accept_idle hi).trans (startBuild_of_legal hv _ _)⟩

/-- Settles O12: VERSION is all that is checked, and the error notes the command's own word. -/
theorem framerCommandsRejectAnIllegalVersion : Obligations.FramerCommandsRejectAnIllegalVersion := by
  unfold Obligations.FramerCommandsRejectAnIllegalVersion
  exact fun s hi h1 h2 => ⟨(accept_idle hi).trans (startBuild_of_illegal h1 h2 _ _),
    (accept_idle hi).trans (startBuild_of_illegal h1 h2 _ _)⟩

/-- Settles O19, frame by frame; the two on the flags follow from what exec can do (`exec_cases`). -/
theorem commandsLeaveTheirOscillatorFrameUnchanged : Obligations.CommandsLeaveTheirOscillatorFrameUnchanged := by
  unfold Obligations.CommandsLeaveTheirOscillatorFrameUnchanged
  exact fun s t => ⟨fun h => ⟨(exec_changesStatusOnly h).sameOscillator, (exec_changesStatusOnly h).sameCursor⟩,
    execOscReset_sameCursor, fun _ => exec_keepsPhase, fun _ => exec_idle_drop, fun _ => exec_error_done⟩

end Sys2Proof.Machine
end

section
/-! PROOFS of the statements of spec/41_modulator.md on the acceptance of the modulator commands (O13 to O16), on
OSC_RESET (O10), on the frame of all six commands (O18) and on the increments of legal rates (O34). -/

namespace Sys2Proof.Machine

section Acceptance

variable {s t : State} {n : Nat} {w : Word}

/-- The rates the prologue rejects (R93). -/
theorem ratesIllegal_iff : s.ratesIllegal = true ↔
    s.sampleRate = 0 ∨ s.baudRate = 0 ∨ s.sampleRate.toNat ≤ s.baudRate.toNat := by
  simp [State.ratesIllegal, BitVec.toNat_eq, or_assoc]

/-- With legal rates the prologue goes on past its check (R93). -/
theorem prologue_of_legal (h : 0 < s.baudRate.toNat) (h' : s.baudRate.toNat < s.sampleRate.toNat) :
    prologue n w s = .next (beginModulation n s) := by
  simp [prologue, ratesIllegal_eq_false_iff.2 ⟨h, h'⟩]

/-- With other rates it raises CFG_NUMERIC (R93). -/
theorem prologue_of_illegal
    (h : s.sampleRate = 0 ∨ s.baudRate = 0 ∨ s.sampleRate.toNat ≤ s.baudRate.toNat) :
    prologue n w s = .next (s.raiseError .cfgNumeric w) :=
  if_pos (ratesIllegal_iff.2 h)

/-- MOD_BUF in IDLE is its prologue where the packet buffer has LEN bytes (R96). -/
theorem exec_modBuf_of_idle (hi : s.runState = .idle) (hn : n ≤ 512) :
    exec (.modBuf n) s = prologue n (encode (.modBuf n)) s :=
  (accept_idle hi).trans (if_neg (Nat.not_lt.2 hn))

/-- MOD_BUF in IDLE raises LEN_RANGE where it has not (R96, R112). -/
theorem exec_modBuf_too_long (hi : s.runState = .idle) (hn : 512 < n) :
    exec (.modBuf n) s = .next (s.raiseError .lenRange (encode (.modBuf n))) :=
  (accept_idle hi).trans (if_pos hn)

/-- MOD_PKT in IDLE is its prologue over PKT_LEN bytes (R97). -/
theorem exec_modPkt_of_idle (hi : s.runState = .idle) (hn : s.pktLen.toNat = n) :
    exec .modPkt s = prologue n (encode .modPkt) s :=
  hn ▸ accept_idle hi

/-- OSC_RESET in IDLE is its whole effect (R98). -/
theorem exec_oscReset_of_idle (hi : s.runState = .idle) :
    exec .oscReset s = .next s.resetOscillator.complete :=
  accept_idle (run := fun s => .next s.resetOscillator.complete) hi

/-- The configuration, the enables, the packet and the outside are the same: what every command leaves standing at
its acceptance (R102). -/
def KeepsSurroundings (s t : State) : Prop :=
  SameConfig s t ∧ SameEnables s t ∧ SamePacket s t ∧ SameOutside s t

/-- A state that differs from `s` in status, the oscillator, the increments and the cursor alone. -/
theorem KeepsSurroundings.of_fields {r : RunState} {d p bit : Bool} {e : Option ErrorCode} {c : Word} {byte : Byte}
    {left : BitVec 4} {ph bf : F64} {count : Word} : KeepsSurroundings s { s with
      runState := r, done := d, drop := p, errCode := e, errCmd := c, phase := ph, baudFrac := bf, curByte := byte
      curBit := bit, bitsLeft := left, sampleCount := count } :=
  ⟨⟨rfl, rfl, rfl, rfl, rfl, rfl, rfl, rfl⟩, ⟨rfl, rfl⟩, ⟨fun _ => rfl, rfl⟩,
    ⟨fun _ => rfl, rfl, rfl, rfl, rfl, rfl, rfl⟩⟩

/-- No command writes configuration, enables, packet or outside at its acceptance (R102). -/
theorem exec_keepsSurroundings {i : Instr} (h : exec i s = .next t) : KeepsSurroundings s t := by
  rcases exec_cases h with ⟨-, rfl⟩ | ⟨-, rfl⟩ |
    ⟨-, rfl | ⟨kind, -, rfl⟩ | rfl | ⟨n, -, -, rfl⟩ | ⟨code, rfl⟩⟩
  · exact .of_fields
  · exact .of_fields
  · exact .of_fields
  · exact .of_fields
  · exact .of_fields
  · exact beginModulation_frame n s
  · exact .of_fields

end Acceptance

/-- Settles O13: past the checks of LEN and the rates the prologue loads byte 0 (`beginModulation_bytes`). -/
theorem modulatorCommandsStartSending : Obligations.ModulatorCommandsStartSending := by
  unfold Obligations.ModulatorCommandsStartSending
  intro s hi hbits hbaud hrate
  have started {n : Nat} {w : Word} (hn : 1 ≤ n) := (prologue_of_legal (w := w) hbaud hrate).trans
    (congrArg Host.Outcome.next (beginModulation_bytes hbits hn))
  exact ⟨fun len h1 h512 => (exec_modBuf_of_idle hi h512).trans (started h1),
    fun h1 => (exec_modPkt_of_idle hi rfl).trans (started h1)⟩

/-- Settles O14: past the check of the rates the prologue has no byte to load (`beginModulation_empty`). -/
theorem emptyModulatorCommandsCompleteAtOnce : Obligations.EmptyModulatorCommandsCompleteAtOnce := by
  unfold Obligations.EmptyModulatorCommandsCompleteAtOnce
  intro s hi hbits hbaud hrate
  have finished {w : Word} := (prologue_of_legal (w := w) hbaud hrate).trans
    (congrArg Host.Outcome.next (beginModulation_empty hbits))
  exact ⟨(exec_modBuf_of_idle hi (Nat.zero_le _)).trans finished,
    fun hlen => (exec_modPkt_of_idle hi (congrArg BitVec.toNat hlen)).trans finished⟩

/-- Settles O15: both commands reach the prologue's check, each with its own word. -/
theorem modulatorCommandsRejectIllegalRates : Obligations.ModulatorCommandsRejectIllegalRates := by
  unfold Obligations.ModulatorCommandsRejectIllegalRates
  intro s hi hrates
  refine ⟨fun len hlen => ?_, (exec_modPkt_of_idle hi rfl).trans (prologue_of_illegal hrates)⟩
  rw [← encode_modBuf (by omega)]
  exact (exec_modBuf_of_idle hi hlen).trans (prologue_of_illegal hrates)

/-- Settles O16: LEN is checked before the prologue. -/
theorem modBufRejectsALengthAboveTheBuffer : Obligations.ModBufRejectsALengthAboveTheBuffer := by
  unfold Obligations.ModBufRejectsALengthAboveTheBuffer
  intro s len hi hlen hlen'
  rw [← encode_modBuf hlen']
  exact exec_modBuf_too_long hi hlen

/-- Settles O10. -/
theorem oscResetRestartsTheOscillator : Obligations.OscResetRestartsTheOscillator := by
  unfold Obligations.OscResetRestartsTheOscillator
  exact ⟨rfl, fun s hi => exec_oscReset_of_idle hi⟩

/-- Settles O18, from what exec can do (`exec_cases`). -/
theorem commandsLeaveConfigurationPacketAndOutsideUnchanged :
    Obligations.CommandsLeaveConfigurationPacketAndOutsideUnchanged := by
  unfold Obligations.CommandsLeaveConfigurationPacketAndOutsideUnchanged
  exact fun i s t => exec_keepsSurroundings

/-- Settles O34, from the extreme rates (`baudIncrement_bounds`, `omega_le`). -/
theorem incrementsOfLegalRatesAreBounded : Obligations.IncrementsOfLegalRatesAreBounded := by
  unfold Obligations.IncrementsOfLegalRatesAreBounded
  intro f baud sr hbaud hrate
  obtain ⟨hlow, hhigh⟩ := baudIncrement_bounds hbaud hrate
  exact ⟨hlow, hhigh, omega_le (Nat.lt_trans hbaud hrate)⟩

end Sys2Proof.Machine
end

section
/-! PROOFS of the statements of spec/41_modulator.md on the sample step (O30), on the end of a running command (O57)
and on two commands that continue as one (O32). -/

namespace Sys2Proof.Machine

section SampleStep

variable {s t : State}

/-- A bit is done that is not the byte's last: the next bit is the one being sent (R94). -/
theorem nextBit_of_bits_left (h : s.bitsLeft ≠ 0) :
    nextBit s = .next { s with curBit := s.curByte.getLsbD (8 - s.bitsLeft.toNat) } :=
  if_neg h

/-- The last bit of the last byte is done: the command completes (R94, R95). -/
theorem nextBit_of_end (h : s.bitsLeft = 0) (hp : s.pos = s.modN) : nextBit s = .next s.complete := by
  simp [nextBit, h, hp]

/-- The last bit of another byte is done: the next byte is loaded (R94). -/
theorem nextBit_of_next_byte {b : Byte} (h : s.bitsLeft = 0) (hp : s.pos ≠ s.modN)
    (hb : s.pktRead s.pos = some b) : nextBit s = .next (s.loadByte b) := by
  simp [nextBit, h, hp, hb]

section InProgress

variable (hm : s.runState = .mod) (hr : s.sinkReady = true)
  (h1 : 1 ≤ s.bitsLeft.toNat) (h8 : s.bitsLeft.toNat ≤ 8)
include hm hr h1 h8

/-- ENGINE's step where the bit goes on (R94). -/
theorem engineStep_within_bit (hg : F64.gt (F64.add s.baudFrac s.baudInc) F64.one = false) :
    engineStep s = .next s.advance := by
  rw [engineStep_of_sending hm hr h1 h8, State.advance_baudFrac, hg, if_neg Bool.false_ne_true]

/-- ENGINE's step where the bit is done (R94). -/
theorem engineStep_at_bit_end (hg : F64.gt (F64.add s.baudFrac s.baudInc) F64.one = true) :
    engineStep s = nextBit s.advance.endBit := by
  rw [engineStep_of_sending hm hr h1 h8, State.advance_baudFrac, hg, if_pos rfl]

end InProgress

/-- After the byte's last bit no bit is left (R94). -/
theorem advance_endBit_no_bit_left (h : s.bitsLeft = 1) : s.advance.endBit.bitsLeft = 0 := by
  simp [h]

/-- Before the byte's last bit one is. -/
theorem advance_endBit_bits_left (h : s.bitsLeft ≠ 1) : s.advance.endBit.bitsLeft ≠ 0 := by
  rw [State.endBit_bitsLeft, State.advance_bitsLeft]
  bv_omega

/-- After a bit that is done STATE is as it was, or the command is complete (R95). -/
theorem nextBit_runState (h : nextBit s = .next t) :
    t.runState = s.runState ∨ (t.runState = .idle ∧ t.done = true) := by
  rcases nextBit_cases h with ⟨-, -, rfl⟩ | ⟨-, -, b, -, rfl⟩ | ⟨-, rfl⟩
  · exact .inr ⟨rfl, rfl⟩
  · exact .inl rfl
  · exact .inl rfl

theorem sampleStep_runState (h : sampleStep s = .next t) :
    t.runState = s.runState ∨ (t.runState = .idle ∧ t.done = true) := by
  obtain ⟨-, -, ⟨-, rfl⟩ | ⟨-, hn⟩⟩ := sampleStep_cases h
  · exact .inl s.advance_runState
  · simpa using nextBit_runState hn

/-- ENGINE's step leaves STATE as it was, or completes the command (R104). -/
theorem engineStep_runState (h : engineStep s = .next t) :
    t.runState = s.runState ∨ (t.runState = .idle ∧ t.done = true) := by
  rcases engineStep_cases h with ⟨-, rfl⟩ | ⟨kind, -, rfl⟩ | ⟨-, -, hs⟩
  · exact .inl rfl
  · exact .inr ⟨rfl, rfl⟩
  · exact sampleStep_runState hs

/-- A write away from CMD that is no reset leaves STATE (R107). -/
theorem SlotWritten.runState_eq {w : Word} {slot : Slot} (h : SlotWritten s w slot t)
    (hr : ¬ IsSoftReset slot w) : t.runState = s.runState := by
  cases h with
  | config _ _ ht => rw [ht]
  | reset _ _ hslot hbit => exact absurd ⟨hslot, hbit⟩ hr
  | _ => rfl

/-- In BUILD and MOD a write that is no reset leaves STATE: a CMD write is dropped (R102, R107). -/
theorem regWrite_busy_runState {a : Offset} {w : Word}
    (hb : (∃ kind, s.runState = .build kind) ∨ s.runState = .mod) (hr : ¬ IsSoftReset (slotOf a) w)
    (h : regWrite a w s = .next t) : t.runState = s.runState := by
  rcases regWrite_cases h with ⟨-, hc⟩ | ⟨-, hs⟩
  · rw [cmdWrite_of_busy w hb] at hc
    cases hc
    rfl
  · exact hs.runState_eq hr

end SampleStep

/-- Settles O30, ending by ending. -/
theorem sampleStepFollowsTheRule : Obligations.SampleStepFollowsTheRule := by
  unfold Obligations.SampleStepFollowsTheRule
  intro s hm hr h1 h8
  refine ⟨fun hg => engineStep_within_bit hm hr h1 h8 hg, fun hg hbits => ?_, fun hg hbits hpos b hb => ?_,
    fun hg hbits hpos => ?_⟩
  · have hleft : (s.bitsLeft - 1).toNat = s.bitsLeft.toNat - 1 := by bv_omega
    rw [engineStep_at_bit_end hm hr h1 h8 hg, nextBit_of_bits_left (advance_endBit_bits_left hbits), ← hleft]
    rfl
  · rw [engineStep_at_bit_end hm hr h1 h8 hg]
    exact nextBit_of_next_byte (advance_endBit_no_bit_left hbits) hpos hb
  · rw [engineStep_at_bit_end hm hr h1 h8 hg]
    exact nextBit_of_end (advance_endBit_no_bit_left hbits) hpos

/-- Settles O57, from what one step is (`step_cases`): HOST's writes leave STATE while a command runs, and ENGINE's
step leaves it or completes. -/
theorem onlyCompletionOrResetEndsACommand : Obligations.OnlyCompletionOrResetEndsACommand := by
  unfold Obligations.OnlyCompletionOrResetEndsACommand
  intro s t hb h hr
  have write {a : Offset} {w : Word} {rest : List Move} {v : State} (hnext : s.writesNext a w)
      (hw : regWrite a w (s.withAgenda rest) = .next v) : v.runState = s.runState :=
    regWrite_busy_runState (s := s.withAgenda rest) hb (not_isSoftReset hnext hr) hw
  rcases step_cases h with ⟨d, n, ms, he⟩ | ⟨d, n, ms, rfl⟩ | ⟨a, w, rest, hag, hw⟩
    | ⟨a, w, rest, hag, ⟨v, -, hw, he⟩ | ⟨-, hw⟩⟩ | ⟨hreset, -⟩ | ⟨b, rest, rfl⟩
    | ⟨a, v, rest, -, rfl⟩ | ⟨n, rest, -, rfl⟩
  · have hrun := engineStep_runState he
    exact hrun
  · exact .inl rfl
  · exact .inl (write ⟨rest, .inl hag⟩ hw)
  · exact write ⟨rest, .inr hag⟩ hw ▸ engineStep_runState he
  · exact .inl (write ⟨rest, .inr hag⟩ hw)
  · rw [hr] at hreset; cases hreset
  · exact .inl rfl
  · exact .inl rfl
  · exact .inl rfl

section Continue

variable {s : State}

/-- The bytes still to send, one by one: those of the packet buffer from POS on, up to MOD_N (R48). -/
theorem toSend_getElem? (s : State) (i : Nat) :
    s.toSend[i]? = if i < s.modN - s.pos then s.pktRead (s.pos + i) else none := by
  simp [State.toSend, State.pktRead, List.getElem?_take, List.getElem?_drop]

/-- A command over B from index 0 of its own buffer and a command over A ++ B at B's first byte have the same bytes
left once that byte is loaded (R100). -/
theorem toSend_loaded_eq {t : State} (hpos : t.pos = 1) (hn : t.modN = s.modN - s.pos)
    (hbytes : ∀ i, i < t.modN → t.pktBuf.toList[i]? = s.pktRead (s.pos + i)) (b : Byte) :
    t.toSend = (s.loadByte b).toSend := by
  refine List.ext_getElem? fun i => ?_
  rw [toSend_getElem?, toSend_getElem?, hpos, hn, State.loadByte_pos, State.loadByte_modN, Nat.sub_sub]
  refine ite_congr rfl (fun hi => ?_) fun _ => rfl
  have h := hbytes (1 + i) (by omega)
  rwa [← Nat.add_assoc] at h

/-- `a` takes over from `v` where a command ended: the phase and the bit timing, the configuration and the samples
are those of `v`, and no bit is in progress (R100). -/
structure TakesOver (v a : State) : Prop where
  phase : KeepsPhase v a
  config : SameConfig v a
  samples : a.samples = v.samples
  bitsLeft : a.bitsLeft = 0

/-- A command that takes over sends what `v` sends once it loads byte 0 of the new buffer (R93, R100). -/
theorem TakesOver.sameOscillator {v a : State} {n : Nat} (h : TakesOver v a) (hn : 1 ≤ n) :
    SameOscillator (v.loadByte a.pktBuf[0]) (beginModulation n a) := by
  obtain ⟨hphase, hfrac, hcount⟩ := h.phase
  rw [beginModulation_bytes h.bitsLeft hn]
  exact ⟨hphase, hfrac, rfl, rfl, rfl, hcount⟩

/-- A command that takes over latches the increments that the same rates gave the command before it (R92). -/
theorem TakesOver.sameIncrements {v a : State} (h : TakesOver v a) (n : Nat)
    (hlo : v.omegaLo = omega v.fLo v.sampleRate) (hhi : v.omegaHi = omega v.fHi v.sampleRate)
    (hinc : v.baudInc = baudIncrement v.baudRate v.sampleRate) :
    (beginModulation n a).omegaLo = v.omegaLo ∧ (beginModulation n a).omegaHi = v.omegaHi
    ∧ (beginModulation n a).baudInc = v.baudInc := by
  simp [h.config.fLo, h.config.fHi, h.config.baudRate, h.config.sampleRate, hlo, hhi, hinc]

/-- A command that starts over at least one byte runs, with that byte loaded (R93). -/
theorem beginModulation_sending {n : Nat} (hbits : s.bitsLeft = 0) (hn : 1 ≤ n) :
    (beginModulation n s).runState = .mod ∧ (beginModulation n s).pos = 1 := by
  rw [beginModulation_bytes hbits hn]
  exact ⟨rfl, rfl⟩

/-- The bit that ends a command over A ++ B at the end of A, and a command over A alone: after the latter completes and
the host writes `buf`, IDLE takes over from the former (R100). -/
theorem takesOver_of_shorter (buf : Vector Byte 512) (h : s.bitsLeft = 1) : TakesOver s.advance.endBit
    { ({ s with modN := s.pos } : State).advance.endBit.complete with pktBuf := buf } where
  phase := by simp [KeepsPhase]
  config := by constructor <;> simp
  samples := by simp
  bitsLeft := by simp [h]

end Continue

/-- Settles O32: at the byte's end the whole command loads B's first byte; the shorter one completes, and then the
prologue loads the same byte and latches the same increments (`TakesOver`). -/
theorem twoCommandsContinueAsOne : Obligations.TwoCommandsContinueAsOne := by
  unfold Obligations.TwoCommandsContinueAsOne
  intro s buf n hm hr hbits hg hpos hbyte hbaud hrate hlo hhi hinc h1 h512
  have hlow : 1 ≤ s.bitsLeft.toNat := by simp [hbits]
  have hhigh : s.bitsLeft.toNat ≤ 8 := by simp [hbits]
  have hnone := advance_endBit_no_bit_left hbits
  have hwhole := (engineStep_at_bit_end hm hr hlow hhigh hg).trans (nextBit_of_next_byte hnone hpos hbyte)
  have hendA := (engineStep_at_bit_end (s := { s with modN := s.pos }) hm hr hlow hhigh hg).trans
    (nextBit_of_end hnone rfl)
  have hover := takesOver_of_shorter buf hbits
  have hstart := (exec_modBuf_of_idle rfl h512).trans (prologue_of_legal
    (s := { ({ s with modN := s.pos } : State).advance.endBit.complete with pktBuf := buf }) hbaud hrate)
  obtain ⟨hmod, hone⟩ := beginModulation_sending hover.bitsLeft h1
  obtain ⟨hlo', hhi', hinc'⟩ := hover.sameIncrements n
    (by simpa using hlo) (by simpa using hhi) (by simpa using hinc)
  refine ⟨_, _, _, hwhole, hendA, rfl, hstart, hover.sameOscillator h1, by simp, hmod, by simpa using hm,
    hlo', hhi', hinc', fun hn hbytes => ?_⟩
  exact toSend_loaded_eq (s := s.advance.endBit) hone ((beginModulation_modN _ n).trans hn)
    (by rw [beginModulation_modN, beginModulation_pktBuf]; exact hbytes) _

end Sys2Proof.Machine
end

section
/-! PROOFS of the statements of spec/41_modulator.md on a command with ENGINE alone at work: what it sends depends
only on the oscillator and the bytes left (O33), and it completes (O38). -/

namespace Sys2Proof.Machine

section Alone

variable {s t : State}

/-- A modulator command that runs or is complete, ENGINE alone at work, under the invariant. -/
structure State.ModulatesAlone (s : State) : Prop where
  inv : s.Inv
  alone : s.engineAlone = true
  mode : s.runState = .mod ∨ s.runState = .idle

theorem engineAlone_iff : s.engineAlone = true ↔ s.agenda = [] ∧ s.sinkReady = true := by
  simp [State.engineAlone]

/-- With ENGINE alone the step is the sample step in MOD, and none in IDLE (R103). -/
theorem State.ModulatesAlone.step_of_mod (h : s.ModulatesAlone) (hm : s.runState = .mod) :
    step s = sampleStep s := by
  obtain ⟨hag, hready⟩ := engineAlone_iff.1 h.alone
  rw [step_of_no_agenda hag]
  simp only [engineStep, hm, hready, if_true]

theorem State.ModulatesAlone.step_of_idle (h : s.ModulatesAlone) (hi : s.runState = .idle) :
    step s = .next s := by
  rw [step_of_no_agenda (engineAlone_iff.1 h.alone).1]
  exact engineStep_of_not_enabled (by simp only [State.engineEnabled, hi])

/-- A sample step calls no other agent, and leaves SINK ready (R94). -/
theorem sampleStep_engineAlone (h : sampleStep s = .next t) : t.engineAlone = s.engineAlone := by
  obtain ⟨-, -, ⟨-, rfl⟩ | ⟨-, hn⟩⟩ := sampleStep_cases h
  · simp [State.engineAlone]
  · rcases nextBit_cases hn with ⟨-, -, rfl⟩ | ⟨-, -, b, -, rfl⟩ | ⟨-, rfl⟩ <;> simp [State.engineAlone]

/-- A sample step of a command that runs alone leaves it running alone or complete. -/
theorem State.ModulatesAlone.sampleStep (h : s.ModulatesAlone) (hm : s.runState = .mod)
    (hs : sampleStep s = .next t) : t.ModulatesAlone where
  inv := everyStepKeepsTheInvariant s t h.inv ((h.step_of_mod hm).trans hs)
  alone := (sampleStep_engineAlone hs).trans h.alone
  mode := (sampleStep_runState hs).imp (·.trans hm) And.left

/-- A command that runs alone has a next sample step: no step faults under the invariant (R49). -/
theorem State.ModulatesAlone.sampleStep_next (h : s.ModulatesAlone) (hm : s.runState = .mod) :
    ∃ t, Sys2Proof.Machine.sampleStep s = .next t := by
  obtain ⟨t, ht⟩ := noStepFaultsUnderTheInvariant s h.inv
  exact ⟨t, (h.step_of_mod hm).symm.trans ht⟩

end Alone

section BytesLeft

variable {s t s' t' : State}

/-- Loading the next byte takes it off the bytes still to send (R48, R94). -/
theorem toSend_loadByte (b : Byte) (s : State) : (s.loadByte b).toSend = s.toSend.tail := by
  refine List.ext_getElem? fun i => ?_
  rw [List.getElem?_tail, toSend_getElem?, toSend_getElem?, State.loadByte_pos, State.loadByte_modN]
  refine ite_congr (propext (by omega)) (fun _ => ?_) fun _ => rfl
  rw [show s.pos + 1 + i = s.pos + (i + 1) by omega]
  rfl

/-- The first byte still to send is the packet buffer's at POS, where POS is below MOD_N (R48). -/
theorem toSend_getElem?_zero (s : State) : s.toSend[0]? = if s.pos < s.modN then s.pktRead s.pos else none := by
  rw [toSend_getElem?, Nat.add_zero]
  exact ite_congr (propext (by omega)) (fun _ => rfl) fun _ => rfl

/-- Two states agree in STATE, the oscillator, the increments and the bytes still to send: all that the sample step
reads (R94). -/
structure SendsAlike (s t : State) : Prop where
  runState : s.runState = t.runState
  oscillator : SameOscillator s t
  omegaLo : s.omegaLo = t.omegaLo
  omegaHi : s.omegaHi = t.omegaHi
  baudInc : s.baudInc = t.baudInc
  toSend : s.toSend = t.toSend

theorem SendsAlike.advance (h : SendsAlike s t) : SendsAlike s.advance t.advance := by
  obtain ⟨hrun, ⟨hphase, hfrac, hbyte, hbit, hleft, hcount⟩, hlo, hhi, hinc, hbytes⟩ := h
  exact ⟨by simp [hrun], by constructor <;> simp [*], by simp [hlo], by simp [hhi], by simp [hinc], hbytes⟩

theorem SendsAlike.endBit (h : SendsAlike s t) : SendsAlike s.endBit t.endBit := by
  obtain ⟨hrun, ⟨hphase, hfrac, hbyte, hbit, hleft, hcount⟩, hlo, hhi, hinc, hbytes⟩ := h
  exact ⟨by simp [hrun], by constructor <;> simp [*], by simp [hlo], by simp [hhi], by simp [hinc], hbytes⟩

theorem SendsAlike.complete (h : SendsAlike s t) : SendsAlike s.complete t.complete :=
  { h with runState := rfl, oscillator := { h.oscillator with } }

theorem SendsAlike.loadByte (h : SendsAlike s t) (b : Byte) : SendsAlike (s.loadByte b) (t.loadByte b) :=
  { h with
    oscillator := { h.oscillator with curByte := rfl, curBit := rfl, bitsLeft := rfl }
    toSend := by rw [toSend_loadByte, toSend_loadByte, h.toSend] }

/-- The bytes still to send say what follows a byte's last bit: the first of them, and completion where there is none
(R94, R95). -/
theorem nextBit_eq_of_toSend (hbits : s.bitsLeft = 0) (hc : s.pos ≤ s.modN ∧ s.modN ≤ 512) :
    nextBit s = .next (s.toSend[0]?.elim s.complete s.loadByte) := by
  rw [toSend_getElem?_zero]
  by_cases hp : s.pos = s.modN
  · rw [nextBit_of_end hbits hp, if_neg (by omega)]
    rfl
  · have hb := pktRead_eq_some s (i := s.pos) (by omega)
    rw [nextBit_of_next_byte hbits hp hb, if_pos (by omega), hb]
    rfl

theorem SendsAlike.nextBit (h : SendsAlike s t) (hs : s.pos ≤ s.modN ∧ s.modN ≤ 512)
    (ht : t.pos ≤ t.modN ∧ t.modN ≤ 512) (hs' : nextBit s = .next s') (ht' : nextBit t = .next t') :
    SendsAlike s' t' := by
  have hleft := h.oscillator.bitsLeft
  by_cases hbits : s.bitsLeft = 0
  · rw [nextBit_eq_of_toSend hbits hs] at hs'
    rw [nextBit_eq_of_toSend (hleft.trans hbits) ht, ← h.toSend] at ht'
    cases hs'
    cases ht'
    cases s.toSend[0]? with
    | none => exact h.complete
    | some b => exact h.loadByte b
  · rw [nextBit_of_bits_left hbits] at hs'
    rw [nextBit_of_bits_left (hleft ▸ hbits)] at ht'
    cases hs'
    cases ht'
    exact { h with oscillator := { h.oscillator with curBit := by simp only [hleft, h.oscillator.curByte] } }

/-- The sample step keeps the agreement. -/
theorem SendsAlike.sampleStep (h : SendsAlike s t) (hs : s.Inv) (ht : t.Inv)
    (hs' : sampleStep s = .next s') (ht' : sampleStep t = .next t') : SendsAlike s' t' := by
  have hadv := h.advance
  have hfrac := hadv.oscillator.baudFrac
  obtain ⟨-, -, ⟨hgs, rfl⟩ | ⟨hgs, hns⟩⟩ := sampleStep_cases hs' <;>
    obtain ⟨-, -, ⟨hgt, rfl⟩ | ⟨hgt, hnt⟩⟩ := sampleStep_cases ht'
  · exact hadv
  · rw [hfrac, hgs] at hgt; cases hgt
  · rw [hfrac, hgs] at hgt; cases hgt
  · exact hadv.endBit.nextBit (by simpa using hs.cursor) (by simpa using ht.cursor) hns hnt

/-- With ENGINE alone a step of both gives SINK the same and keeps the agreement. -/
theorem SendsAlike.step (h : SendsAlike s t) (hs : s.ModulatesAlone) (ht : t.ModulatesAlone) :
    ∃ s' t' new, step s = .next s' ∧ step t = .next t' ∧ s'.ModulatesAlone ∧ t'.ModulatesAlone
      ∧ SendsAlike s' t' ∧ s'.samples = new ++ s.samples ∧ t'.samples = new ++ t.samples := by
  rcases hs.mode with hm | hi
  · have hm' := h.runState.symm.trans hm
    obtain ⟨s', hs'⟩ := hs.sampleStep_next hm
    obtain ⟨t', ht'⟩ := ht.sampleStep_next hm'
    refine ⟨s', t', [F64.cosine s.phase], (hs.step_of_mod hm).trans hs', (ht.step_of_mod hm').trans ht',
      hs.sampleStep hm hs', ht.sampleStep hm' ht', h.sampleStep hs.inv ht.inv hs' ht', sampleStep_samples hs', ?_⟩
    rw [← h.oscillator.phase]
    exact sampleStep_samples ht'
  · exact ⟨s, t, [], hs.step_of_idle hi, ht.step_of_idle (h.runState.symm.trans hi), hs, ht, h, rfl, rfl⟩

/-- Any number of steps of both gives SINK the same and keeps the agreement. -/
theorem SendsAlike.run (k : Nat) (h : SendsAlike s t) (hs : s.ModulatesAlone) (ht : t.ModulatesAlone) :
    ∃ s' t' new, Host.Core.run Sys2Proof.core k s = .next s' ∧ Host.Core.run Sys2Proof.core k t = .next t'
      ∧ s'.samples = new ++ s.samples ∧ t'.samples = new ++ t.samples ∧ SendsAlike s' t' := by
  induction k generalizing s t with
  | zero => exact ⟨s, t, [], rfl, rfl, rfl, rfl, h⟩
  | succ k ih =>
    obtain ⟨s1, t1, first, hs1, ht1, ms1, mt1, h1, ss1, st1⟩ := h.step hs ht
    obtain ⟨s', t', new, hs', ht', ss', st', h'⟩ := ih h1 ms1 mt1
    exact ⟨s', t', new ++ first, (core_run_succ hs1).trans hs', (core_run_succ ht1).trans ht',
      by rw [ss', ss1, List.append_assoc], by rw [st', st1, List.append_assoc], h'⟩

end BytesLeft

/-- Settles O33: the agreement holds for any number of steps (`SendsAlike.run`). -/
theorem samplesDependOnlyOnTheOscillatorAndTheBytesLeft :
    Obligations.SamplesDependOnlyOnTheOscillatorAndTheBytesLeft := by
  unfold Obligations.SamplesDependOnlyOnTheOscillatorAndTheBytesLeft
  intro k s t hs ht hms hmt has hat hosc hlo hhi hinc hbytes
  have halike : SendsAlike s t := ⟨hms.trans hmt.symm, hosc, hlo, hhi, hinc, hbytes⟩
  obtain ⟨s', t', new, hs', ht', hss, hst, h⟩ := halike.run k ⟨hs, has, .inl hms⟩ ⟨ht, hat, .inl hmt⟩
  exact ⟨s', t', new, hs', ht', hss, hst, h.oscillator, h.runState, h.toSend⟩

section Completion

open F64

variable {s t : State}

/-- The bits a running command still has to end: those of the byte in progress and of the bytes left (R46, R48). -/
def State.bitsToEnd (s : State) : Nat := 8 * (s.modN - s.pos) + s.bitsLeft.toNat

/-- What a running command still has to do: the bits to end, then how far BAUD_FRAC is from 1.0. -/
def State.workLeft (s : State) : Nat ×ₗ Nat := toLex (s.bitsToEnd, one.toNat - s.baudFrac.toNat)

theorem endBit_bitsToEnd (h : s.bitsLeft ≠ 0) : s.endBit.bitsToEnd < s.bitsToEnd := by
  have hleft : (s.bitsLeft - 1).toNat < s.bitsLeft.toNat := by bv_omega
  simp only [State.bitsToEnd, State.endBit_modN, State.endBit_pos, State.endBit_bitsLeft]
  omega

/-- A byte that is loaded was counted among the bytes left: its eight bits (R59, R94). -/
theorem nextBit_bitsToEnd (hc : s.pos ≤ s.modN) (h : nextBit s = .next t) : t.bitsToEnd = s.bitsToEnd := by
  rcases nextBit_cases h with ⟨-, -, rfl⟩ | ⟨hbits, hne, b, -, rfl⟩ | ⟨-, rfl⟩
  · rfl
  · simp only [State.bitsToEnd, State.loadByte_modN, State.loadByte_pos, State.loadByte_bitsLeft, hbits,
      BitVec.reduceToNat]
    omega
  · rfl

/-- Each sample step leaves less to do: it ends a bit, or BAUD_FRAC rises, to at most 1.0 (R94, R99, R101). -/
theorem sampleStep_workLeft (h : s.Inv) (hn : s.NumInv) (hm : s.runState = .mod) (hs : sampleStep s = .next t) :
    t.workLeft < s.workLeft := by
  rw [State.workLeft, State.workLeft, Prod.Lex.toLex_lt_toLex]
  obtain ⟨hbits, -, ⟨hgt, rfl⟩ | ⟨-, hnext⟩⟩ := sampleStep_cases hs
  · have hrise := fraction_rises hn.baudFrac (hn.baudIncLow hm) hn.baudInc
    have hle := (sampleStep_keeps_numInv hn hm hs).baudFrac
    rw [State.advance_baudFrac] at hle ⊢
    refine .inr ⟨by simp [State.bitsToEnd], ?_⟩
    dsimp only
    omega
  · left
    calc t.bitsToEnd = s.advance.endBit.bitsToEnd := nextBit_bitsToEnd (by simpa using h.cursor.1) hnext
      _ < s.advance.bitsToEnd := endBit_bitsToEnd (by simpa using hbits)
      _ = s.bitsToEnd := by simp [State.bitsToEnd]

/-- A running command comes to its end: there is no endless descent of what is left to do. -/
theorem State.ModulatesAlone.completes (h : s.ModulatesAlone) (hn : s.NumInv) (hm : s.runState = .mod) :
    ∃ k t, Host.Core.run Sys2Proof.core k s = .next t ∧ t.runState = .idle ∧ t.done = true := by
  induction hw : s.workLeft using WellFoundedLT.induction generalizing s with
  | ind w ih =>
    obtain ⟨u, hu⟩ := h.sampleStep_next hm
    have hstep := (h.step_of_mod hm).trans hu
    rcases sampleStep_runState hu with hrun | ⟨hidle, hdone⟩
    · have hless := hw ▸ sampleStep_workLeft h.inv hn hm hu
      obtain ⟨k, t, hk, hend⟩ := ih u.workLeft hless (h.sampleStep hm hu) (sampleStep_keeps_numInv hn hm hu)
        (hrun.trans hm) rfl
      exact ⟨k + 1, t, (core_run_succ hstep).trans hk, hend⟩
    · exact ⟨1, u, core_run_succ hstep, hidle, hdone⟩

end Completion

/-- Settles O38. -/
theorem modulatorCommandsCompleteWhenTheSinkAccepts : Obligations.ModulatorCommandsCompleteWhenTheSinkAccepts := by
  unfold Obligations.ModulatorCommandsCompleteWhenTheSinkAccepts
  intro s h hn hm halone
  have hs : s.ModulatesAlone := ⟨h, halone, .inl hm⟩
  exact hs.completes hn hm

end Sys2Proof.Machine
end

section
/-! PROOFS of the statements of spec/42_control.md: CMD writes outside IDLE (O8), NOP (O9), configuration and window
writes in BUILD and MOD (O43), the two forms of reset (O49). -/

namespace Sys2Proof.Machine

section Acceptance

variable {s : State}

/-- exec of every command is an acceptance: only in IDLE does it matter which command it is (R102). -/
theorem exec_eq_accept (i : Instr) : ∃ run, ∀ s, exec i s = accept s run := by
  cases i with
  | nop => exact ⟨_, fun _ => rfl⟩
  | buildCtrl => exact ⟨_, fun _ => rfl⟩
  | buildData => exact ⟨_, fun _ => rfl⟩
  | modBuf len => exact ⟨_, fun _ => rfl⟩
  | modPkt => exact ⟨_, fun _ => rfl⟩
  | oscReset => exact ⟨_, fun _ => rfl⟩

/-- A CMD write is an acceptance, whatever its word (R102). -/
theorem cmdWrite_eq_accept (w : Word) : ∃ run, ∀ s, cmdWrite w s = accept s run := by
  unfold cmdWrite
  cases decode w with
  | ok i => exact exec_eq_accept i
  | error e => exact ⟨_, fun _ => rfl⟩

/-- In ERROR every command word is ignored, legal or not (R102). -/
theorem cmdWrite_of_error (w : Word) (h : s.runState = .error) : cmdWrite w s = .next s := by
  obtain ⟨run, hrun⟩ := cmdWrite_eq_accept w
  rw [hrun, accept_error h]

/-- NOP's acceptance part is `complete` (R105). -/
theorem exec_nop (s : State) : exec .nop s = accept s fun s => .next s.complete := rfl

end Acceptance

/-- Settles O8: a CMD write is an acceptance, for every word (`cmdWrite_eq_accept`). -/
theorem cmdWritesOutsideIdleAreDroppedOrIgnored : Obligations.CmdWritesOutsideIdleAreDroppedOrIgnored := by
  unfold Obligations.CmdWritesOutsideIdleAreDroppedOrIgnored
  exact fun w s => ⟨cmdWrite_of_busy w, cmdWrite_of_error w⟩

/-- Settles O9: in IDLE the acceptance runs `complete`, elsewhere it drops or ignores. -/
theorem nopCompletesAtOnce : Obligations.NopCompletesAtOnce := by
  unfold Obligations.NopCompletesAtOnce
  refine ⟨rfl, fun s => ⟨fun hi => ?_, exec_of_busy .nop, fun he => ?_⟩⟩
  · rw [exec_nop, accept_idle hi]
    rfl
  · rw [exec_nop, accept_error he]

section DroppedWrites

variable {s : State} {a : Offset} {slot : Slot}

/-- The configuration registers (R23, R107): VERSION to BLOCK, at 0x018 to 0x034. -/
def configSlots : List Slot :=
  [.version, .flags, .sampleRate, .baudRate, .fLo, .fHi, .payloadLen, .block]

/-- Offsets 0x018 to 0x037 reach the configuration registers (R23, R61). -/
theorem slotOf_mem_configSlots (h : 0x018 ≤ a.toNat) (h' : a.toNat < 0x038) : slotOf a ∈ configSlots := by
  rw [slotOf_low (by omega)]
  have htable : ∀ n < 14, 6 ≤ n → lowSlots.getD n .reserved ∈ configSlots := by decide
  exact htable _ (by omega) (by omega)

/-- Where writes are not taken, a write to a configuration register or a window word sets DROP and stores nothing
(R107). -/
theorem slotWrite_dropped (hslot : slot ∈ configSlots ∨ ∃ k, slot = .pkt k) (w : Word) (hs : s.takesWrites = false) :
    slotWrite w s slot = s.setDrop := by
  rcases hslot with hslot | ⟨k, rfl⟩
  · simp only [configSlots, List.mem_cons, List.not_mem_nil, or_false] at hslot
    rcases hslot with rfl | rfl | rfl | rfl | rfl | rfl | rfl | rfl <;>
      rw [slotWrite, configWrite_dropped hs]
  · rw [slotWrite, configWrite_dropped hs]

end DroppedWrites

/-- Settles O43: both ranges reach slots whose writes are dropped there (`slotWrite_dropped`). -/
theorem writesWhileBusyAreDropped : Obligations.WritesWhileBusyAreDropped := by
  unfold Obligations.WritesWhileBusyAreDropped
  intro s w a hbusy ha
  have hslot : slotOf a ∈ configSlots ∨ ∃ k, slotOf a = .pkt k := by
    rcases ha with ⟨h, h'⟩ | ⟨h, h'⟩
    · exact .inl (slotOf_mem_configSlots h h')
    · obtain ⟨k, hk, -⟩ := slotOf_in_window h h'
      exact .inr ⟨k, hk⟩
  have hcmd : slotOf a ≠ .cmd := by
    intro hc
    simp [hc, configSlots] at hslot
  rw [regWrite_of_slot w s rfl hcmd, slotWrite_dropped hslot w (takesWrites_eq_false_iff.2 hbusy)]
  rfl

/-- A CTRL write with SRST = 1 joint with ENGINE is the reset: ENGINE has no step left to take (R109, R112). -/
theorem writeWithEngine_ctrl_reset {a : Offset} {w : Word} (s : State) (h : slotOf a = .ctrl)
    (hw : w.getLsbD 0 = true) : writeWithEngine a w s = .next s.resetBlock := by
  have hreset := regWrite_ctrl_reset s h hw
  cases he : s.engineEnabled with
  | false => rw [writeWithEngine_of_not_enabled he, hreset]
  | true => rw [writeWithEngine_of_enabled he hreset, engineStep_of_not_enabled rfl]

/-- A state whose next move is `m` performs it (R66). -/
theorem step_withMove (s : State) (m : Move) (rest : List Move) :
    step { s with agenda := m :: rest } = perform m { s with agenda := rest } := rfl

/-- Settles O49: each of the four moves answers the reset of the block (R123). -/
theorem resetInputAndSoftResetAreTheSame : Obligations.ResetInputAndSoftResetAreTheSame := by
  unfold Obligations.ResetInputAndSoftResetAreTheSame
  intro s a w v rest hw
  simp only [step_withMove]
  exact ⟨rfl, regWrite_ctrl_reset _ rfl hw, writeWithEngine_ctrl_reset _ rfl hw, rfl⟩

end Sys2Proof.Machine
end

section
/-! PROOFS of the statements of spec/60_exceptions.md: the interrupt output (O47), error entry (O20), only a reset leaves
ERROR (O56). -/

namespace Sys2Proof.Machine

section Interrupt

/-- IRQ is the level of R115. -/
theorem State.irq_iff (s : State) :
    s.irq = true ↔ (s.ieDone = true ∧ s.done = true) ∨ (s.ieErr = true ∧ s.runState = .error) := by
  simp [State.irq]

/-- STATUS shows IRQ in its bit 8 (R106, R115). -/
theorem State.statusWord_irq (s : State) : s.statusWord.toNat / 2 ^ 8 % 2 = s.irq.toNat := by
  have := s.runState.bits.isLt
  have := s.errBits.isLt
  have := Bool.toNat_le s.drop
  have := Bool.toNat_le s.done
  have := Bool.toNat_le s.irq
  rw [s.statusWord_toNat]
  omega

end Interrupt

/-- Settles O47. -/
theorem interruptFollowsDoneAndError : Obligations.InterruptFollowsDoneAndError := by
  unfold Obligations.InterruptFollowsDoneAndError
  exact fun s => ⟨s.irq_iff, by rw [regRead_status, s.statusWord_irq]⟩

section ErrorEntry

variable {s t : State} {w : Word} {n : Nat}

/-- A word that brings a state other than ERROR to ERROR ran: dropped or ignored it leaves STATE (R102). -/
theorem accept_enters_error {run : State → Result} (hs : s.runState ≠ .error) (ht : t.runState = .error)
    (h : accept s run = .next t) : run s = .next t := by
  rcases accept_cases h with ⟨-, hrun⟩ | ⟨-, rfl⟩ | ⟨he, -⟩
  · exact hrun
  · exact absurd ht hs
  · exact absurd he hs

/-- A command that completes at its acceptance raises no error: NOP and OSC_RESET (R98, R105). -/
theorem accept_complete_ne {f : State → State} (hs : s.runState ≠ .error) (ht : t.runState = .error) :
    accept s (fun s => .next (f s).complete) ≠ .next t := by
  intro h
  cases accept_enters_error hs ht h
  cases ht

/-- The one error of a framer command is CFG_VERSION (R89, R90). -/
theorem startBuild_enters_error {kind : PacketKind} (ht : t.runState = .error) (h : startBuild kind w s = .next t) :
    t = s.raiseError .cfgVersion w := by
  unfold startBuild at h
  split at h
  · cases h; cases ht
  · cases h; rfl

/-- The one error of the prologue is CFG_NUMERIC (R93). -/
theorem prologue_enters_error (ht : t.runState = .error) (h : prologue n w s = .next t) :
    t = s.raiseError .cfgNumeric w := by
  rcases prologue_cases h with ⟨-, herr⟩ | ⟨-, rfl⟩
  · exact herr
  · rcases beginModulation_runState n s with hrun | ⟨hrun, -⟩ <;> cases hrun.symm.trans ht

/-- LEN_RANGE comes first, and with a LEN in range only the prologue's error is left (R96, R112). -/
theorem startModBuf_enters_error (ht : t.runState = .error) (h : startModBuf n w s = .next t) :
    t = s.raiseError (if 512 < n then .lenRange else .cfgNumeric) w := by
  unfold startModBuf at h
  split at h
  · cases h; rw [if_pos ‹_›]
  · rw [if_neg ‹_›]; exact prologue_enters_error ht h

/-- The error a command can raise at its acceptance (R110, R112). -/
def errorOfInstr : Instr → Option ErrorCode
  | .nop => none
  | .buildCtrl => some .cfgVersion
  | .buildData => some .cfgVersion
  | .modBuf n => some (if 512 < n then .lenRange else .cfgNumeric)
  | .modPkt => some .cfgNumeric
  | .oscReset => none

/-- A command that brings STATE to ERROR raises its own error, with its own word, and does nothing else (R111). -/
theorem exec_enters_error {i : Instr} (hs : s.runState ≠ .error) (ht : t.runState = .error)
    (h : exec i s = .next t) : ∃ code, errorOfInstr i = some code ∧ t = s.raiseError code (encode i) := by
  cases i with
  | nop => exact absurd h (accept_complete_ne (f := id) hs ht)
  | buildCtrl => exact ⟨_, rfl, startBuild_enters_error ht (accept_enters_error hs ht h)⟩
  | buildData => exact ⟨_, rfl, startBuild_enters_error ht (accept_enters_error hs ht h)⟩
  | modBuf n => exact ⟨_, rfl, startModBuf_enters_error ht (accept_enters_error hs ht h)⟩
  | modPkt => exact ⟨_, rfl, prologue_enters_error ht (accept_enters_error hs ht h)⟩
  | oscReset => exact absurd h (accept_complete_ne (f := State.resetOscillator) hs ht)

/-- The error a CMD write of a word can raise: ILLEGAL_CMD where no command is decoded (R75, R112). -/
def errorOfWord (w : Word) : Option ErrorCode :=
  match decode w with
  | .ok i => errorOfInstr i
  | .error _ => some .illegalCmd

theorem errorOfWord_of_ok {i : Instr} (h : decode w = .ok i) : errorOfWord w = errorOfInstr i := by
  simp [errorOfWord, h]

theorem errorOfWord_of_error (h : ∃ e, decode w = .error e) : errorOfWord w = some .illegalCmd := by
  obtain ⟨e, he⟩ := h
  simp [errorOfWord, he]

/-- A CMD write that brings STATE to ERROR raises the word's own error and does nothing else (R111). -/
theorem cmdWrite_enters_error (hs : s.runState ≠ .error) (ht : t.runState = .error) (h : cmdWrite w s = .next t) :
    ∃ code, errorOfWord w = some code ∧ t = s.raiseError code w := by
  rcases cmdWrite_cases h with ⟨i, hi, hx⟩ | ⟨-, rfl⟩ | ⟨he, -⟩ | ⟨⟨-, he⟩, rfl⟩
  · obtain ⟨code, hcode, herr⟩ := exec_enters_error hs ht hx
    rw [(decode_eq_ok_iff.1 hi).2] at herr
    exact ⟨code, (errorOfWord_of_ok hi).trans hcode, herr⟩
  · exact absurd ht hs
  · exact absurd he hs
  · exact ⟨_, errorOfWord_of_error he, rfl⟩

end ErrorEntry

/-- Settles O20: the next state is the error entry of the word's own error (`cmdWrite_enters_error`), which
`errorOfWord` reads off the decoded word. -/
theorem errorEntryChangesNothingElse : Obligations.ErrorEntryChangesNothingElse := by
  unfold Obligations.ErrorEntryChangesNothingElse
  intro w s t hs h ht
  obtain ⟨code, hcode, herr⟩ := cmdWrite_enters_error hs ht h
  have hok {i : Instr} (hi : decode w = .ok i) : some code = errorOfInstr i :=
    hcode.symm.trans (errorOfWord_of_ok hi)
  refine ⟨code, herr, fun he => ?_, fun n hn => ?_, fun hf => ?_, fun hp => ?_, fun hn => ?_, fun ho => ?_⟩
  · exact Option.some.inj (hcode.symm.trans (errorOfWord_of_error he))
  · exact Option.some.inj (hok hn)
  · rcases hf with hf | hf <;> exact Option.some.inj (hok hf)
  · exact Option.some.inj (hok hp)
  · cases hok hn
  · cases hok ho

section LeavingError

variable {s t u : State} {w : Word} {slot : Slot} {a : Offset}

/-- STATE and the error registers, ERR_CODE and ERR_CMD, are the same (R27, R29). -/
structure SameErrorEntry (s t : State) : Prop where
  runState : t.runState = s.runState
  errCode : t.errCode = s.errCode
  errCmd : t.errCmd = s.errCmd

theorem SameErrorEntry.refl (s : State) : SameErrorEntry s s := ⟨rfl, rfl, rfl⟩

theorem SameErrorEntry.trans (h : SameErrorEntry s t) (h' : SameErrorEntry t u) : SameErrorEntry s u :=
  ⟨h'.runState.trans h.runState, h'.errCode.trans h.errCode, h'.errCmd.trans h.errCmd⟩

/-- A write away from CMD that is no reset leaves STATE and the error registers (R107). -/
theorem SlotWritten.sameErrorEntry (h : SlotWritten s w slot t) (hr : ¬ IsSoftReset slot w) :
    SameErrorEntry s t := by
  cases h with
  | config _ _ ht => rw [ht]; exact ⟨rfl, rfl, rfl⟩
  | reset _ _ hslot hbit => exact absurd ⟨hslot, hbit⟩ hr
  | _ => exact ⟨rfl, rfl, rfl⟩

/-- In ERROR a write that is no reset leaves STATE and the error registers: a CMD write is ignored (R102, R107). -/
theorem regWrite_of_error (he : s.runState = .error) (hr : ¬ IsSoftReset (slotOf a) w)
    (h : regWrite a w s = .next t) : SameErrorEntry s t := by
  rcases regWrite_cases h with ⟨-, hc⟩ | ⟨-, hs⟩
  · rw [cmdWrite_of_error w he] at hc
    cases hc
    exact .refl s
  · exact hs.sameErrorEntry hr

/-- In ERROR ENGINE has no step to take (R103). -/
theorem engineStep_of_error (he : s.runState = .error) : engineStep s = .next s :=
  engineStep_of_not_enabled (by simp [State.engineEnabled, he])

end LeavingError

/-- Settles O56: every agent's part of the step leaves STATE and the error registers (R102, R103, R113). -/
theorem onlyAResetLeavesError : Obligations.OnlyAResetLeavesError := by
  unfold Obligations.OnlyAResetLeavesError
  intro s t he h hr
  have hst : SameErrorEntry s t := step_preserves (P := SameErrorEntry s) h (.refl s)
    (agenda := fun u ms hu => hu.trans ⟨rfl, rfl, rfl⟩)
    (read := fun u a hu => hu.trans ⟨rfl, rfl, rfl⟩)
    (write := fun u v a w hu hnext hw =>
      hu.trans (regWrite_of_error (hu.runState.trans he) (not_isSoftReset hnext hr) hw))
    (engine := fun u v hu hv => by
      rw [engineStep_of_error (hu.runState.trans he)] at hv
      cases hv
      exact hu)
    (reset := fun u hreset _ => by rw [hr] at hreset; cases hreset)
    (sink := fun u b hu => hu.trans ⟨rfl, rfl, rfl⟩)
    (payload := fun u a v _ hu => hu.trans ⟨rfl, rfl, rfl⟩)
    (silence := fun u n hu => hu.trans ⟨rfl, rfl, rfl⟩)
  exact ⟨hst.runState.trans he, hst.errCode, hst.errCmd⟩

end Sys2Proof.Machine
end
